-- ==== Sys2Proof/Word.lean ====
section
/-! DEFINITION. The widths the spec counts in (00_scope.md R10, R11; 10_state.md R30): bytes, halfwords, words, register numbers. -/

namespace Sys2Proof

/-- One byte of memory (R70). -/
abbrev Byte := BitVec 8

/-- A Thumb instruction halfword, or a 2-byte datum (R120, R81). -/
abbrev Half := BitVec 16

/-- A register, an address, an ARM instruction word (R11, R30). -/
abbrev Word := BitVec 32

/-- A register number, 0..15; 13, 14, 15 are SP, LR, PC (R30). -/
abbrev RegNum := BitVec 4

/-- The 3-bit register field of a Thumb instruction; it names x[0..7] (R136). -/
abbrev LowReg := BitVec 3

end Sys2Proof
end

