-- ==== Sys2Proof/Syntax.lean ====
section
/-! DEFINITION. The instructions: one constructor per row of spec/opcode_table.json (38 ARM rows, 62 Thumb rows), in the
table's order. A constructor carries every bit of its encoding that the row does not fix, the bits the spec says are not
examined among them (named `low`, `rnIgnored`, `rdIgnored`, ...), so that no encoding is lost by decoding. -/

namespace Sys2Proof

/-- The fifteen ARM condition codes (R178); the sixteenth value, 1111, is a row of its own (`Instr.armCondNever`, R138). -/
inductive Cond where
  | eq | ne | cs | cc | mi | pl | vs | vc | hi | ls | ge | lt | gt | le | al
deriving DecidableEq, Repr

/-- The barrel shifter's four operations, w[6:5] (R207). -/
inductive ShiftType where
  | lsl | lsr | asr | ror
deriving DecidableEq, Repr

/-- ARM data-processing operand 2 (R231): I = 1 a rotated immediate, I = 0 a shifted register with w[4] = 0. -/
inductive Operand2 where
  | imm (rot : BitVec 4) (imm8 : BitVec 8)
  | reg (amount : BitVec 5) (ty : ShiftType) (rm : RegNum)
deriving DecidableEq, Repr

/-- ARM single-transfer offset (R271): I = 0 twelve immediate bits, I = 1 a shifted register with w[4] = 0. -/
inductive Offset where
  | imm (imm12 : BitVec 12)
  | reg (amount : BitVec 5) (ty : ShiftType) (rm : RegNum)
deriving DecidableEq, Repr

/-- The source of MSR (R306): I = 1 a rotated immediate, I = 0 a register, whose bits w[11:5] are not examined. -/
inductive MsrSource where
  | imm (rot : BitVec 4) (imm8 : BitVec 8)
  | reg (ignored : BitVec 7) (rm : RegNum)
deriving DecidableEq, Repr

/-- One constructor per row of the opcode table. `c` is the ARM condition, `s` the S bit. -/
inductive Instr where
  -- ARM, 32-bit words
  | armCondNever (low : BitVec 28)
  | armBx (c : Cond) (rm : RegNum)
  | armBlxReg (c : Cond) (rm : RegNum)
  | armBxExt (c : Cond) (sel : BitVec 4) (rm : RegNum)
  | armSwi (c : Cond) (comment : BitVec 24)
  | armExtDp (c : Cond) (op : BitVec 4) (s : Bool) (rn rd : RegNum) (amount : BitVec 5) (ty : ShiftType) (rm : RegNum)
  | armMrs (c : Cond) (i : Bool) (rnIgnored : BitVec 4) (rd : RegNum) (low : BitVec 12)
  | armMsr (c : Cond) (mask rdIgnored : BitVec 4) (src : MsrSource)
  | armMrs2 (c : Cond) (i : Bool) (rnIgnored rdIgnored : BitVec 4) (low : BitVec 12)
  | armMsr2 (c : Cond) (i : Bool) (rnIgnored rdIgnored : BitVec 4) (low : BitVec 12)
  | armAnd (c : Cond) (s : Bool) (rn rd : RegNum) (o : Operand2)
  | armEor (c : Cond) (s : Bool) (rn rd : RegNum) (o : Operand2)
  | armSub (c : Cond) (s : Bool) (rn rd : RegNum) (o : Operand2)
  | armRsb (c : Cond) (s : Bool) (rn rd : RegNum) (o : Operand2)
  | armAdd (c : Cond) (s : Bool) (rn rd : RegNum) (o : Operand2)
  | armAdc (c : Cond) (s : Bool) (rn rd : RegNum) (o : Operand2)
  | armSbc (c : Cond) (s : Bool) (rn rd : RegNum) (o : Operand2)
  | armRsc (c : Cond) (s : Bool) (rn rd : RegNum) (o : Operand2)
  | armTst (c : Cond) (rn : RegNum) (rdIgnored : BitVec 4) (o : Operand2)
  | armTeq (c : Cond) (rn : RegNum) (rdIgnored : BitVec 4) (o : Operand2)
  | armCmp (c : Cond) (rn : RegNum) (rdIgnored : BitVec 4) (o : Operand2)
  | armCmn (c : Cond) (rn : RegNum) (rdIgnored : BitVec 4) (o : Operand2)
  | armOrr (c : Cond) (s : Bool) (rn rd : RegNum) (o : Operand2)
  | armMov (c : Cond) (s : Bool) (rnIgnored : BitVec 4) (rd : RegNum) (o : Operand2)
  | armBic (c : Cond) (s : Bool) (rn rd : RegNum) (o : Operand2)
  | armMvn (c : Cond) (s : Bool) (rnIgnored : BitVec 4) (rd : RegNum) (o : Operand2)
  | armLdrLit (c : Cond) (i p u b w : Bool) (rd : RegNum) (imm12 : BitVec 12)
  | armExtTransfer (c : Cond) (p u b w l : Bool) (rn rd : RegNum) (amount : BitVec 5) (ty : ShiftType) (rm : RegNum)
  | armStr (c : Cond) (p u w : Bool) (rn rd : RegNum) (off : Offset)
  | armLdr (c : Cond) (p u w : Bool) (rn rd : RegNum) (off : Offset)
  | armStrb (c : Cond) (p u w : Bool) (rn rd : RegNum) (off : Offset)
  | armLdrb (c : Cond) (p u w : Bool) (rn rd : RegNum) (off : Offset)
  | armStm (c : Cond) (p u sIgnored w : Bool) (rn : RegNum) (list : BitVec 16)
  | armLdm (c : Cond) (p u sIgnored w : Bool) (rn : RegNum) (list : BitVec 16)
  | armB (c : Cond) (imm24 : BitVec 24)
  | armBl (c : Cond) (imm24 : BitVec 24)
  | armCoproc (c : Cond) (low : BitVec 24)
  | armUnknown (c : Cond) (low : BitVec 25)
  -- Thumb, halfwords
  | tAddReg (rn rs rd : LowReg)
  | tSubReg (rn rs rd : LowReg)
  | tAddImm3 (imm3 : BitVec 3) (rs rd : LowReg)
  | tSubImm3 (imm3 : BitVec 3) (rs rd : LowReg)
  | tLslImm (imm5 : BitVec 5) (rs rd : LowReg)
  | tLsrImm (imm5 : BitVec 5) (rs rd : LowReg)
  | tAsrImm (imm5 : BitVec 5) (rs rd : LowReg)
  | tMovImm (rd : LowReg) (imm8 : BitVec 8)
  | tCmpImm (rd : LowReg) (imm8 : BitVec 8)
  | tAddImm8 (rd : LowReg) (imm8 : BitVec 8)
  | tSubImm8 (rd : LowReg) (imm8 : BitVec 8)
  | tAnd (rs rd : LowReg)
  | tEor (rs rd : LowReg)
  | tLslReg (rs rd : LowReg)
  | tLsrReg (rs rd : LowReg)
  | tAsrReg (rs rd : LowReg)
  | tAdc (rs rd : LowReg)
  | tSbc (rs rd : LowReg)
  | tRorReg (rs rd : LowReg)
  | tTst (rs rd : LowReg)
  | tNeg (rs rd : LowReg)
  | tCmpReg (rs rd : LowReg)
  | tCmn (rs rd : LowReg)
  | tOrr (rs rd : LowReg)
  | tMul (rs rd : LowReg)
  | tBic (rs rd : LowReg)
  | tMvn (rs rd : LowReg)
  | tAddHigh (rd rs : RegNum)
  | tCmpHigh (rd rs : RegNum)
  | tMovHigh (rd rs : RegNum)
  | tBx (rm : RegNum) (low : BitVec 3)
  | tBxExt (rm : RegNum) (low : BitVec 3)
  | tLdrPc (rd : LowReg) (imm8 : BitVec 8)
  | tStrReg (ro rb rd : LowReg)
  | tStrbReg (ro rb rd : LowReg)
  | tLdrReg (ro rb rd : LowReg)
  | tLdrbReg (ro rb rd : LowReg)
  | tExtHalf (sel : BitVec 2) (ro rb rd : LowReg)
  | tStrImm (imm5 : BitVec 5) (rb rd : LowReg)
  | tLdrImm (imm5 : BitVec 5) (rb rd : LowReg)
  | tStrbImm (imm5 : BitVec 5) (rb rd : LowReg)
  | tLdrbImm (imm5 : BitVec 5) (rb rd : LowReg)
  | tStrhImm (imm5 : BitVec 5) (rb rd : LowReg)
  | tLdrhImm (imm5 : BitVec 5) (rb rd : LowReg)
  | tStrSp (rd : LowReg) (imm8 : BitVec 8)
  | tLdrSp (rd : LowReg) (imm8 : BitVec 8)
  | tAddPc (rd : LowReg) (imm8 : BitVec 8)
  | tAddSp (rd : LowReg) (imm8 : BitVec 8)
  | tSpAdd (imm7 : BitVec 7)
  | tSpSub (imm7 : BitVec 7)
  | tPush (r : Bool) (rlist : BitVec 8)
  | tPop (r : Bool) (rlist : BitVec 8)
  | tUnknown1011 (low : BitVec 12)
  | tStmia (rb : LowReg) (rlist : BitVec 8)
  | tLdmia (rb : LowReg) (rlist : BitVec 8)
  | tSwi (imm8 : BitVec 8)
  | tBcond (c : Cond) (imm8 : BitVec 8)
  | tB (imm11 : BitVec 11)
  | tBl (hi11 : BitVec 11) (top : BitVec 3) (b11 : BitVec 1) (lo11 : BitVec 11)
  | tBlx (hi11 : BitVec 11) (top : BitVec 3) (b11 : BitVec 1) (lo11 : BitVec 11)
  | tUnknown11101 (low : BitVec 11)
  | tUnknown11111 (low : BitVec 11)
deriving DecidableEq, Repr

end Sys2Proof
end

