-- ==== Sys2Proof/WellFormed.lean ====
section
/-! DEFINITION. Which terms of `Instr` stand for words of their own row. The decode order of 30_encoding.md R127 and R130 (the
table's priorities) gives some words to an earlier row; a term whose word an earlier row takes is ill-formed. -/

namespace Sys2Proof

/-- The fields of a class-00 word that make w[27:8] = 0x12FFF, the BX/BLX pattern (R126): op = 1001, S = 0, w[19:16], w[15:12]
and w[11:8] all ones. I is 0 at every use. -/
def bxFields (op : BitVec 4) (s : Bool) (rn rd w11to8 : BitVec 4) : Bool :=
  op == 9#4 && !s && rn == 15#4 && rd == 15#4 && w11to8 == 15#4

/-- A term is well-formed when its encoding decodes to it: the checks below are the overlaps of R127 and R130. -/
def Instr.wf : Instr → Bool
  -- R139: the extension selector is neither BX (0001) nor BLX (0011)
  | .armBxExt _ sel _ => sel != 1#4 && sel != 3#4
  -- R127 line 1 comes before line 3
  | .armExtDp _ op s rn rd amount _ _ => !bxFields op s rn rd (amount.extractLsb' 1 4)
  | .armMsr _ mask rdIgnored (.reg ignored _) => !bxFields 9#4 false mask rdIgnored (ignored.extractLsb' 3 4)
  | .armMsr _ _ _ (.imm _ _) => true
  -- R139: I = 0 with w[4] = 1 is the extension row
  | .armMrs _ i _ _ low => i || !low.getLsbD 4
  | .armMrs2 _ i _ _ low => i || !low.getLsbD 4
  | .armMsr2 _ i _ _ low => i || !low.getLsbD 4
  -- R272: a load with Rn = 15 is the literal row
  | .armLdr _ _ _ _ rn _ _ => rn != 15#4
  | .armLdrb _ _ _ _ rn _ _ => rn != 15#4
  | .armExtTransfer _ _ _ _ _ l rn _ _ _ _ => !(l && rn == 15#4)
  -- R130 lines 12 and 13 come before line 14
  | .tUnknown1011 low => low.extractLsb' 8 4 != 0#4 && low.extractLsb' 9 2 != 2#2
  -- every other row's constructors have a word of their own for every operand
  | .armCondNever _ | .armBx _ _ | .armBlxReg _ _ | .armSwi _ _ => true
  | .armAnd _ _ _ _ _ | .armEor _ _ _ _ _ | .armSub _ _ _ _ _ | .armRsb _ _ _ _ _ => true
  | .armAdd _ _ _ _ _ | .armAdc _ _ _ _ _ | .armSbc _ _ _ _ _ | .armRsc _ _ _ _ _ => true
  | .armTst _ _ _ _ | .armTeq _ _ _ _ | .armCmp _ _ _ _ | .armCmn _ _ _ _ => true
  | .armOrr _ _ _ _ _ | .armMov _ _ _ _ _ | .armBic _ _ _ _ _ | .armMvn _ _ _ _ _ => true
  | .armLdrLit _ _ _ _ _ _ _ _ | .armStr _ _ _ _ _ _ _ | .armStrb _ _ _ _ _ _ _ => true
  | .armStm _ _ _ _ _ _ _ | .armLdm _ _ _ _ _ _ _ => true
  | .armB _ _ | .armBl _ _ | .armCoproc _ _ | .armUnknown _ _ => true
  | .tAddReg _ _ _ | .tSubReg _ _ _ | .tAddImm3 _ _ _ | .tSubImm3 _ _ _ => true
  | .tLslImm _ _ _ | .tLsrImm _ _ _ | .tAsrImm _ _ _ => true
  | .tMovImm _ _ | .tCmpImm _ _ | .tAddImm8 _ _ | .tSubImm8 _ _ => true
  | .tAnd _ _ | .tEor _ _ | .tLslReg _ _ | .tLsrReg _ _ | .tAsrReg _ _ | .tAdc _ _ | .tSbc _ _ | .tRorReg _ _ => true
  | .tTst _ _ | .tNeg _ _ | .tCmpReg _ _ | .tCmn _ _ | .tOrr _ _ | .tMul _ _ | .tBic _ _ | .tMvn _ _ => true
  | .tAddHigh _ _ | .tCmpHigh _ _ | .tMovHigh _ _ | .tBx _ _ | .tBxExt _ _ => true
  | .tLdrPc _ _ | .tStrReg _ _ _ | .tStrbReg _ _ _ | .tLdrReg _ _ _ | .tLdrbReg _ _ _ | .tExtHalf _ _ _ _ => true
  | .tStrImm _ _ _ | .tLdrImm _ _ _ | .tStrbImm _ _ _ | .tLdrbImm _ _ _ | .tStrhImm _ _ _ | .tLdrhImm _ _ _ => true
  | .tStrSp _ _ | .tLdrSp _ _ | .tAddPc _ _ | .tAddSp _ _ | .tSpAdd _ | .tSpSub _ => true
  | .tPush _ _ | .tPop _ _ | .tStmia _ _ | .tLdmia _ _ => true
  | .tSwi _ | .tBcond _ _ | .tB _ | .tBl _ _ _ _ | .tBlx _ _ _ _ => true
  | .tUnknown11101 _ | .tUnknown11111 _ => true

/-- Which decoder an instruction belongs to (R173): `true` for Thumb. -/
def Instr.isThumb : Instr → Bool
  | .armCondNever _ | .armBx _ _ | .armBlxReg _ _ | .armBxExt _ _ _ | .armSwi _ _ | .armExtDp _ _ _ _ _ _ _ _ => false
  | .armMrs _ _ _ _ _ | .armMsr _ _ _ _ | .armMrs2 _ _ _ _ _ | .armMsr2 _ _ _ _ _ => false
  | .armAnd _ _ _ _ _ | .armEor _ _ _ _ _ | .armSub _ _ _ _ _ | .armRsb _ _ _ _ _ => false
  | .armAdd _ _ _ _ _ | .armAdc _ _ _ _ _ | .armSbc _ _ _ _ _ | .armRsc _ _ _ _ _ => false
  | .armTst _ _ _ _ | .armTeq _ _ _ _ | .armCmp _ _ _ _ | .armCmn _ _ _ _ => false
  | .armOrr _ _ _ _ _ | .armMov _ _ _ _ _ | .armBic _ _ _ _ _ | .armMvn _ _ _ _ _ => false
  | .armLdrLit _ _ _ _ _ _ _ _ | .armExtTransfer _ _ _ _ _ _ _ _ _ _ _ => false
  | .armStr _ _ _ _ _ _ _ | .armLdr _ _ _ _ _ _ _ | .armStrb _ _ _ _ _ _ _ | .armLdrb _ _ _ _ _ _ _ => false
  | .armStm _ _ _ _ _ _ _ | .armLdm _ _ _ _ _ _ _ => false
  | .armB _ _ | .armBl _ _ | .armCoproc _ _ | .armUnknown _ _ => false
  | .tAddReg _ _ _ | .tSubReg _ _ _ | .tAddImm3 _ _ _ | .tSubImm3 _ _ _ => true
  | .tLslImm _ _ _ | .tLsrImm _ _ _ | .tAsrImm _ _ _ => true
  | .tMovImm _ _ | .tCmpImm _ _ | .tAddImm8 _ _ | .tSubImm8 _ _ => true
  | .tAnd _ _ | .tEor _ _ | .tLslReg _ _ | .tLsrReg _ _ | .tAsrReg _ _ | .tAdc _ _ | .tSbc _ _ | .tRorReg _ _ => true
  | .tTst _ _ | .tNeg _ _ | .tCmpReg _ _ | .tCmn _ _ | .tOrr _ _ | .tMul _ _ | .tBic _ _ | .tMvn _ _ => true
  | .tAddHigh _ _ | .tCmpHigh _ _ | .tMovHigh _ _ | .tBx _ _ | .tBxExt _ _ => true
  | .tLdrPc _ _ | .tStrReg _ _ _ | .tStrbReg _ _ _ | .tLdrReg _ _ _ | .tLdrbReg _ _ _ | .tExtHalf _ _ _ _ => true
  | .tStrImm _ _ _ | .tLdrImm _ _ _ | .tStrbImm _ _ _ | .tLdrbImm _ _ _ | .tStrhImm _ _ _ | .tLdrhImm _ _ _ => true
  | .tStrSp _ _ | .tLdrSp _ _ | .tAddPc _ _ | .tAddSp _ _ | .tSpAdd _ | .tSpSub _ => true
  | .tPush _ _ | .tPop _ _ | .tUnknown1011 _ | .tStmia _ _ | .tLdmia _ _ => true
  | .tSwi _ | .tBcond _ _ | .tB _ | .tBl _ _ _ _ | .tBlx _ _ _ _ => true
  | .tUnknown11101 _ | .tUnknown11111 _ => true

end Sys2Proof
end

