-- ==== Sys2Proof/Decode.lean ====
section
/-! DEFINITION. The decoder (30_encoding.md R120 to R136), total on every word and halfword, and after it the encoder written
from the same tables. `w.extractLsb' lo len` is the spec's w[lo+len-1:lo]; `w.getLsbD k` is w[k] (R10). -/

namespace Sys2Proof

/-! ### Small fields -/

/-- The condition a 4-bit field names (R178); 1111 names none (R138). -/
def Cond.ofBits (b : BitVec 4) : Option Cond :=
  match b.toNat with
  | 0 => some .eq | 1 => some .ne | 2 => some .cs | 3 => some .cc
  | 4 => some .mi | 5 => some .pl | 6 => some .vs | 7 => some .vc
  | 8 => some .hi | 9 => some .ls | 10 => some .ge | 11 => some .lt
  | 12 => some .gt | 13 => some .le | 14 => some .al | _ => none

/-- The condition's number (R178). -/
def Cond.toBits : Cond → BitVec 4
  | .eq => 0#4 | .ne => 1#4 | .cs => 2#4 | .cc => 3#4
  | .mi => 4#4 | .pl => 5#4 | .vs => 6#4 | .vc => 7#4
  | .hi => 8#4 | .ls => 9#4 | .ge => 10#4 | .lt => 11#4
  | .gt => 12#4 | .le => 13#4 | .al => 14#4

/-- w[6:5] (R207). -/
def ShiftType.ofBits (b : BitVec 2) : ShiftType :=
  match b.toNat with
  | 0 => .lsl | 1 => .lsr | 2 => .asr | _ => .ror

def ShiftType.toBits : ShiftType → BitVec 2
  | .lsl => 0#2 | .lsr => 1#2 | .asr => 2#2 | .ror => 3#2

/-! ### The ARM decoder
Each class first takes its fields out of the word (30_encoding.md R122 to R126), then chooses the row by the fields. -/

/-- Operand 2 of a class-00 word with bits `low` = w[11:0] (R231). -/
def operand2OfFields (i : Bool) (low : BitVec 12) : Operand2 :=
  if i then .imm (low.extractLsb' 8 4) (low.extractLsb' 0 8)
  else .reg (low.extractLsb' 7 5) (ShiftType.ofBits (low.extractLsb' 5 2)) (low.extractLsb' 0 4)

/-- The source of an MSR with bits `low` = w[11:0] (R306). -/
def msrSourceOfFields (i : Bool) (low : BitVec 12) : MsrSource :=
  if i then .imm (low.extractLsb' 8 4) (low.extractLsb' 0 8)
  else .reg (low.extractLsb' 5 7) (low.extractLsb' 0 4)

/-- The offset of a class-01 word with bits `low` = w[11:0] (R123); I = 1 selects the register. -/
def offsetOfFields (i : Bool) (low : BitVec 12) : Offset :=
  if i then .reg (low.extractLsb' 7 5) (ShiftType.ofBits (low.extractLsb' 5 2)) (low.extractLsb' 0 4)
  else .imm low

/-- The BX/BLX words (R308, R139): w[7:4] = 0001 BX, 0011 BLX, any other value the extension row. -/
def bxOfFields (c : Cond) (sel : BitVec 4) (rm : RegNum) : Instr :=
  if sel == 1#4 then .armBx c rm
  else if sel == 3#4 then .armBlxReg c rm
  else .armBxExt c sel rm

/-- Class 00, in the order of R127 and R139: BX/BLX (w[27:8] = 0x12FFF), then the extension row (I = 0, w[4] = 1), then the
sixteen operations by op = w[24:21] and S. -/
def dataProcOfFields (c : Cond) (i : Bool) (op : BitVec 4) (s : Bool) (rn rd : BitVec 4) (low : BitVec 12) : Instr :=
  if !i && bxFields op s rn rd (low.extractLsb' 8 4) then bxOfFields c (low.extractLsb' 4 4) (low.extractLsb' 0 4)
  else if !i && low.getLsbD 4 then
    .armExtDp c op s rn rd (low.extractLsb' 7 5) (ShiftType.ofBits (low.extractLsb' 5 2)) (low.extractLsb' 0 4)
  else
    match op.toNat with
    | 0 => .armAnd c s rn rd (operand2OfFields i low)
    | 1 => .armEor c s rn rd (operand2OfFields i low)
    | 2 => .armSub c s rn rd (operand2OfFields i low)
    | 3 => .armRsb c s rn rd (operand2OfFields i low)
    | 4 => .armAdd c s rn rd (operand2OfFields i low)
    | 5 => .armAdc c s rn rd (operand2OfFields i low)
    | 6 => .armSbc c s rn rd (operand2OfFields i low)
    | 7 => .armRsc c s rn rd (operand2OfFields i low)
    | 8 => if s then .armTst c rn rd (operand2OfFields i low) else .armMrs c i rn rd low
    | 9 => if s then .armTeq c rn rd (operand2OfFields i low) else .armMsr c rn rd (msrSourceOfFields i low)
    | 10 => if s then .armCmp c rn rd (operand2OfFields i low) else .armMrs2 c i rn rd low
    | 11 => if s then .armCmn c rn rd (operand2OfFields i low) else .armMsr2 c i rn rd low
    | 12 => .armOrr c s rn rd (operand2OfFields i low)
    | 13 => .armMov c s rn rd (operand2OfFields i low)
    | 14 => .armBic c s rn rd (operand2OfFields i low)
    | _ => .armMvn c s rn rd (operand2OfFields i low)

/-- Class 01 (R127 line 4): a load with Rn = 15 is the literal form whatever I, P, U, W (R272), before the extension row
(I = 1, w[4] = 1). -/
def transferOfFields (c : Cond) (i p u b w l : Bool) (rn rd : RegNum) (low : BitVec 12) : Instr :=
  if l && rn == 15#4 then .armLdrLit c i p u b w rd low
  else if i && low.getLsbD 4 then
    .armExtTransfer c p u b w l rn rd (low.extractLsb' 7 5) (ShiftType.ofBits (low.extractLsb' 5 2)) (low.extractLsb' 0 4)
  else if l then
    if b then .armLdrb c p u w rn rd (offsetOfFields i low) else .armLdr c p u w rn rd (offsetOfFields i low)
  else
    if b then .armStrb c p u w rn rd (offsetOfFields i low) else .armStr c p u w rn rd (offsetOfFields i low)

/-- Class 100 (R127 line 5). -/
def blockOfFields (c : Cond) (p u s w l : Bool) (rn : RegNum) (list : BitVec 16) : Instr :=
  if l then .armLdm c p u s w rn list else .armStm c p u s w rn list

/-- A word whose condition field names a condition, by w[27:26] and then w[25:24] (R121, R127 lines 3 to 8 and 2). R127 tests the
BX pattern and SWI before the classes; the BX pattern lies in class 00 and SWI is w[27:24] = 1111, so testing them inside
their classes gives every word the same row. -/
def decodeArmCond (c : Cond) (w : Word) : Instr :=
  match (w.extractLsb' 26 2).toNat with
  | 0 =>
    dataProcOfFields c (w.getLsbD 25) (w.extractLsb' 21 4) (w.getLsbD 20) (w.extractLsb' 16 4) (w.extractLsb' 12 4)
      (w.extractLsb' 0 12)
  | 1 =>
    transferOfFields c (w.getLsbD 25) (w.getLsbD 24) (w.getLsbD 23) (w.getLsbD 22) (w.getLsbD 21) (w.getLsbD 20)
      (w.extractLsb' 16 4) (w.extractLsb' 12 4) (w.extractLsb' 0 12)
  | 2 =>
    if w.getLsbD 25 then
      if w.getLsbD 24 then .armBl c (w.extractLsb' 0 24) else .armB c (w.extractLsb' 0 24)
    else
      blockOfFields c (w.getLsbD 24) (w.getLsbD 23) (w.getLsbD 22) (w.getLsbD 21) (w.getLsbD 20) (w.extractLsb' 16 4)
        (w.extractLsb' 0 16)
  | _ =>
    if w.getLsbD 25 then
      if w.getLsbD 24 then .armSwi c (w.extractLsb' 0 24) else .armCoproc c (w.extractLsb' 0 24)
    else .armUnknown c (w.extractLsb' 0 25)

/-- The ARM decoder. The condition is read first (R121, R177); 1111 never passes (R138). -/
def decodeArm (w : Word) : Instr :=
  match Cond.ofBits (w.extractLsb' 28 4) with
  | none => .armCondNever (w.extractLsb' 0 28)
  | some c => decodeArmCond c w

/-! ### The Thumb decoder -/

/-- Family 3 by h[9:6] (R129). -/
def decodeThumbAlu (h : Half) : Instr :=
  let rs := h.extractLsb' 3 3
  let rd := h.extractLsb' 0 3
  match (h.extractLsb' 6 4).toNat with
  | 0 => .tAnd rs rd
  | 1 => .tEor rs rd
  | 2 => .tLslReg rs rd
  | 3 => .tLsrReg rs rd
  | 4 => .tAsrReg rs rd
  | 5 => .tAdc rs rd
  | 6 => .tSbc rs rd
  | 7 => .tRorReg rs rd
  | 8 => .tTst rs rd
  | 9 => .tNeg rs rd
  | 10 => .tCmpReg rs rd
  | 11 => .tCmn rs rd
  | 12 => .tOrr rs rd
  | 13 => .tMul rs rd
  | 14 => .tBic rs rd
  | _ => .tMvn rs rd

/-- Families 1a and 1b (R128, R130 lines 1 and 2), h[15:13] = 000. -/
def decodeThumbShiftAdd (h : Half) : Instr :=
  let rs := h.extractLsb' 3 3
  let rd := h.extractLsb' 0 3
  match (h.extractLsb' 11 2).toNat with
  | 0 => .tLslImm (h.extractLsb' 6 5) rs rd
  | 1 => .tLsrImm (h.extractLsb' 6 5) rs rd
  | 2 => .tAsrImm (h.extractLsb' 6 5) rs rd
  | _ =>
    match (h.extractLsb' 9 2).toNat with
    | 0 => .tAddReg (h.extractLsb' 6 3) rs rd
    | 1 => .tSubReg (h.extractLsb' 6 3) rs rd
    | 2 => .tAddImm3 (h.extractLsb' 6 3) rs rd
    | _ => .tSubImm3 (h.extractLsb' 6 3) rs rd

/-- Family 2 by h[12:11]. -/
def decodeThumbImm8 (h : Half) : Instr :=
  let rd := h.extractLsb' 8 3
  let imm8 := h.extractLsb' 0 8
  match (h.extractLsb' 11 2).toNat with
  | 0 => .tMovImm rd imm8
  | 1 => .tCmpImm rd imm8
  | 2 => .tAddImm8 rd imm8
  | _ => .tSubImm8 rd imm8

/-- Family 4 by h[9:8]; Rd' = H1 : Rd and Rs' = H2 : Rs (R136). -/
def decodeThumbHigh (h : Half) : Instr :=
  let rd := h.extractLsb' 7 1 ++ h.extractLsb' 0 3
  let rs := h.extractLsb' 3 4
  match (h.extractLsb' 8 2).toNat with
  | 0 => .tAddHigh rd rs
  | 1 => .tCmpHigh rd rs
  | 2 => .tMovHigh rd rs
  | _ => if h.getLsbD 7 then .tBxExt rs (h.extractLsb' 0 3) else .tBx rs (h.extractLsb' 0 3)

/-- Family 6: h[9] = 1 is the extension row (R375), else the selector h[11:9]. -/
def decodeThumbRegOffset (h : Half) : Instr :=
  let ro := h.extractLsb' 6 3
  let rb := h.extractLsb' 3 3
  let rd := h.extractLsb' 0 3
  if h.getLsbD 9 then .tExtHalf (h.extractLsb' 10 2) ro rb rd
  else
    match (h.extractLsb' 10 2).toNat with
    | 0 => .tStrReg ro rb rd
    | 1 => .tStrbReg ro rb rd
    | 2 => .tLdrReg ro rb rd
    | _ => .tLdrbReg ro rb rd

/-- Family 7 by B = h[12] and L = h[11]. -/
def decodeThumbImmOffset (h : Half) : Instr :=
  let imm5 := h.extractLsb' 6 5
  let rb := h.extractLsb' 3 3
  let rd := h.extractLsb' 0 3
  match (h.extractLsb' 11 2).toNat with
  | 0 => .tStrImm imm5 rb rd
  | 1 => .tLdrImm imm5 rb rd
  | 2 => .tStrbImm imm5 rb rd
  | _ => .tLdrbImm imm5 rb rd

/-- Family 11: 11a when h[11:8] = 0000, 11b when h[10:9] = 10, else unknown (R130 lines 12 to 14). -/
def decodeThumbMisc (h : Half) : Instr :=
  if h.extractLsb' 8 4 == 0#4 then
    if h.getLsbD 7 then .tSpSub (h.extractLsb' 0 7) else .tSpAdd (h.extractLsb' 0 7)
  else if h.extractLsb' 9 2 == 2#2 then
    if h.getLsbD 11 then .tPop (h.getLsbD 8) (h.extractLsb' 0 8) else .tPush (h.getLsbD 8) (h.extractLsb' 0 8)
  else .tUnknown1011 (h.extractLsb' 0 12)

/-- Family 13: SWI at 1111 (R130 line 16), else a conditional branch. -/
def decodeThumbBcond (h : Half) : Instr :=
  match Cond.ofBits (h.extractLsb' 8 4) with
  | none => .tSwi (h.extractLsb' 0 8)
  | some c => .tBcond c (h.extractLsb' 0 8)

/-- Family 15: the second halfword's bit 12 tells BL (1) from BLX (0); its bits 15..13 and 11
are not examined (R404, R405 and the row's mask 0xF8001000). -/
def decodeThumbPair (h h2 : Half) : Instr :=
  if h2.getLsbD 12 then .tBl (h.extractLsb' 0 11) (h2.extractLsb' 13 3) (h2.extractLsb' 11 1) (h2.extractLsb' 0 11)
  else .tBlx (h.extractLsb' 0 11) (h2.extractLsb' 13 3) (h2.extractLsb' 11 1) (h2.extractLsb' 0 11)

/-- A first halfword 11110 starts a BL/BLX pair (R120, R404). -/
def isPairFirst (h : Half) : Bool :=
  h.extractLsb' 11 5 == 30#5

/-- The Thumb decoder, by h[15:12] and then as R130's cascade; `h2` is the halfword after `h` and only a pair looks at it. -/
def decodeThumb (h h2 : Half) : Instr :=
  match (h.extractLsb' 12 4).toNat with
  | 0 | 1 => decodeThumbShiftAdd h
  | 2 | 3 => decodeThumbImm8 h
  | 4 =>
    if h.getLsbD 11 then .tLdrPc (h.extractLsb' 8 3) (h.extractLsb' 0 8)
    else if h.getLsbD 10 then decodeThumbHigh h
    else decodeThumbAlu h
  | 5 => decodeThumbRegOffset h
  | 6 | 7 => decodeThumbImmOffset h
  | 8 =>
    if h.getLsbD 11 then .tLdrhImm (h.extractLsb' 6 5) (h.extractLsb' 3 3) (h.extractLsb' 0 3)
    else .tStrhImm (h.extractLsb' 6 5) (h.extractLsb' 3 3) (h.extractLsb' 0 3)
  | 9 =>
    if h.getLsbD 11 then .tLdrSp (h.extractLsb' 8 3) (h.extractLsb' 0 8)
    else .tStrSp (h.extractLsb' 8 3) (h.extractLsb' 0 8)
  | 10 =>
    if h.getLsbD 11 then .tAddSp (h.extractLsb' 8 3) (h.extractLsb' 0 8)
    else .tAddPc (h.extractLsb' 8 3) (h.extractLsb' 0 8)
  | 11 => decodeThumbMisc h
  | 12 =>
    if h.getLsbD 11 then .tLdmia (h.extractLsb' 8 3) (h.extractLsb' 0 8)
    else .tStmia (h.extractLsb' 8 3) (h.extractLsb' 0 8)
  | 13 => decodeThumbBcond h
  | 14 =>
    if h.getLsbD 11 then .tUnknown11101 (h.extractLsb' 0 11) else .tB (h.extractLsb' 0 11)
  | _ =>
    if h.getLsbD 11 then .tUnknown11111 (h.extractLsb' 0 11) else decodeThumbPair h h2

/-! ### Instruction words and bytes -/

/-- An instruction as the words the fetch reads (R120): an ARM word, a Thumb halfword, or the two halfwords of a BL/BLX pair. -/
inductive Code where
  | arm (w : Word)
  | thumb (h : Half)
  | pair (h h2 : Half)
deriving DecidableEq, Repr

/-- Why bytes are no instruction: there are too few of them. No other rejection exists, since every word and every halfword has
a row (R137: no encoding traps). -/
inductive DecodeError where
  | truncatedArm        -- fewer than four bytes for an ARM word
  | truncatedThumb      -- fewer than two bytes for a Thumb halfword
  | truncatedPair       -- a first halfword 11110 with fewer than two bytes after it
deriving DecidableEq, Repr

/-- The instruction that words stand for. -/
def Code.decode : Code → Instr
  | .arm w => decodeArm w
  | .thumb h => decodeThumb h 0#16
  | .pair h h2 => decodeThumb h h2

/-- Big-endian bytes (R75): the first byte is the most significant. -/
def Code.bytes : Code → List Byte
  | .arm w => [w.extractLsb' 24 8, w.extractLsb' 16 8, w.extractLsb' 8 8, w.extractLsb' 0 8]
  | .thumb h => [h.extractLsb' 8 8, h.extractLsb' 0 8]
  | .pair h h2 => [h.extractLsb' 8 8, h.extractLsb' 0 8, h2.extractLsb' 8 8, h2.extractLsb' 0 8]

/-- The decoder on bytes, for the state T selects; it answers the instruction and the bytes after it. -/
def decodeBytes (thumb : Bool) (bs : List Byte) : Except DecodeError (Instr × List Byte) :=
  if thumb then
    match bs with
    | b0 :: b1 :: rest =>
      if isPairFirst (b0 ++ b1) then
        match rest with
        | b2 :: b3 :: rest' => .ok (decodeThumb (b0 ++ b1) (b2 ++ b3), rest')
        | _ => .error .truncatedPair
      else .ok (decodeThumb (b0 ++ b1) 0#16, rest)
    | _ => .error .truncatedThumb
  else
    match bs with
    | b0 :: b1 :: b2 :: b3 :: rest => .ok (decodeArm (b0 ++ b1 ++ b2 ++ b3), rest)
    | _ => .error .truncatedArm

/-! ### The table's numbering -/

/-- The words an opcode-table word stands for. The table writes a Thumb pair as one 32-bit number, its first halfword in bits
31..16 (the row's "format"), and an ARM word as itself. A 32-bit number whose bits 31..27 are 11110 is read as a pair, every other
as an ARM word (DESIGN CHOICE, notes/assumptions/7.md: the two instruction sets share these numbers). A 16-bit number is a
halfword; where it starts a pair, the halfword after it is 0. -/
def codeOfTableWord (nbits w : Nat) : Code :=
  if nbits ≤ 16 then
    if isPairFirst (BitVec.ofNat 16 w) then .pair (BitVec.ofNat 16 w) 0#16 else .thumb (BitVec.ofNat 16 w)
  else
    let x := BitVec.ofNat 32 w
    if isPairFirst (x.extractLsb' 16 16) then .pair (x.extractLsb' 16 16) (x.extractLsb' 0 16) else .arm x

/-- Whether CPSR.T must be 1 for a fetch to read these words. -/
def Code.isThumb : Code → Bool
  | .arm _ => false
  | .thumb _ => true
  | .pair _ _ => true

/-- The instruction the decoder reads from an opcode-table word, laid out as big-endian bytes; the table's rows have 16 or 32
bits. -/
def decodeTableWord (nbits w : Nat) : Option Instr :=
  if nbits = 16 ∨ nbits = 32 then
    let code := codeOfTableWord nbits w
    match decodeBytes code.isThumb code.bytes with
    | .ok (i, _) => some i
    | .error _ => none
  else none

/-! ### The encoder -/

def Operand2.isImm : Operand2 → Bool
  | .imm _ _ => true
  | .reg _ _ _ => false

/-- w[11:0] of a class-00 word; a register operand has w[4] = 0. -/
def Operand2.bits : Operand2 → BitVec 12
  | .imm rot imm8 => rot ++ imm8
  | .reg amount ty rm => amount ++ ty.toBits ++ 0#1 ++ rm

def MsrSource.isImm : MsrSource → Bool
  | .imm _ _ => true
  | .reg _ _ => false

def MsrSource.bits : MsrSource → BitVec 12
  | .imm rot imm8 => rot ++ imm8
  | .reg ignored rm => ignored ++ 0#1 ++ rm

def Offset.isReg : Offset → Bool
  | .imm _ => false
  | .reg _ _ _ => true

def Offset.bits : Offset → BitVec 12
  | .imm imm12 => imm12
  | .reg amount ty rm => amount ++ ty.toBits ++ 0#1 ++ rm

/-- Class 00: cond 00 I op S Rn Rd op2 (R122). -/
def encodeDataProc (c : Cond) (i : Bool) (op : BitVec 4) (s : Bool) (rn rd : BitVec 4) (op2 : BitVec 12) : Word :=
  c.toBits ++ 0#2 ++ BitVec.ofBool i ++ op ++ BitVec.ofBool s ++ rn ++ rd ++ op2

/-- Class 01: cond 01 I P U B W L Rn Rd offset (R123). -/
def encodeTransfer (c : Cond) (i p u b w l : Bool) (rn rd : RegNum) (off : BitVec 12) : Word :=
  c.toBits ++ 1#2 ++ BitVec.ofBool i ++ BitVec.ofBool p ++ BitVec.ofBool u ++ BitVec.ofBool b ++ BitVec.ofBool w ++
    BitVec.ofBool l ++ rn ++ rd ++ off

/-- Class 100: cond 100 P U S W L Rn list (R124). -/
def encodeBlock (c : Cond) (p u s w l : Bool) (rn : RegNum) (list : BitVec 16) : Word :=
  c.toBits ++ 2#2 ++ 0#1 ++ BitVec.ofBool p ++ BitVec.ofBool u ++ BitVec.ofBool s ++ BitVec.ofBool w ++ BitVec.ofBool l ++ rn ++ list

/-- Branches, SWI and coprocessor: cond, w[27:26], w[25], w[24], then 24 bits (R125, R126). -/
def encodeClass1x (c : Cond) (cls : BitVec 2) (b25 b24 : Bool) (low : BitVec 24) : Word :=
  c.toBits ++ cls ++ BitVec.ofBool b25 ++ BitVec.ofBool b24 ++ low

/-- BX/BLX: cond, w[27:8] = 0x12FFF, w[7:4], Rm (R126). -/
def encodeBx (c : Cond) (sel : BitVec 4) (rm : RegNum) : Word :=
  encodeDataProc c false 9#4 false 15#4 15#4 (15#4 ++ sel ++ rm)

/-- Family 3: 010000 op Rs Rd. -/
def encodeThumbAlu (op : BitVec 4) (rs rd : LowReg) : Half :=
  16#6 ++ op ++ rs ++ rd

/-- Family 4: 010001 op H1 H2 Rs Rd. -/
def encodeThumbHigh (op : BitVec 2) (h1 : BitVec 1) (rs : RegNum) (low : BitVec 3) : Half :=
  17#6 ++ op ++ h1 ++ rs ++ low

/-- The words of an instruction, row by row. -/
def encode : Instr → Code
  | .armCondNever low => .arm (15#4 ++ low)
  | .armBx c rm => .arm (encodeBx c 1#4 rm)
  | .armBlxReg c rm => .arm (encodeBx c 3#4 rm)
  | .armBxExt c sel rm => .arm (encodeBx c sel rm)
  | .armSwi c comment => .arm (encodeClass1x c 3#2 true true comment)
  | .armExtDp c op s rn rd amount ty rm => .arm (encodeDataProc c false op s rn rd (amount ++ ty.toBits ++ 1#1 ++ rm))
  | .armMrs c i rnIgnored rd low => .arm (encodeDataProc c i 8#4 false rnIgnored rd low)
  | .armMsr c mask rdIgnored src => .arm (encodeDataProc c src.isImm 9#4 false mask rdIgnored src.bits)
  | .armMrs2 c i rnIgnored rdIgnored low => .arm (encodeDataProc c i 10#4 false rnIgnored rdIgnored low)
  | .armMsr2 c i rnIgnored rdIgnored low => .arm (encodeDataProc c i 11#4 false rnIgnored rdIgnored low)
  | .armAnd c s rn rd o => .arm (encodeDataProc c o.isImm 0#4 s rn rd o.bits)
  | .armEor c s rn rd o => .arm (encodeDataProc c o.isImm 1#4 s rn rd o.bits)
  | .armSub c s rn rd o => .arm (encodeDataProc c o.isImm 2#4 s rn rd o.bits)
  | .armRsb c s rn rd o => .arm (encodeDataProc c o.isImm 3#4 s rn rd o.bits)
  | .armAdd c s rn rd o => .arm (encodeDataProc c o.isImm 4#4 s rn rd o.bits)
  | .armAdc c s rn rd o => .arm (encodeDataProc c o.isImm 5#4 s rn rd o.bits)
  | .armSbc c s rn rd o => .arm (encodeDataProc c o.isImm 6#4 s rn rd o.bits)
  | .armRsc c s rn rd o => .arm (encodeDataProc c o.isImm 7#4 s rn rd o.bits)
  | .armTst c rn rdIgnored o => .arm (encodeDataProc c o.isImm 8#4 true rn rdIgnored o.bits)
  | .armTeq c rn rdIgnored o => .arm (encodeDataProc c o.isImm 9#4 true rn rdIgnored o.bits)
  | .armCmp c rn rdIgnored o => .arm (encodeDataProc c o.isImm 10#4 true rn rdIgnored o.bits)
  | .armCmn c rn rdIgnored o => .arm (encodeDataProc c o.isImm 11#4 true rn rdIgnored o.bits)
  | .armOrr c s rn rd o => .arm (encodeDataProc c o.isImm 12#4 s rn rd o.bits)
  | .armMov c s rnIgnored rd o => .arm (encodeDataProc c o.isImm 13#4 s rnIgnored rd o.bits)
  | .armBic c s rn rd o => .arm (encodeDataProc c o.isImm 14#4 s rn rd o.bits)
  | .armMvn c s rnIgnored rd o => .arm (encodeDataProc c o.isImm 15#4 s rnIgnored rd o.bits)
  | .armLdrLit c i p u b w rd imm12 => .arm (encodeTransfer c i p u b w true 15#4 rd imm12)
  | .armExtTransfer c p u b w l rn rd amount ty rm =>
    .arm (encodeTransfer c true p u b w l rn rd (amount ++ ty.toBits ++ 1#1 ++ rm))
  | .armStr c p u w rn rd off => .arm (encodeTransfer c off.isReg p u false w false rn rd off.bits)
  | .armLdr c p u w rn rd off => .arm (encodeTransfer c off.isReg p u false w true rn rd off.bits)
  | .armStrb c p u w rn rd off => .arm (encodeTransfer c off.isReg p u true w false rn rd off.bits)
  | .armLdrb c p u w rn rd off => .arm (encodeTransfer c off.isReg p u true w true rn rd off.bits)
  | .armStm c p u sIgnored w rn list => .arm (encodeBlock c p u sIgnored w false rn list)
  | .armLdm c p u sIgnored w rn list => .arm (encodeBlock c p u sIgnored w true rn list)
  | .armB c imm24 => .arm (encodeClass1x c 2#2 true false imm24)
  | .armBl c imm24 => .arm (encodeClass1x c 2#2 true true imm24)
  | .armCoproc c low => .arm (encodeClass1x c 3#2 true false low)
  | .armUnknown c low => .arm (c.toBits ++ 3#2 ++ 0#1 ++ low)
  | .tAddReg rn rs rd => .thumb (12#7 ++ rn ++ rs ++ rd)
  | .tSubReg rn rs rd => .thumb (13#7 ++ rn ++ rs ++ rd)
  | .tAddImm3 imm3 rs rd => .thumb (14#7 ++ imm3 ++ rs ++ rd)
  | .tSubImm3 imm3 rs rd => .thumb (15#7 ++ imm3 ++ rs ++ rd)
  | .tLslImm imm5 rs rd => .thumb (0#5 ++ imm5 ++ rs ++ rd)
  | .tLsrImm imm5 rs rd => .thumb (1#5 ++ imm5 ++ rs ++ rd)
  | .tAsrImm imm5 rs rd => .thumb (2#5 ++ imm5 ++ rs ++ rd)
  | .tMovImm rd imm8 => .thumb (4#5 ++ rd ++ imm8)
  | .tCmpImm rd imm8 => .thumb (5#5 ++ rd ++ imm8)
  | .tAddImm8 rd imm8 => .thumb (6#5 ++ rd ++ imm8)
  | .tSubImm8 rd imm8 => .thumb (7#5 ++ rd ++ imm8)
  | .tAnd rs rd => .thumb (encodeThumbAlu 0#4 rs rd)
  | .tEor rs rd => .thumb (encodeThumbAlu 1#4 rs rd)
  | .tLslReg rs rd => .thumb (encodeThumbAlu 2#4 rs rd)
  | .tLsrReg rs rd => .thumb (encodeThumbAlu 3#4 rs rd)
  | .tAsrReg rs rd => .thumb (encodeThumbAlu 4#4 rs rd)
  | .tAdc rs rd => .thumb (encodeThumbAlu 5#4 rs rd)
  | .tSbc rs rd => .thumb (encodeThumbAlu 6#4 rs rd)
  | .tRorReg rs rd => .thumb (encodeThumbAlu 7#4 rs rd)
  | .tTst rs rd => .thumb (encodeThumbAlu 8#4 rs rd)
  | .tNeg rs rd => .thumb (encodeThumbAlu 9#4 rs rd)
  | .tCmpReg rs rd => .thumb (encodeThumbAlu 10#4 rs rd)
  | .tCmn rs rd => .thumb (encodeThumbAlu 11#4 rs rd)
  | .tOrr rs rd => .thumb (encodeThumbAlu 12#4 rs rd)
  | .tMul rs rd => .thumb (encodeThumbAlu 13#4 rs rd)
  | .tBic rs rd => .thumb (encodeThumbAlu 14#4 rs rd)
  | .tMvn rs rd => .thumb (encodeThumbAlu 15#4 rs rd)
  | .tAddHigh rd rs => .thumb (encodeThumbHigh 0#2 (rd.extractLsb' 3 1) rs (rd.extractLsb' 0 3))
  | .tCmpHigh rd rs => .thumb (encodeThumbHigh 1#2 (rd.extractLsb' 3 1) rs (rd.extractLsb' 0 3))
  | .tMovHigh rd rs => .thumb (encodeThumbHigh 2#2 (rd.extractLsb' 3 1) rs (rd.extractLsb' 0 3))
  | .tBx rm low => .thumb (encodeThumbHigh 3#2 0#1 rm low)
  | .tBxExt rm low => .thumb (encodeThumbHigh 3#2 1#1 rm low)
  | .tLdrPc rd imm8 => .thumb (9#5 ++ rd ++ imm8)
  | .tStrReg ro rb rd => .thumb (40#7 ++ ro ++ rb ++ rd)
  | .tStrbReg ro rb rd => .thumb (42#7 ++ ro ++ rb ++ rd)
  | .tLdrReg ro rb rd => .thumb (44#7 ++ ro ++ rb ++ rd)
  | .tLdrbReg ro rb rd => .thumb (46#7 ++ ro ++ rb ++ rd)
  | .tExtHalf sel ro rb rd => .thumb (5#4 ++ sel ++ 1#1 ++ ro ++ rb ++ rd)
  | .tStrImm imm5 rb rd => .thumb (12#5 ++ imm5 ++ rb ++ rd)
  | .tLdrImm imm5 rb rd => .thumb (13#5 ++ imm5 ++ rb ++ rd)
  | .tStrbImm imm5 rb rd => .thumb (14#5 ++ imm5 ++ rb ++ rd)
  | .tLdrbImm imm5 rb rd => .thumb (15#5 ++ imm5 ++ rb ++ rd)
  | .tStrhImm imm5 rb rd => .thumb (16#5 ++ imm5 ++ rb ++ rd)
  | .tLdrhImm imm5 rb rd => .thumb (17#5 ++ imm5 ++ rb ++ rd)
  | .tStrSp rd imm8 => .thumb (18#5 ++ rd ++ imm8)
  | .tLdrSp rd imm8 => .thumb (19#5 ++ rd ++ imm8)
  | .tAddPc rd imm8 => .thumb (20#5 ++ rd ++ imm8)
  | .tAddSp rd imm8 => .thumb (21#5 ++ rd ++ imm8)
  | .tSpAdd imm7 => .thumb (0xB0#8 ++ 0#1 ++ imm7)
  | .tSpSub imm7 => .thumb (0xB0#8 ++ 1#1 ++ imm7)
  | .tPush r rlist => .thumb (0x5A#7 ++ BitVec.ofBool r ++ rlist)
  | .tPop r rlist => .thumb (0x5E#7 ++ BitVec.ofBool r ++ rlist)
  | .tUnknown1011 low => .thumb (11#4 ++ low)
  | .tStmia rb rlist => .thumb (24#5 ++ rb ++ rlist)
  | .tLdmia rb rlist => .thumb (25#5 ++ rb ++ rlist)
  | .tSwi imm8 => .thumb (0xDF#8 ++ imm8)
  | .tBcond c imm8 => .thumb (13#4 ++ c.toBits ++ imm8)
  | .tB imm11 => .thumb (28#5 ++ imm11)
  | .tBl hi11 top b11 lo11 => .pair (30#5 ++ hi11) (top ++ 1#1 ++ b11 ++ lo11)
  | .tBlx hi11 top b11 lo11 => .pair (30#5 ++ hi11) (top ++ 0#1 ++ b11 ++ lo11)
  | .tUnknown11101 low => .thumb (29#5 ++ low)
  | .tUnknown11111 low => .thumb (31#5 ++ low)

end Sys2Proof
end

