-- ==== Sys2Proof/Config.lean ====
section
/-! DEFINITION. The named parameters of 00_scope.md R9 that change what an instruction does, with their defaults.
MAX_STEPS, IMAGE and BREAKPOINTS, the other three, are arguments of the host's operations (Machine/HostOps.lean, Machine/Run.lean). -/

namespace Sys2Proof

/-- MISALIGNED_POLICY (R89, decision D2). -/
inductive MisalignedPolicy where
  | fault     -- the access does not happen, the step ends in Fault(Misaligned) (the default)
  | bytewise  -- the access proceeds on the bytes a..a+n-1
deriving DecidableEq, Repr

/-- CARRY_CHAIN_FLAGS (R208, decision D11). -/
inductive CarryChainFlags where
  | combined  -- the flags of Subtract(a, b + nc) (the default)
  | armArm    -- carry and overflow of the unbounded a - b - nc
deriving DecidableEq, Repr

/-- SDT_IMM_FORM (R133, decision D17). -/
inductive SdtImmForm where
  | rotated   -- ROR(imm8, 2 * rot) (the default)
  | imm12     -- the plain 12-bit number
deriving DecidableEq, Repr

/-- ARCH_EXTENSION_POLICY (R139, decision D25). -/
inductive ExtensionPolicy where
  | document  -- the encodings of R139 execute as the source's decode reads them (the default)
  | refuse    -- they are Refuse(Unmodelled)
deriving DecidableEq, Repr

/-- The configuration: fixed for a machine, held in State so that one step function serves every setting
(DESIGN CHOICE, notes/assumptions/1.md). -/
structure Config where
  misaligned : MisalignedPolicy
  carryChain : CarryChainFlags
  sdtImm     : SdtImmForm
  extension  : ExtensionPolicy
deriving DecidableEq, Repr

/-- The defaults of R9. -/
def Config.default : Config :=
  { misaligned := .fault, carryChain := .combined, sdtImm := .rotated, extension := .document }

end Sys2Proof
end

