-- ==== Sys2Proof/Machine/State.lean ====
section
/-! DEFINITION. The state of the block (10_state.md), as plain data, and its value after reset. Reading and writing go through
the accessors of Machine/Ops.lean and Machine/Memory.lean. -/

namespace Sys2Proof.Machine

/-- A Virtual Space (20_memory.md R70): `size` bytes from `vaddr` on. `cells` lists the bytes that differ from the creation value
0xFF (R72), by address (not offset), addresses strictly rising, so that equal contents are equal lists. An address is a natural
number because a space may reach past 0xFFFFFFFF (R71 compares on unbounded integers). -/
structure Space where
  vaddr : Word
  size  : Nat
  cells : List Host.Cell
deriving DecidableEq, Repr

/-- The registry of Virtual Spaces, ordered by `vaddr` (R70). -/
structure Memory where
  spaces : List Space
deriving DecidableEq, Repr

/-- Why an access does not happen: the access address and its width in bytes (R89, R90). -/
inductive AccessFault where
  | misaligned (addr : Word) (width : Nat)
  | straddle (addr : Word) (width : Nat)
deriving DecidableEq, Repr

/-- The instruction bits a fault or refusal records (R433): the fetched word or halfword. -/
inductive InstrBits where
  | word (w : Word)
  | half (h : Half)
deriving DecidableEq, Repr

/-- Where a step stopped: the instruction address and the instruction bits, none for a faulting ARM fetch (R433). -/
structure Site where
  ia   : Word
  bits : Option InstrBits
deriving DecidableEq, Repr

/-- What a stopped block has recorded; it is sticky (R433, R434). -/
inductive Stop where
  | fault (k : AccessFault) (site : Site)
  | refusal (site : Site)
deriving DecidableEq, Repr

/-- The complete state of the block (10_state.md R30 to R46, R433). `stop` is the sticky record of R433 and R434, and `config` the
parameters of R9 (DESIGN CHOICE, notes/assumptions/1.md). -/
structure State where
  regs        : Vector Word 16
  cpsr        : Word
  spsr        : Word
  mem         : Memory
  breakpoints : List Word
  stop        : Option Stop
  config      : Config
deriving DecidableEq, Repr

/-- Why a step did not continue (R438). Each constructor carries the state the stop leaves, so that nothing that had happened
before the stop is lost (R433) and the host's dumps can be stated. -/
inductive Fault where
  /-- Halt(Breakpoint(ia)), raised by `step` alone when ia is in the breakpoint set (R174). It is no failure: nothing is recorded
  and the host may go on from `left` after it removes the breakpoint. Safe: the spec's own outcome. -/
  | breakpoint (ia : Word) (left : State)
  /-- Fault(Misaligned(addr, width)), raised by every 2- and 4-byte access and by the ARM fetch under MISALIGNED_POLICY = fault
  (R89, R91). Safe: the source calls the behaviour undefined. -/
  | misaligned (addr : Word) (width : Nat) (site : Site) (left : State)
  /-- Fault(Straddle(addr, width)), raised by every 2- and 4-byte access, fetches included, whose first byte lies in a space and
  whose last does not (R90). Safe: the source's precondition is broken. -/
  | straddle (addr : Word) (width : Nat) (site : Site) (left : State)
deriving DecidableEq, Repr

/-- Why an instruction has no meaning. -/
inductive Refusal where
  /-- An arm of `exec` without a meaning. No arm answers it in this model. Safe. -/
  | notModelled (mnemonic : String)
  /-- Refuse(Unmodelled(ia, bits)), raised by the extension encodings of R139 under ARCH_EXTENSION_POLICY = refuse alone (R434);
  never under the default. Safe: the spec's own outcome. -/
  | unmodelled (site : Site) (left : State)
deriving DecidableEq, Repr

/-- The state after creation, which is the state after reset (10_state.md R47, 70_reset_and_hazards.md R462): registers, CPSR and
SPSR zero, no space, no breakpoint, nothing recorded; the parameters at their defaults (R9). -/
def State.reset : State :=
  { regs := Vector.replicate 16 0#32
    cpsr := 0#32
    spsr := 0#32
    mem := { spaces := [] }
    breakpoints := []
    stop := none
    config := Config.default }

end Sys2Proof.Machine
end

