-- ==== Sys2Proof/Machine/Flags.lean ====
section
/-! DEFINITION. Every flag computation of 41_shifter_flags.md (R200 to R205, R208) as pure functions, the CPSR's fields
(10_state.md R34) and the condition table (40_execution_cycle.md R178). -/

namespace Sys2Proof.Machine

/-- The four flags a helper returns. -/
structure Nzcv where
  n : Bool
  z : Bool
  c : Bool
  v : Bool
deriving DecidableEq, Repr

/-- N of a result: bit 31 (R205). -/
def nOf (r : Word) : Bool := r.getLsbD 31

/-- Z of a result (R205). -/
def zOf (r : Word) : Bool := r == 0#32

/-- R200. -/
def carryFrom (a b : Word) : Bool := decide ((a + b).toNat < a.toNat)

/-- R201. -/
def borrowFrom (a b : Word) : Bool := decide (a.toNat < b.toNat)

/-- R202. -/
def overflowFrom (a b : Word) : Bool := a.getLsbD 31 == b.getLsbD 31 && (a + b).getLsbD 31 != a.getLsbD 31

/-- The flags of Addition(a, b) (R203); its result is a + b. -/
def additionFlags (a b : Word) : Nzcv :=
  { n := nOf (a + b), z := zOf (a + b), c := carryFrom a b, v := overflowFrom a b }

/-- The flags of Subtract(a, b) (R204), its V corner at b = 0x80000000 included; its result is a - b. -/
def subtractFlags (a b : Word) : Nzcv :=
  { n := nOf (a - b), z := zOf (a - b), c := !borrowFrom a b, v := overflowFrom a (0#32 - b) }

/-- A flag as a number. -/
def bitWord (b : Bool) : Word := if b then 1#32 else 0#32

/-- The result of AddCarry(a, b, c) (R208); it defines N and Z only. -/
def addCarry (a b : Word) (c : Bool) : Word := a + b + bitWord c

/-- The result of SubCarry(a, b, c) (R208): a - b - nc with nc = 1 - c. -/
def subCarry (a b : Word) (c : Bool) : Word := a - b - bitWord (!c)

/-- The flags of SubCarry(a, b, c) under either setting of CARRY_CHAIN_FLAGS (R208). -/
def subCarryFlags (p : CarryChainFlags) (a b : Word) (c : Bool) : Nzcv :=
  match p with
  | .combined => subtractFlags a (b + bitWord (!c))
  | .armArm =>
    let exact : Int := a.toInt - b.toInt - (if c then 0 else 1)
    { n := nOf (subCarry a b c)
      z := zOf (subCarry a b c)
      c := decide (b.toNat + (if c then 0 else 1) ≤ a.toNat)
      v := decide (exact < -2147483648 ∨ 2147483647 < exact) }

/-! ### The CPSR's fields (R34) -/

/-- `w` with bit `k` set to `b`. -/
def putBit (w : Word) (k : Nat) (b : Bool) : Word :=
  if b then w ||| BitVec.twoPow 32 k else w &&& ~~~(BitVec.twoPow 32 k)

def State.n (s : State) : Bool := s.cpsr.getLsbD 31
def State.z (s : State) : Bool := s.cpsr.getLsbD 30
def State.c (s : State) : Bool := s.cpsr.getLsbD 29
def State.v (s : State) : Bool := s.cpsr.getLsbD 28
/-- CPSR.I, tracked but not acted upon (R39). -/
def State.i (s : State) : Bool := s.cpsr.getLsbD 7
/-- CPSR.F, tracked but not acted upon (R39). -/
def State.f (s : State) : Bool := s.cpsr.getLsbD 6
/-- CPSR.T: false ARM, true Thumb (R40). -/
def State.t (s : State) : Bool := s.cpsr.getLsbD 5
/-- CPSR.M, tracked only (R42). -/
def State.m (s : State) : BitVec 5 := s.cpsr.extractLsb' 0 5

def State.setC (s : State) (b : Bool) : State := { s with cpsr := putBit s.cpsr 29 b }

def State.setT (s : State) (b : Bool) : State := { s with cpsr := putBit s.cpsr 5 b }

/-- N and Z from a result (R205); every other bit of the CPSR stays. -/
def State.setNZ (s : State) (r : Word) : State :=
  { s with cpsr := putBit (putBit s.cpsr 31 (nOf r)) 30 (zOf r) }

/-- N, Z, C and V from a helper's flags; every other bit of the CPSR stays. -/
def State.setNZCV (s : State) (f : Nzcv) : State :=
  { s with cpsr := putBit (putBit (putBit (putBit s.cpsr 31 f.n) 30 f.z) 29 f.c) 28 f.v }

end Sys2Proof.Machine
end

