-- ==== Sys2Proof/Machine/Memory.lean ====
section
/-! DEFINITION. The memory registry and its reads and writes (20_memory.md R70 to R73, R80 to R90). A byte of a space that is not
listed reads as the creation value 0xFF (R72, R47); an address no space contains reads as all ones (R83). -/

namespace Sys2Proof.Machine

/-- The value of every byte of a fresh space (R72). -/
def blankByte : Byte := 0xFF#8

/-! ### The bytes of one space -/

/-- The byte listed at an address, the creation value where none is listed. -/
def cellGet : List Host.Cell → Nat → Byte
  | [], _ => blankByte
  | (b, x) :: rest, a => if a = b then x else cellGet rest a

/-- The list with the byte at an address replaced: rising order is kept, and the creation value is never listed. -/
def cellSet : List Host.Cell → Nat → Byte → List Host.Cell
  | [], a, v => if v = blankByte then [] else [(a, v)]
  | (b, x) :: rest, a, v =>
    if a < b then (if v = blankByte then (b, x) :: rest else (a, v) :: (b, x) :: rest)
    else if a = b then (if v = blankByte then rest else (a, v) :: rest)
    else (b, x) :: cellSet rest a v

/-- Addresses strictly rising, all at or above `lo` and below `hi`, no byte equal to the creation value. -/
def cellsWf : List Host.Cell → Nat → Nat → Bool
  | [], _, _ => true
  | (a, v) :: rest, lo, hi => decide (lo ≤ a) && decide (a < hi) && (v != blankByte) && cellsWf rest (a + 1) hi

/-- The first address after the space, on unbounded integers (R71). -/
def Space.top (sp : Space) : Nat := sp.vaddr.toNat + sp.size

/-- vaddr <= a < vaddr + size on unbounded integers (R71). -/
def Space.contains (sp : Space) (a : Nat) : Bool := decide (sp.vaddr.toNat ≤ a) && decide (a < sp.top)

def Space.byte (sp : Space) (a : Nat) : Byte := cellGet sp.cells a

def Space.setByte (sp : Space) (a : Nat) (v : Byte) : Space := { sp with cells := cellSet sp.cells a v }

/-- Consecutive bytes from `a` on, the first at the lowest address. -/
def Space.setBytes (sp : Space) (a : Nat) : List Byte → Space
  | [] => sp
  | v :: rest => (sp.setByte a v).setBytes (a + 1) rest

def Space.wf (sp : Space) : Bool := cellsWf sp.cells sp.vaddr.toNat sp.top

/-! ### The registry -/

/-- The spaces stand in rising order of vaddr; a base may stand twice only behind spaces of size 0, which Lookup never returns. -/
def spacesWf : List Space → Bool
  | [] => true
  | sp :: rest =>
    sp.wf && rest.all (fun q => decide (sp.vaddr.toNat < q.vaddr.toNat) || (sp.vaddr == q.vaddr && sp.size == 0)) && spacesWf rest

/-- The canonical form of memory. -/
def Memory.wf (m : Memory) : Bool := spacesWf m.spaces

/-- Lookup(a) (R71): the first space that contains the address, which is the one with the lowest vaddr. -/
def Memory.lookup (m : Memory) (a : Word) : Option Space := m.spaces.find? (fun sp => sp.contains a.toNat)

/-- The first space that passes `p` changed by `g`, the others as they are. -/
def updateFirst (p : Space → Bool) (g : Space → Space) : List Space → List Space
  | [] => []
  | sp :: rest => if p sp then g sp :: rest else sp :: updateFirst p g rest

/-- Bytes written from `a` on in the space Lookup(a) returns; nothing where Lookup misses (R88). -/
def Memory.store (m : Memory) (a : Word) (bs : List Byte) : Memory :=
  { spaces := updateFirst (fun sp => sp.contains a.toNat) (fun sp => sp.setBytes a.toNat bs) m.spaces }

/-- The checks before an `n`-byte access (R89, R90, in that order by R439): the space it goes to, none where Lookup misses. The
error is the fault's kind; an instruction records it in the block (R433, `stopFault`), and an access the host makes between steps
(R446) records nothing (DESIGN CHOICE, notes/assumptions/19.md). -/
def Memory.access (p : MisalignedPolicy) (m : Memory) (a : Word) (n : Nat) : Except AccessFault (Option Space) :=
  if p = .fault ∧ a.toNat % n ≠ 0 then .error (.misaligned a n)
  else
    match m.lookup a with
    | none => .ok none
    | some sp => if sp.top < a.toNat + n then .error (.straddle a n) else .ok (some sp)

/-! ### MemRead (R80 to R84) -/

def Memory.read8 (m : Memory) (a : Word) : Byte :=
  match m.lookup a with
  | none => 0xFF#8
  | some sp => sp.byte a.toNat

/-- MemRead(a, 2); the host's answer where the access fails: notes/assumptions/19.md. -/
def Memory.read16 (p : MisalignedPolicy) (m : Memory) (a : Word) : Except AccessFault Half :=
  match m.access p a 2 with
  | .error k => .error k
  | .ok none => .ok 0xFFFF#16
  | .ok (some sp) => .ok (sp.byte a.toNat ++ sp.byte (a.toNat + 1))

/-- MemRead(a, 4); the host's answer where the access fails: notes/assumptions/19.md. -/
def Memory.read32 (p : MisalignedPolicy) (m : Memory) (a : Word) : Except AccessFault Word :=
  match m.access p a 4 with
  | .error k => .error k
  | .ok none => .ok 0xFFFFFFFF#32
  | .ok (some sp) =>
    .ok (sp.byte a.toNat ++ sp.byte (a.toNat + 1) ++ sp.byte (a.toNat + 2) ++ sp.byte (a.toNat + 3))

/-! ### MemWrite (R85 to R88) -/

def Memory.write8 (m : Memory) (a : Word) (v : Byte) : Memory := m.store a [v]

/-- MemWrite(a, 2, v); the host's answer where the access fails: notes/assumptions/19.md. -/
def Memory.write16 (p : MisalignedPolicy) (m : Memory) (a : Word) (v : Half) : Except AccessFault Memory :=
  match m.access p a 2 with
  | .error k => .error k
  | .ok _ => .ok (m.store a [v.extractLsb' 8 8, v.extractLsb' 0 8])

/-- MemWrite(a, 4, v); the host's answer where the access fails: notes/assumptions/19.md. -/
def Memory.write32 (p : MisalignedPolicy) (m : Memory) (a : Word) (v : Word) : Except AccessFault Memory :=
  match m.access p a 4 with
  | .error k => .error k
  | .ok _ => .ok (m.store a [v.extractLsb' 24 8, v.extractLsb' 16 8, v.extractLsb' 8 8, v.extractLsb' 0 8])

/-! ### Create and Destroy (R72, R73) -/

/-- A space put in its place by vaddr, after those with the same base. -/
def insertSpace (sp : Space) : List Space → List Space
  | [] => [sp]
  | q :: rest => if sp.vaddr.toNat < q.vaddr.toNat then sp :: q :: rest else q :: insertSpace sp rest

/-- Create(vaddr, size) (R72): nothing where a space covers vaddr already, else a new space, every byte 0xFF. It never fails. -/
def Memory.create (m : Memory) (vaddr : Word) (size : Nat) : Memory :=
  match m.lookup vaddr with
  | some _ => m
  | none => { spaces := insertSpace { vaddr := vaddr, size := size, cells := [] } m.spaces }

/-- Destroy() (R73). -/
def Memory.destroyAll (_ : Memory) : Memory := { spaces := [] }

/-- Destroy(vaddr) (R73): no space with that base is left. -/
def Memory.destroy (m : Memory) (vaddr : Word) : Memory :=
  { spaces := m.spaces.filter (fun sp => sp.vaddr != vaddr) }

end Sys2Proof.Machine
end

