-- ==== Sys2Proof/Machine/Ops.lean ====
section
/-! DEFINITION. The named operations every meaning is built from: registers, the condition check, and how a step stops.
The block raises no architectural exception (60_exceptions.md R430, R432): there is no entry, no vector and no return to model.
What stands in that place is the model fault (R433) and the refusal (R434), one shared operation each: `stopFault` and
`refuseExtension`. -/

namespace Sys2Proof.Machine

/-- What a step or a meaning answers. -/
abbrev Result := Host.Outcome State Fault Refusal

/-! ### Registers (R30, R31) -/

/-- x[r]. -/
def State.reg (s : State) (r : RegNum) : Word := s.regs[r.toNat]'r.isLt

/-- x[r] <- v. -/
def State.setReg (s : State) (r : RegNum) (v : Word) : State := { s with regs := s.regs.set r.toNat v r.isLt }

/-- x[15]: between steps the next fetch address, during execution the address after the instruction (R33, R179). -/
def State.pc (s : State) : Word := s.reg 15#4

def State.setPc (s : State) (v : Word) : State := s.setReg 15#4 v

/-- A Thumb 3-bit register field as a register number (R136). -/
def low (r : LowReg) : RegNum := r.setWidth 4

/-! ### The condition check (R177, R178) -/

/-- The condition table (R178). -/
def condHolds (c : Cond) (s : State) : Bool :=
  match c with
  | .eq => s.z
  | .ne => !s.z
  | .cs => s.c
  | .cc => !s.c
  | .mi => s.n
  | .pl => !s.n
  | .vs => s.v
  | .vc => !s.v
  | .hi => s.c && !s.z
  | .ls => !s.c || s.z
  | .ge => s.n == s.v
  | .lt => s.n != s.v
  | .gt => !s.z && s.n == s.v
  | .le => s.z || s.n != s.v
  | .al => true

/-- An ARM instruction whose condition fails has no effect beyond the PC advance already made (R177). -/
def whenPasses (c : Cond) (s : State) (k : State → Result) : Result :=
  if condHolds c s then k s else .next s

/-! ### How a step stops (R433, R434) -/

/-- The first word or halfword of an instruction: what the fetch of R172 read. -/
def Code.fetched : Code → InstrBits
  | .arm w => .word w
  | .thumb h => .half h
  | .pair h _ => .half h

/-- The fetch address and bits of the instruction being executed. x[15] is one width past the fetch address when a meaning
starts (R172), and the encoder gives back the word that was decoded. -/
def siteOf (i : Instr) (s : State) : Site :=
  { ia := s.pc - (if i.isThumb then 2#32 else 4#32), bits := some (Code.fetched (encode i)) }

/-- Raise Fault(k) (R433): the record is made in the state the earlier effects left, and nothing else happens. -/
def stopFault (k : AccessFault) (site : Site) (s : State) : Fault :=
  let left := { s with stop := some (.fault k site) }
  match k with
  | .misaligned a n => .misaligned a n site left
  | .straddle a n => .straddle a n site left

/-- Refuse(Unmodelled(ia, bits)) under ARCH_EXTENSION_POLICY = refuse, else the document's reading (R139, R434). -/
def refuseExtension (site : Site) (s : State) (k : State → Result) : Result :=
  match s.config.extension with
  | .document => k s
  | .refuse => .refused (.unmodelled site { s with stop := some (.refusal site) })

/-- The same for a row only some of whose words, those where `ext` holds, lie in an extension space (R139). -/
def refuseWhen (ext : Bool) (site : Site) (s : State) (k : State → Result) : Result :=
  if ext then refuseExtension site s k else k s

/-- The state a stop leaves. -/
def Fault.left : Fault → State
  | .breakpoint _ left => left
  | .misaligned _ _ _ left => left
  | .straddle _ _ _ left => left

/-- The answer of a block that has stopped before: it takes no further step (R433, R434). -/
def stopAgain (r : Stop) (s : State) : Result :=
  match r with
  | .fault k site => .fault (stopFault k site s)
  | .refusal site => .refused (.unmodelled site s)

/-! ### Loads and stores of one register, with the state threaded -/

/-- x[rd] <- MemRead(a, 4); a fault leaves `s`. -/
def loadWord (site : Site) (a : Word) (rd : RegNum) (s : State) : Except Fault State :=
  match s.mem.read32 s.config.misaligned a with
  | .error k => .error (stopFault k site s)
  | .ok v => .ok (s.setReg rd v)

/-- x[rd] <- zext_32(MemRead(a, 2)) (R84). -/
def loadHalf (site : Site) (a : Word) (rd : RegNum) (s : State) : Except Fault State :=
  match s.mem.read16 s.config.misaligned a with
  | .error k => .error (stopFault k site s)
  | .ok v => .ok (s.setReg rd (v.setWidth 32))

/-- x[rd] <- zext_32(MemRead(a, 1)) (R84); a byte access never faults (R89). -/
def loadByte (a : Word) (rd : RegNum) (s : State) : State :=
  s.setReg rd ((s.mem.read8 a).setWidth 32)

/-- MemWrite(a, 4, v). -/
def storeWord (site : Site) (a v : Word) (s : State) : Except Fault State :=
  match s.mem.write32 s.config.misaligned a v with
  | .error k => .error (stopFault k site s)
  | .ok m => .ok { s with mem := m }

/-- MemWrite(a, 2, v): the low 16 bits of v. -/
def storeHalf (site : Site) (a v : Word) (s : State) : Except Fault State :=
  match s.mem.write16 s.config.misaligned a (v.extractLsb' 0 16) with
  | .error k => .error (stopFault k site s)
  | .ok m => .ok { s with mem := m }

/-- MemWrite(a, 1, v): the low 8 bits of v. -/
def storeByte (a v : Word) (s : State) : State :=
  { s with mem := s.mem.write8 a (v.extractLsb' 0 8) }

/-- A result of threaded accesses, followed by the rest of the instruction. -/
def finish (r : Except Fault State) (k : State → State) : Result :=
  match r with
  | .error f => .fault f
  | .ok s => .next (k s)

/-! ### Multiple transfers (R280, R281, R384) -/

/-- The sixteen register numbers in rising order. -/
def allRegs : List RegNum := [0, 1, 2, 3, 4, 5, 6, 7, 8, 9, 10, 11, 12, 13, 14, 15]

/-- The registers of an ARM register list, in rising order (R124). -/
def regList (l : BitVec 16) : List RegNum := allRegs.filter (fun r => l.getLsbD r.toNat)

/-- The low registers of a Thumb register list, in rising order (R384). -/
def lowRegList (l : BitVec 8) : List RegNum := regList (l.setWidth 16)

/-- 4 * n as a word (R11: arithmetic wraps). -/
def bytesOf (rs : List RegNum) : Word := BitVec.ofNat 32 (4 * rs.length)

/-- Successive words from `a` loaded into the registers of the list; a fault leaves the earlier registers loaded (R433). -/
def loadMany (site : Site) : List RegNum → Word → State → Except Fault State
  | [], _, s => .ok s
  | r :: rest, a, s =>
    match loadWord site a r s with
    | .error f => .error f
    | .ok s' => loadMany site rest (a + 4#32) s'

/-- The registers of the list stored to successive words from `a`; a fault leaves the earlier words stored (R433). -/
def storeMany (site : Site) : List RegNum → Word → State → Except Fault State
  | [], _, s => .ok s
  | r :: rest, a, s =>
    match storeWord site a (s.reg r) s with
    | .error f => .error f
    | .ok s' => storeMany site rest (a + 4#32) s'

end Sys2Proof.Machine
end

