-- ==== Sys2Proof/Machine/Operands.lean ====
section
/-! DEFINITION. Every operand form: the barrel shifter (41_shifter_flags.md R206, R207, R210, R211), operand 2 (R231), the
single-transfer address (43_arm_transfer.md R271, R272), the block-transfer addresses (R282), and the immediates of R131 to R135. -/

namespace Sys2Proof.Machine

/-! ### The barrel shifter -/

/-- The result of Shift for an amount 0..31 (R207); amount 0 returns v (R209). -/
def shiftValue (ty : ShiftType) (amt : Nat) (v : Word) : Word :=
  if amt = 0 then v
  else
    match ty with
    | .lsl => v <<< amt
    | .lsr => v >>> amt
    | .asr => v.sshiftRight amt
    | .ror => v.rotateRight amt

/-- The C that Shift writes when S = 1, none where it writes none: amount 0, and ROR (R207). -/
def shiftCarry (ty : ShiftType) (amt : Nat) (v : Word) : Option Bool :=
  if amt = 0 then none
  else
    match ty with
    | .lsl => some (v.getLsbD (32 - amt))
    | .lsr => some (v.getLsbD (amt - 1))
    | .asr => some (v.getLsbD (amt - 1))
    | .ror => none

/-- The result of ShiftReg for an amount 0..255 (R211). -/
def shiftRegValue (ty : ShiftType) (n : Nat) (v : Word) : Word :=
  match ty with
  | .lsl => if n < 32 then v <<< n else 0#32
  | .lsr => if n < 32 then v >>> n else 0#32
  | .asr => if n < 32 then v.sshiftRight n else if v.getLsbD 31 then 0xFFFFFFFF#32 else 0#32
  | .ror => v.rotateRight (n % 32)

/-- The C that ShiftReg writes, none where it writes none (R211). -/
def shiftRegCarry (ty : ShiftType) (n : Nat) (v : Word) : Option Bool :=
  if n = 0 then none
  else
    match ty with
    | .lsl => some (if n ≤ 32 then v.getLsbD (32 - n) else false)
    | .lsr => some (if n ≤ 32 then v.getLsbD (n - 1) else false)
    | .asr => some (if n < 32 then v.getLsbD (n - 1) else v.getLsbD 31)
    | .ror => none

/-- Write a shifter's C, where it gives one. -/
def State.putC (s : State) (c : Option Bool) : State :=
  match c with
  | none => s
  | some b => s.setC b

/-- ROR(zext_32(imm8), 2 * rot) (R131); it writes no flag (R206). -/
def rotatedImm (rot : BitVec 4) (imm8 : BitVec 8) : Word := (imm8.setWidth 32).rotateRight (2 * rot.toNat)

/-- The value of operand 2 (R231). -/
def operand2Value (o : Operand2) (s : State) : Word :=
  match o with
  | .imm rot imm8 => rotatedImm rot imm8
  | .reg amount ty rm => shiftValue ty amount.toNat (s.reg rm)

/-- The C operand 2's shifter gives (R231, R207). -/
def operand2Carry (o : Operand2) (s : State) : Option Bool :=
  match o with
  | .imm _ _ => none
  | .reg amount ty rm => shiftCarry ty amount.toNat (s.reg rm)

/-- The state after operand 2 is formed: with S = 1 the shifter's C is written before the rest of the instruction (R207, R15). -/
def afterOperand2 (sbit : Bool) (o : Operand2) (s : State) : State :=
  if sbit then s.putC (operand2Carry o s) else s

/-- The operand of MSR (R306): the register is not shifted. -/
def msrValue (src : MsrSource) (s : State) : Word :=
  match src with
  | .imm rot imm8 => rotatedImm rot imm8
  | .reg _ rm => s.reg rm

/-! ### Single transfers -/

/-- ImmOffset under SDT_IMM_FORM (R133): w[11:0] as rot = 11..8, imm8 = 7..0, or as one number. -/
def immOffset (f : SdtImmForm) (imm12 : BitVec 12) : Word :=
  match f with
  | .rotated => rotatedImm (imm12.extractLsb' 8 4) (imm12.extractLsb' 0 8)
  | .imm12 => imm12.setWidth 32

/-- The offset of a single transfer (R271). -/
def offsetValue (off : Offset) (s : State) : Word :=
  match off with
  | .imm imm12 => immOffset s.config.sdtImm imm12
  | .reg amount ty rm => shiftValue ty amount.toNat (s.reg rm)

/-- The state after the offset is formed: the shifter tests w[20] = L (R271, R207). -/
def afterOffset (l : Bool) (off : Offset) (s : State) : State :=
  match off with
  | .imm _ => s
  | .reg amount ty rm => if l then s.putC (shiftCarry ty amount.toNat (s.reg rm)) else s

/-- target = base + off or base - off (R271). -/
def transferTarget (u : Bool) (rn : RegNum) (off : Offset) (s : State) : Word :=
  if u then s.reg rn + offsetValue off s else s.reg rn - offsetValue off s

/-- addr = target when pre-indexed, else base (R271). -/
def transferAddr (p u : Bool) (rn : RegNum) (off : Offset) (s : State) : Word :=
  if p then transferTarget u rn off s else s.reg rn

/-- The writeback of R277: `if wb: x[Rn] <- target`, wb = (P == 0) or (W == 1). -/
def writeback (p w : Bool) (rn : RegNum) (target : Word) (s : State) : State :=
  if !p || w then s.setReg rn target else s

/-- The literal address x[15] + imm12 + 4 (R272). -/
def literalAddr (imm12 : BitVec 12) (s : State) : Word := s.pc + imm12.setWidth 32 + 4#32

/-! ### Block transfers -/

/-- The address of the first word (R282). -/
def blockStart (p u : Bool) (list : BitVec 16) (base : Word) : Word :=
  match p, u with
  | false, true => base
  | true, true => base + 4#32
  | false, false => base - bytesOf (regList list) + 4#32
  | true, false => base - bytesOf (regList list)

/-- The base after the transfer (R282). -/
def blockFinal (u : Bool) (list : BitVec 16) (base : Word) : Word :=
  if u then base + bytesOf (regList list) else base - bytesOf (regList list)

/-! ### Branch offsets and Thumb immediates (R134, R135) -/

/-- sext_26(imm24 : 00). -/
def armBranchOffset (imm24 : BitVec 24) : Word := (imm24 ++ 0#2).signExtend 32

/-- sext_9(imm8 : 0). -/
def thumbCondOffset (imm8 : BitVec 8) : Word := (imm8 ++ 0#1).signExtend 32

/-- sext_12(imm11 : 0). -/
def thumbBranchOffset (imm11 : BitVec 11) : Word := (imm11 ++ 0#1).signExtend 32

/-- sext_23(hi11 : lo11 : 0). -/
def thumbPairOffset (hi11 lo11 : BitVec 11) : Word := (hi11 ++ lo11 ++ 0#1).signExtend 32

/-- zext_32(v) << k. -/
def scaled (v : BitVec w) (k : Nat) : Word := v.setWidth 32 <<< k

/-- The base of the Thumb PC-relative forms: (x[15] + 2) & ~3 (R361, R370). -/
def thumbPcBase (s : State) : Word := (s.pc + 2#32) &&& 0xFFFFFFFC#32

end Sys2Proof.Machine
end

