-- ==== Sys2Proof/Machine/ArmBranch.lean ====
section
/-! DEFINITION. ARM branches (44_arm_branch_system.md R300, R308). A meaning starts with x[15] = ia + 4. -/

namespace Sys2Proof.Machine

/-- CPSR.T <- t[0]; x[15] <- t & ~1 (R308, R400). -/
def branchExchange (t : Word) (s : State) : State :=
  (s.setT (t.getLsbD 0)).setPc (t &&& 0xFFFFFFFE#32)

/-- BX and BLX (R308): the link is written first, so Rm = 14 reads it. -/
def bxEffect (link : Bool) (rm : RegNum) (s : State) : State :=
  let s1 := if link then s.setReg 14#4 s.pc else s
  branchExchange (s1.reg rm) s1

/-- B (R300). -/
def execArmB (c : Cond) (imm24 : BitVec 24) (s : State) : Result :=
  whenPasses c s fun s => .next (s.setPc (s.pc + 4#32 + armBranchOffset imm24))

/-- BL (R300): x[14] <- ia + 4, then the branch. -/
def execArmBl (c : Cond) (imm24 : BitVec 24) (s : State) : Result :=
  whenPasses c s fun s => .next ((s.setReg 14#4 s.pc).setPc (s.pc + 4#32 + armBranchOffset imm24))

/-- BX (R308). -/
def execArmBx (c : Cond) (rm : RegNum) (s : State) : Result :=
  whenPasses c s fun s => .next (bxEffect false rm s)

/-- BLX register (R308). -/
def execArmBlxReg (c : Cond) (rm : RegNum) (s : State) : Result :=
  whenPasses c s fun s => .next (bxEffect true rm s)

/-- The BX pattern with w[7:4] neither 0001 nor 0011 (R139): under `document` BX or BLX by L = w[5]. -/
def execArmBxExt (c : Cond) (sel : BitVec 4) (rm : RegNum) (s : State) : Result :=
  whenPasses c s fun s =>
    refuseExtension (siteOf (.armBxExt c sel rm) s) s fun s => .next (bxEffect (sel.getLsbD 1) rm s)

end Sys2Proof.Machine
end

