-- ==== Sys2Proof/Machine/ArmSystem.lean ====
section
/-! DEFINITION. ARM condition 1111, status-register access, SWI, coprocessor and unknown words (30_encoding.md R138;
44_arm_branch_system.md R303, R305 to R307, R309, R310). A meaning starts with x[15] = ia + 4 (R172). -/

namespace Sys2Proof.Machine

/-- Condition 1111 never passes (R138). -/
def execArmCondNever (_ : BitVec 28) (s : State) : Result := .next s

/-- x[Rd] <- CPSR (R305). -/
def mrsEffect (rd : RegNum) (s : State) : State := s.setReg rd s.cpsr

/-- CPSR <- v, all 32 bits (R306). -/
def msrEffect (v : Word) (s : State) : State := { s with cpsr := v }

/-- MRS (R305). -/
def execArmMrs (c : Cond) (_ : Bool) (_ : BitVec 4) (rd : RegNum) (_ : BitVec 12) (s : State) : Result :=
  whenPasses c s fun s => .next (mrsEffect rd s)

/-- MSR (R306); the field mask is not examined. -/
def execArmMsr (c : Cond) (_ _ : BitVec 4) (src : MsrSource) (s : State) : Result :=
  whenPasses c s fun s => .next (msrEffect (msrValue src s) s)

/-- MRS2: recognised, no effect (R307). -/
def execArmMrs2 (c : Cond) (_ : Bool) (_ _ : BitVec 4) (_ : BitVec 12) (s : State) : Result :=
  whenPasses c s fun s => .next s

/-- MSR2: recognised, no effect (R307). -/
def execArmMsr2 (c : Cond) (_ : Bool) (_ _ : BitVec 4) (_ : BitVec 12) (s : State) : Result :=
  whenPasses c s fun s => .next s

/-- SWI: no side effect (R309). -/
def execArmSwi (c : Cond) (_ : BitVec 24) (s : State) : Result :=
  whenPasses c s fun s => .next s

/-- MRC and the rest of the coprocessor space: no effect (R310). -/
def execArmCoproc (c : Cond) (_ : BitVec 24) (s : State) : Result :=
  whenPasses c s fun s => .next s

/-- Unknown opcode: no effect (R303). -/
def execArmUnknown (c : Cond) (_ : BitVec 25) (s : State) : Result :=
  whenPasses c s fun s => .next s

end Sys2Proof.Machine
end

