-- ==== Sys2Proof/Machine/ArmDataProc.lean ====
section
/-! DEFINITION. ARM data processing (42_arm_dataproc.md R230 to R250). A meaning starts with x[15] = ia + 4 (R172, R179).
Operand 2 is formed first and, with S = 1, its shifter may write C (R231); then the instruction computes, writes Rd and, with
S = 1, its flags (R15). -/

namespace Sys2Proof.Machine

/-! ### Shared shapes -/

/-- AND, EOR, ORR, MOV, BIC, MVN: `r <- f(x[Rn], op2); x[Rd] <- r; if S: NZ(r)` (R233). -/
def dpLogic (f : Word → Word → Word) (sbit : Bool) (rn rd : RegNum) (o : Operand2) (s : State) : State :=
  let r := f (s.reg rn) (operand2Value o s)
  let s1 := (afterOperand2 sbit o s).setReg rd r
  if sbit then s1.setNZ r else s1

/-- TST, TEQ: `r <- f(x[Rn], op2); NZ(r)`, S = 1 (R242, R243). -/
def dpTest (f : Word → Word → Word) (rn : RegNum) (o : Operand2) (s : State) : State :=
  (afterOperand2 true o s).setNZ (f (s.reg rn) (operand2Value o s))

/-- `x[Rd] <- r; if S: CPSR.{N,Z,C,V} <- f`, after operand 2. -/
def dpArith (r : Word) (f : Nzcv) (sbit : Bool) (rd : RegNum) (o : Operand2) (s : State) : State :=
  let s1 := (afterOperand2 sbit o s).setReg rd r
  if sbit then s1.setNZCV f else s1

/-- CMP, CMN: `CPSR.{N,Z,C,V} <- f`, S = 1; no register is written (R244, R245). -/
def dpCompare (f : Nzcv) (o : Operand2) (s : State) : State :=
  (afterOperand2 true o s).setNZCV f

/-! ### The sixteen operations -/

/-- R234. -/
def dpAnd (sbit : Bool) (rn rd : RegNum) (o : Operand2) (s : State) : State := dpLogic (fun a b => a &&& b) sbit rn rd o s

/-- R235. -/
def dpEor (sbit : Bool) (rn rd : RegNum) (o : Operand2) (s : State) : State := dpLogic (fun a b => a ^^^ b) sbit rn rd o s

/-- R236. -/
def dpSub (sbit : Bool) (rn rd : RegNum) (o : Operand2) (s : State) : State :=
  let a := s.reg rn
  let b := operand2Value o s
  dpArith (a - b) (subtractFlags a b) sbit rd o s

/-- R237. -/
def dpRsb (sbit : Bool) (rn rd : RegNum) (o : Operand2) (s : State) : State :=
  let a := operand2Value o s
  let b := s.reg rn
  dpArith (a - b) (subtractFlags a b) sbit rd o s

/-- R238: with Rn = 15 the destination gets 4 more than the sum; the flags are those of the sum. -/
def dpAdd (sbit : Bool) (rn rd : RegNum) (o : Operand2) (s : State) : State :=
  let a := s.reg rn
  let b := operand2Value o s
  dpArith (if rn = 15#4 then a + b + 4#32 else a + b) (additionFlags a b) sbit rd o s

/-- R239: the carry-in is read after operand 2 is formed; with S = 1 only N and Z are written by the addition. -/
def dpAdc (sbit : Bool) (rn rd : RegNum) (o : Operand2) (s : State) : State :=
  let s1 := afterOperand2 sbit o s
  let r := addCarry (s.reg rn) (operand2Value o s) s1.c
  let s2 := s1.setReg rd r
  if sbit then s2.setNZ r else s2

/-- R240: the carry-in is read after operand 2 is formed. -/
def dpSbc (sbit : Bool) (rn rd : RegNum) (o : Operand2) (s : State) : State :=
  let a := s.reg rn
  let b := operand2Value o s
  let c := (afterOperand2 sbit o s).c
  dpArith (subCarry a b c) (subCarryFlags s.config.carryChain a b c) sbit rd o s

/-- R241: as SBC with the operands exchanged. -/
def dpRsc (sbit : Bool) (rn rd : RegNum) (o : Operand2) (s : State) : State :=
  let a := operand2Value o s
  let b := s.reg rn
  let c := (afterOperand2 sbit o s).c
  dpArith (subCarry a b c) (subCarryFlags s.config.carryChain a b c) sbit rd o s

/-- R242. -/
def dpTst (rn : RegNum) (o : Operand2) (s : State) : State := dpTest (fun a b => a &&& b) rn o s

/-- R243. -/
def dpTeq (rn : RegNum) (o : Operand2) (s : State) : State := dpTest (fun a b => a ^^^ b) rn o s

/-- R244. -/
def dpCmp (rn : RegNum) (o : Operand2) (s : State) : State :=
  dpCompare (subtractFlags (s.reg rn) (operand2Value o s)) o s

/-- R245. -/
def dpCmn (rn : RegNum) (o : Operand2) (s : State) : State :=
  dpCompare (additionFlags (s.reg rn) (operand2Value o s)) o s

/-- R246. -/
def dpOrr (sbit : Bool) (rn rd : RegNum) (o : Operand2) (s : State) : State := dpLogic (fun a b => a ||| b) sbit rn rd o s

/-- R247: Rn is not examined. -/
def dpMov (sbit : Bool) (rn rd : RegNum) (o : Operand2) (s : State) : State := dpLogic (fun _ b => b) sbit rn rd o s

/-- R248. -/
def dpBic (sbit : Bool) (rn rd : RegNum) (o : Operand2) (s : State) : State := dpLogic (fun a b => a &&& ~~~b) sbit rn rd o s

/-- R249: Rn is not examined. -/
def dpMvn (sbit : Bool) (rn rd : RegNum) (o : Operand2) (s : State) : State := dpLogic (fun _ b => ~~~b) sbit rn rd o s

/-- The class-00 instruction of op and S, as a state change (R127 line 3); for the extension words of R250. The MSR form takes
x[Rm] unshifted (R306). -/
def dataProcEffect (op : BitVec 4) (sbit : Bool) (rn rd : RegNum) (amount : BitVec 5) (ty : ShiftType) (rm : RegNum)
    (s : State) : State :=
  let o := Operand2.reg amount ty rm
  match op.toNat with
  | 0 => dpAnd sbit rn rd o s
  | 1 => dpEor sbit rn rd o s
  | 2 => dpSub sbit rn rd o s
  | 3 => dpRsb sbit rn rd o s
  | 4 => dpAdd sbit rn rd o s
  | 5 => dpAdc sbit rn rd o s
  | 6 => dpSbc sbit rn rd o s
  | 7 => dpRsc sbit rn rd o s
  | 8 => if sbit then dpTst rn o s else mrsEffect rd s
  | 9 => if sbit then dpTeq rn o s else msrEffect (s.reg rm) s
  | 10 => if sbit then dpCmp rn o s else s
  | 11 => if sbit then dpCmn rn o s else s
  | 12 => dpOrr sbit rn rd o s
  | 13 => dpMov sbit rn rd o s
  | 14 => dpBic sbit rn rd o s
  | _ => dpMvn sbit rn rd o s

/-! ### The meanings -/

def execArmAnd (c : Cond) (sbit : Bool) (rn rd : RegNum) (o : Operand2) (s : State) : Result :=
  whenPasses c s fun s => .next (dpAnd sbit rn rd o s)

def execArmEor (c : Cond) (sbit : Bool) (rn rd : RegNum) (o : Operand2) (s : State) : Result :=
  whenPasses c s fun s => .next (dpEor sbit rn rd o s)

def execArmSub (c : Cond) (sbit : Bool) (rn rd : RegNum) (o : Operand2) (s : State) : Result :=
  whenPasses c s fun s => .next (dpSub sbit rn rd o s)

def execArmRsb (c : Cond) (sbit : Bool) (rn rd : RegNum) (o : Operand2) (s : State) : Result :=
  whenPasses c s fun s => .next (dpRsb sbit rn rd o s)

def execArmAdd (c : Cond) (sbit : Bool) (rn rd : RegNum) (o : Operand2) (s : State) : Result :=
  whenPasses c s fun s => .next (dpAdd sbit rn rd o s)

def execArmAdc (c : Cond) (sbit : Bool) (rn rd : RegNum) (o : Operand2) (s : State) : Result :=
  whenPasses c s fun s => .next (dpAdc sbit rn rd o s)

def execArmSbc (c : Cond) (sbit : Bool) (rn rd : RegNum) (o : Operand2) (s : State) : Result :=
  whenPasses c s fun s => .next (dpSbc sbit rn rd o s)

def execArmRsc (c : Cond) (sbit : Bool) (rn rd : RegNum) (o : Operand2) (s : State) : Result :=
  whenPasses c s fun s => .next (dpRsc sbit rn rd o s)

def execArmTst (c : Cond) (rn : RegNum) (_ : BitVec 4) (o : Operand2) (s : State) : Result :=
  whenPasses c s fun s => .next (dpTst rn o s)

def execArmTeq (c : Cond) (rn : RegNum) (_ : BitVec 4) (o : Operand2) (s : State) : Result :=
  whenPasses c s fun s => .next (dpTeq rn o s)

def execArmCmp (c : Cond) (rn : RegNum) (_ : BitVec 4) (o : Operand2) (s : State) : Result :=
  whenPasses c s fun s => .next (dpCmp rn o s)

def execArmCmn (c : Cond) (rn : RegNum) (_ : BitVec 4) (o : Operand2) (s : State) : Result :=
  whenPasses c s fun s => .next (dpCmn rn o s)

def execArmOrr (c : Cond) (sbit : Bool) (rn rd : RegNum) (o : Operand2) (s : State) : Result :=
  whenPasses c s fun s => .next (dpOrr sbit rn rd o s)

def execArmMov (c : Cond) (sbit : Bool) (rn : BitVec 4) (rd : RegNum) (o : Operand2) (s : State) : Result :=
  whenPasses c s fun s => .next (dpMov sbit rn rd o s)

def execArmBic (c : Cond) (sbit : Bool) (rn rd : RegNum) (o : Operand2) (s : State) : Result :=
  whenPasses c s fun s => .next (dpBic sbit rn rd o s)

def execArmMvn (c : Cond) (sbit : Bool) (rn : BitVec 4) (rd : RegNum) (o : Operand2) (s : State) : Result :=
  whenPasses c s fun s => .next (dpMvn sbit rn rd o s)

/-- The class-00 extension words (R139, R250): under `document` the data-processing, MRS or MSR rule the fields select, w[4] and
w[7] not examined beyond the amount; under `refuse` Refuse(Unmodelled). -/
def execArmExtDp (c : Cond) (op : BitVec 4) (sbit : Bool) (rn rd : RegNum) (amount : BitVec 5) (ty : ShiftType) (rm : RegNum)
    (s : State) : Result :=
  whenPasses c s fun s =>
    refuseExtension (siteOf (.armExtDp c op sbit rn rd amount ty rm) s) s fun s =>
      .next (dataProcEffect op sbit rn rd amount ty rm s)

end Sys2Proof.Machine
end

