-- ==== Sys2Proof/Machine/ArmTransfer.lean ====
section
/-! DEFINITION. ARM single and block transfers (43_arm_transfer.md R270 to R284). A meaning starts with x[15] = ia + 4. The order
of effects is R277's and R284's: the address (with the shifter's C when w[20] = 1), the access and a load's Rd, the writeback. -/

namespace Sys2Proof.Machine

/-! ### Shared shapes -/

/-- LDR (R273) in the general form. -/
def ldrGeneral (site : Site) (p u w : Bool) (rn rd : RegNum) (off : Offset) (s : State) : Result :=
  finish (loadWord site (transferAddr p u rn off s) rd (afterOffset true off s)) fun t =>
    writeback p w rn (transferTarget u rn off s) t

/-- LDRB (R275) in the general form. -/
def ldrbGeneral (p u w : Bool) (rn rd : RegNum) (off : Offset) (s : State) : Result :=
  .next (writeback p w rn (transferTarget u rn off s) (loadByte (transferAddr p u rn off s) rd (afterOffset true off s)))

/-- STR (R274): the old x[Rd] is stored, then the base is written back. -/
def strGeneral (site : Site) (p u w : Bool) (rn rd : RegNum) (off : Offset) (s : State) : Result :=
  finish (storeWord site (transferAddr p u rn off s) (s.reg rd) (afterOffset false off s)) fun t =>
    writeback p w rn (transferTarget u rn off s) t

/-- STRB (R276). -/
def strbGeneral (p u w : Bool) (rn rd : RegNum) (off : Offset) (s : State) : Result :=
  .next (writeback p w rn (transferTarget u rn off s)
    (storeByte (transferAddr p u rn off s) (s.reg rd) (afterOffset false off s)))

/-- The R15-based load (R272): word or byte, no flag, no writeback. -/
def loadLiteral (site : Site) (b : Bool) (rd : RegNum) (imm12 : BitVec 12) (s : State) : Result :=
  if b then .next (loadByte (literalAddr imm12 s) rd s)
  else finish (loadWord site (literalAddr imm12 s) rd s) fun t => t

/-! ### The meanings -/

/-- The literal load (R272). A word with I = 1 and w[4] = 1 lies in R139's class-01 extension space as well: it runs under
`document` and is refused under `refuse` (DEDUCED, notes/assumptions/17.md). -/
def execArmLdrLit (c : Cond) (i p u b w : Bool) (rd : RegNum) (imm12 : BitVec 12) (s : State) : Result :=
  whenPasses c s fun s =>
    let site := siteOf (.armLdrLit c i p u b w rd imm12) s
    refuseWhen (i && imm12.getLsbD 4) site s fun s => loadLiteral site b rd imm12 s

def execArmLdr (c : Cond) (p u w : Bool) (rn rd : RegNum) (off : Offset) (s : State) : Result :=
  whenPasses c s fun s => ldrGeneral (siteOf (.armLdr c p u w rn rd off) s) p u w rn rd off s

def execArmStr (c : Cond) (p u w : Bool) (rn rd : RegNum) (off : Offset) (s : State) : Result :=
  whenPasses c s fun s => strGeneral (siteOf (.armStr c p u w rn rd off) s) p u w rn rd off s

def execArmLdrb (c : Cond) (p u w : Bool) (rn rd : RegNum) (off : Offset) (s : State) : Result :=
  whenPasses c s fun s => ldrbGeneral p u w rn rd off s

def execArmStrb (c : Cond) (p u w : Bool) (rn rd : RegNum) (off : Offset) (s : State) : Result :=
  whenPasses c s fun s => strbGeneral p u w rn rd off s

/-- The class-01 extension words (R139, R279): under `document` the transfer the fields select, w[4] not examined. -/
def execArmExtTransfer (c : Cond) (p u b w l : Bool) (rn rd : RegNum) (amount : BitVec 5) (ty : ShiftType) (rm : RegNum)
    (s : State) : Result :=
  whenPasses c s fun s =>
    let site := siteOf (.armExtTransfer c p u b w l rn rd amount ty rm) s
    refuseExtension site s fun s =>
      match l, b with
      | true, false => ldrGeneral site p u w rn rd (.reg amount ty rm) s
      | true, true => ldrbGeneral p u w rn rd (.reg amount ty rm) s
      | false, false => strGeneral site p u w rn rd (.reg amount ty rm) s
      | false, true => strbGeneral p u w rn rd (.reg amount ty rm) s

/-- LDM (R280): the S bit is not examined (R283). -/
def execArmLdm (c : Cond) (p u sIgnored w : Bool) (rn : RegNum) (list : BitVec 16) (s : State) : Result :=
  whenPasses c s fun s =>
    let base := s.reg rn
    finish (loadMany (siteOf (.armLdm c p u sIgnored w rn list) s) (regList list) (blockStart p u list base) s) fun t =>
      if w then t.setReg rn (blockFinal u list base) else t

/-- STM (R281): the S bit is not examined (R283). -/
def execArmStm (c : Cond) (p u sIgnored w : Bool) (rn : RegNum) (list : BitVec 16) (s : State) : Result :=
  whenPasses c s fun s =>
    let base := s.reg rn
    finish (storeMany (siteOf (.armStm c p u sIgnored w rn list) s) (regList list) (blockStart p u list base) s) fun t =>
      if w then t.setReg rn (blockFinal u list base) else t

end Sys2Proof.Machine
end

