-- ==== Sys2Proof/Machine/ThumbAlu.lean ====
section
/-! DEFINITION. Thumb arithmetic, logic, shifts and address arithmetic (45_thumb_alu.md R330 to R363). A meaning starts with
x[15] = ia + 2 (R179); a Thumb instruction has no condition. -/

namespace Sys2Proof.Machine

/-! ### Shared shapes -/

/-- `x[Rd] <- r; NZ(r)`. -/
def thumbLogic (r : Word) (rd : RegNum) (s : State) : State := (s.setReg rd r).setNZ r

/-- `(r, f) <- helper; x[Rd] <- r; CPSR.{N,Z,C,V} <- f`. -/
def thumbArith (r : Word) (f : Nzcv) (rd : RegNum) (s : State) : State := (s.setReg rd r).setNZCV f

/-- `r <- Shift...; x[Rd] <- r; NZ(r)`, with the C the shifter gives (R210, R211). -/
def thumbShift (r : Word) (c : Option Bool) (rd : RegNum) (s : State) : State := ((s.putC c).setReg rd r).setNZ r

/-- ShiftImm (R210): the shifter of R207 with amount imm5, C written whenever the amount is not 0. -/
def thumbShiftImm (ty : ShiftType) (imm5 : BitVec 5) (rs rd : LowReg) (s : State) : State :=
  thumbShift (shiftValue ty imm5.toNat (s.reg (low rs))) (shiftCarry ty imm5.toNat (s.reg (low rs))) (low rd) s

/-- The amount of a register-specified shift: the low byte of x[Rs] (R211). -/
def shiftAmount (rs : LowReg) (s : State) : Nat := ((s.reg (low rs)).extractLsb' 0 8).toNat

/-- ShiftReg (R211). -/
def thumbShiftReg (ty : ShiftType) (rs rd : LowReg) (s : State) : State :=
  thumbShift (shiftRegValue ty (shiftAmount rs s) (s.reg (low rd))) (shiftRegCarry ty (shiftAmount rs s) (s.reg (low rd)))
    (low rd) s

/-! ### Family 1 -/

/-- LSL immediate (R331). -/
def execTLslImm (imm5 : BitVec 5) (rs rd : LowReg) (s : State) : Result := .next (thumbShiftImm .lsl imm5 rs rd s)

/-- LSR immediate (R332). -/
def execTLsrImm (imm5 : BitVec 5) (rs rd : LowReg) (s : State) : Result := .next (thumbShiftImm .lsr imm5 rs rd s)

/-- ASR immediate (R333). -/
def execTAsrImm (imm5 : BitVec 5) (rs rd : LowReg) (s : State) : Result := .next (thumbShiftImm .asr imm5 rs rd s)

/-- ADD register (R334). -/
def execTAddReg (rn rs rd : LowReg) (s : State) : Result :=
  let a := s.reg (low rs)
  let b := s.reg (low rn)
  .next (thumbArith (a + b) (additionFlags a b) (low rd) s)

/-- SUB register (R335). -/
def execTSubReg (rn rs rd : LowReg) (s : State) : Result :=
  let a := s.reg (low rs)
  let b := s.reg (low rn)
  .next (thumbArith (a - b) (subtractFlags a b) (low rd) s)

/-- ADD 3-bit immediate (R336). -/
def execTAddImm3 (imm3 : BitVec 3) (rs rd : LowReg) (s : State) : Result :=
  let a := s.reg (low rs)
  let b := imm3.setWidth 32
  .next (thumbArith (a + b) (additionFlags a b) (low rd) s)

/-- SUB 3-bit immediate (R337). -/
def execTSubImm3 (imm3 : BitVec 3) (rs rd : LowReg) (s : State) : Result :=
  let a := s.reg (low rs)
  let b := imm3.setWidth 32
  .next (thumbArith (a - b) (subtractFlags a b) (low rd) s)

/-! ### Family 2 -/

/-- MOV immediate (R338). -/
def execTMovImm (rd : LowReg) (imm8 : BitVec 8) (s : State) : Result := .next (thumbLogic (imm8.setWidth 32) (low rd) s)

/-- CMP immediate (R339). -/
def execTCmpImm (rd : LowReg) (imm8 : BitVec 8) (s : State) : Result :=
  .next (s.setNZCV (subtractFlags (s.reg (low rd)) (imm8.setWidth 32)))

/-- ADD 8-bit immediate (R340). -/
def execTAddImm8 (rd : LowReg) (imm8 : BitVec 8) (s : State) : Result :=
  let a := s.reg (low rd)
  let b := imm8.setWidth 32
  .next (thumbArith (a + b) (additionFlags a b) (low rd) s)

/-- SUB 8-bit immediate (R341). -/
def execTSubImm8 (rd : LowReg) (imm8 : BitVec 8) (s : State) : Result :=
  let a := s.reg (low rd)
  let b := imm8.setWidth 32
  .next (thumbArith (a - b) (subtractFlags a b) (low rd) s)

/-! ### Family 3 -/

/-- AND (R342). -/
def execTAnd (rs rd : LowReg) (s : State) : Result := .next (thumbLogic (s.reg (low rd) &&& s.reg (low rs)) (low rd) s)

/-- EOR (R343). -/
def execTEor (rs rd : LowReg) (s : State) : Result := .next (thumbLogic (s.reg (low rd) ^^^ s.reg (low rs)) (low rd) s)

/-- LSL register (R344). -/
def execTLslReg (rs rd : LowReg) (s : State) : Result := .next (thumbShiftReg .lsl rs rd s)

/-- LSR register (R345). -/
def execTLsrReg (rs rd : LowReg) (s : State) : Result := .next (thumbShiftReg .lsr rs rd s)

/-- ASR register (R346). -/
def execTAsrReg (rs rd : LowReg) (s : State) : Result := .next (thumbShiftReg .asr rs rd s)

/-- ADC (R347): N and Z only. -/
def execTAdc (rs rd : LowReg) (s : State) : Result :=
  .next (thumbLogic (addCarry (s.reg (low rd)) (s.reg (low rs)) s.c) (low rd) s)

/-- SBC (R348). -/
def execTSbc (rs rd : LowReg) (s : State) : Result :=
  let a := s.reg (low rd)
  let b := s.reg (low rs)
  .next (thumbArith (subCarry a b s.c) (subCarryFlags s.config.carryChain a b s.c) (low rd) s)

/-- ROR register (R349): C is not written. -/
def execTRorReg (rs rd : LowReg) (s : State) : Result := .next (thumbShiftReg .ror rs rd s)

/-- TST (R350). -/
def execTTst (rs rd : LowReg) (s : State) : Result := .next (s.setNZ (s.reg (low rd) &&& s.reg (low rs)))

/-- NEG (R351). -/
def execTNeg (rs rd : LowReg) (s : State) : Result :=
  let b := s.reg (low rs)
  .next (thumbArith (0#32 - b) (subtractFlags 0#32 b) (low rd) s)

/-- CMP register, low (R352). -/
def execTCmpReg (rs rd : LowReg) (s : State) : Result :=
  .next (s.setNZCV (subtractFlags (s.reg (low rd)) (s.reg (low rs))))

/-- CMN (R353). -/
def execTCmn (rs rd : LowReg) (s : State) : Result :=
  .next (s.setNZCV (additionFlags (s.reg (low rd)) (s.reg (low rs))))

/-- ORR (R354). -/
def execTOrr (rs rd : LowReg) (s : State) : Result := .next (thumbLogic (s.reg (low rd) ||| s.reg (low rs)) (low rd) s)

/-- MUL (R355): N and Z only. -/
def execTMul (rs rd : LowReg) (s : State) : Result := .next (thumbLogic (s.reg (low rd) * s.reg (low rs)) (low rd) s)

/-- BIC (R356). -/
def execTBic (rs rd : LowReg) (s : State) : Result := .next (thumbLogic (s.reg (low rd) &&& ~~~(s.reg (low rs))) (low rd) s)

/-- MVN (R357). -/
def execTMvn (rs rd : LowReg) (s : State) : Result := .next (thumbLogic (~~~(s.reg (low rs))) (low rd) s)

/-! ### Family 4, without BX -/

/-- ADD high (R358): no flag. -/
def execTAddHigh (rd rs : RegNum) (s : State) : Result := .next (s.setReg rd (s.reg rd + s.reg rs))

/-- CMP high (R359). -/
def execTCmpHigh (rd rs : RegNum) (s : State) : Result := .next (s.setNZCV (subtractFlags (s.reg rd) (s.reg rs)))

/-- MOV high (R360): no flag. -/
def execTMovHigh (rd rs : RegNum) (s : State) : Result := .next (s.setReg rd (s.reg rs))

/-! ### Families 10 and 11a -/

/-- ADD Rd, PC, #imm8*4 (R361). -/
def execTAddPc (rd : LowReg) (imm8 : BitVec 8) (s : State) : Result :=
  .next (s.setReg (low rd) (thumbPcBase s + scaled imm8 2))

/-- ADD Rd, SP, #imm8*4 (R362). -/
def execTAddSp (rd : LowReg) (imm8 : BitVec 8) (s : State) : Result :=
  .next (s.setReg (low rd) (s.reg 13#4 + scaled imm8 2))

/-- ADD SP, #imm7*4 (R363, S = 0). -/
def execTSpAdd (imm7 : BitVec 7) (s : State) : Result := .next (s.setReg 13#4 (s.reg 13#4 + scaled imm7 2))

/-- ADD SP, #-imm7*4 (R363, S = 1). -/
def execTSpSub (imm7 : BitVec 7) (s : State) : Result := .next (s.setReg 13#4 (s.reg 13#4 - scaled imm7 2))

end Sys2Proof.Machine
end

