-- ==== Sys2Proof/Machine/ThumbBranch.lean ====
section
/-! DEFINITION. Thumb branches, BX, the BL/BLX pair, SWI and unknown encodings (47_thumb_branch.md R400 to R408). A meaning starts
with x[15] = ia + 2 (R179). No instruction here writes N, Z, C or V. -/

namespace Sys2Proof.Machine

/-- BX (R400). -/
def execTBx (rm : RegNum) (_ : BitVec 3) (s : State) : Result := .next (branchExchange (s.reg rm) s)

/-- BX with H1 = 1 (R401): as BX, without a link, under `document`. -/
def execTBxExt (rm : RegNum) (low : BitVec 3) (s : State) : Result :=
  refuseExtension (siteOf (.tBxExt rm low) s) s fun s => .next (branchExchange (s.reg rm) s)

/-- B<cond> (R402). -/
def execTBcond (c : Cond) (imm8 : BitVec 8) (s : State) : Result :=
  if condHolds c s then .next (s.setPc (s.pc + 2#32 + thumbCondOffset imm8)) else .next s

/-- B (R403). -/
def execTB (imm11 : BitVec 11) (s : State) : Result := .next (s.setPc (s.pc + 2#32 + thumbBranchOffset imm11))

/-- What BL and BLX share (R405): x[15] moves past the second halfword, which the fetch has read (R404), and x[14] gets
that address with bit 0 set; then the target is x[15] + off. -/
def pairLink (s : State) : State :=
  let s1 := s.setPc (s.pc + 2#32)
  s1.setReg 14#4 (s1.pc ||| 1#32)

/-- ia + 4 + off (R405). -/
def pairTarget (hi11 lo11 : BitVec 11) (s : State) : Word := s.pc + 2#32 + thumbPairOffset hi11 lo11

/-- BL (R405). -/
def execTBl (hi11 : BitVec 11) (_ : BitVec 3) (_ : BitVec 1) (lo11 : BitVec 11) (s : State) : Result :=
  .next ((pairLink s).setPc (pairTarget hi11 lo11 s))

/-- BLX (R405): T is cleared and the target's low two bits too. -/
def execTBlx (hi11 : BitVec 11) (_ : BitVec 3) (_ : BitVec 1) (lo11 : BitVec 11) (s : State) : Result :=
  .next (((pairLink s).setT false).setPc (pairTarget hi11 lo11 s &&& 0xFFFFFFFC#32))

/-- SWI (R406): no effect. -/
def execTSwi (_ : BitVec 8) (s : State) : Result := .next s

/-- Unknown, h[15:12] = 1011 (R408): no effect. -/
def execTUnknown1011 (_ : BitVec 12) (s : State) : Result := .next s

/-- Unknown, h[15:11] = 11101 (R408): no effect. -/
def execTUnknown11101 (_ : BitVec 11) (s : State) : Result := .next s

/-- Unknown, h[15:11] = 11111 (R408): no effect. -/
def execTUnknown11111 (_ : BitVec 11) (s : State) : Result := .next s

end Sys2Proof.Machine
end

