-- ==== Sys2Proof/Machine/ThumbTransfer.lean ====
section
/-! DEFINITION. Thumb loads, stores, stack and multiple transfers (46_thumb_transfer.md R370 to R388). A meaning starts with
x[15] = ia + 2 (R179). No instruction here writes a flag; only POP with PC writes T. -/

namespace Sys2Proof.Machine

/-! ### The addresses -/

/-- (x[15] + 2) & ~3 plus imm8*4 (R370). -/
def thumbPcAddr (imm8 : BitVec 8) (s : State) : Word := thumbPcBase s + scaled imm8 2

/-- x[Rb] + x[Ro] (R371 to R374). -/
def thumbRegAddr (ro rb : LowReg) (s : State) : Word := s.reg (low rb) + s.reg (low ro)

/-- x[Rb] + (imm5 << k): k = 2 for words, 1 for halfwords, 0 for bytes (R376 to R381). -/
def thumbImmAddr (k : Nat) (imm5 : BitVec 5) (rb : LowReg) (s : State) : Word := s.reg (low rb) + scaled imm5 k

/-- x[13] + imm8*4 (R382, R383). -/
def thumbSpAddr (imm8 : BitVec 8) (s : State) : Word := s.reg 13#4 + scaled imm8 2

/-! ### Single transfers -/

/-- LDR Rd, [PC, #imm8*4] (R370). -/
def execTLdrPc (rd : LowReg) (imm8 : BitVec 8) (s : State) : Result :=
  finish (loadWord (siteOf (.tLdrPc rd imm8) s) (thumbPcAddr imm8 s) (low rd) s) fun t => t

/-- STR Rd, [Rb, Ro] (R371). -/
def execTStrReg (ro rb rd : LowReg) (s : State) : Result :=
  finish (storeWord (siteOf (.tStrReg ro rb rd) s) (thumbRegAddr ro rb s) (s.reg (low rd)) s) fun t => t

/-- STRB Rd, [Rb, Ro] (R372). -/
def execTStrbReg (ro rb rd : LowReg) (s : State) : Result :=
  .next (storeByte (thumbRegAddr ro rb s) (s.reg (low rd)) s)

/-- LDR Rd, [Rb, Ro] (R373). -/
def execTLdrReg (ro rb rd : LowReg) (s : State) : Result :=
  finish (loadWord (siteOf (.tLdrReg ro rb rd) s) (thumbRegAddr ro rb s) (low rd) s) fun t => t

/-- LDRB Rd, [Rb, Ro] (R374). -/
def execTLdrbReg (ro rb rd : LowReg) (s : State) : Result :=
  .next (loadByte (thumbRegAddr ro rb s) (low rd) s)

/-- Family 6 with h[9] = 1 (R375): an unknown opcode under `document`, a refusal under `refuse`. -/
def execTExtHalf (sel : BitVec 2) (ro rb rd : LowReg) (s : State) : Result :=
  refuseExtension (siteOf (.tExtHalf sel ro rb rd) s) s fun s => .next s

/-- STR Rd, [Rb, #imm5*4] (R376). -/
def execTStrImm (imm5 : BitVec 5) (rb rd : LowReg) (s : State) : Result :=
  finish (storeWord (siteOf (.tStrImm imm5 rb rd) s) (thumbImmAddr 2 imm5 rb s) (s.reg (low rd)) s) fun t => t

/-- LDR Rd, [Rb, #imm5*4] (R377). -/
def execTLdrImm (imm5 : BitVec 5) (rb rd : LowReg) (s : State) : Result :=
  finish (loadWord (siteOf (.tLdrImm imm5 rb rd) s) (thumbImmAddr 2 imm5 rb s) (low rd) s) fun t => t

/-- STRB Rd, [Rb, #imm5] (R378). -/
def execTStrbImm (imm5 : BitVec 5) (rb rd : LowReg) (s : State) : Result :=
  .next (storeByte (thumbImmAddr 0 imm5 rb s) (s.reg (low rd)) s)

/-- LDRB Rd, [Rb, #imm5] (R379). -/
def execTLdrbImm (imm5 : BitVec 5) (rb rd : LowReg) (s : State) : Result :=
  .next (loadByte (thumbImmAddr 0 imm5 rb s) (low rd) s)

/-- STRH Rd, [Rb, #imm5*2] (R380). -/
def execTStrhImm (imm5 : BitVec 5) (rb rd : LowReg) (s : State) : Result :=
  finish (storeHalf (siteOf (.tStrhImm imm5 rb rd) s) (thumbImmAddr 1 imm5 rb s) (s.reg (low rd)) s) fun t => t

/-- LDRH Rd, [Rb, #imm5*2] (R381). -/
def execTLdrhImm (imm5 : BitVec 5) (rb rd : LowReg) (s : State) : Result :=
  finish (loadHalf (siteOf (.tLdrhImm imm5 rb rd) s) (thumbImmAddr 1 imm5 rb s) (low rd) s) fun t => t

/-- STR Rd, [SP, #imm8*4] (R382). -/
def execTStrSp (rd : LowReg) (imm8 : BitVec 8) (s : State) : Result :=
  finish (storeWord (siteOf (.tStrSp rd imm8) s) (thumbSpAddr imm8 s) (s.reg (low rd)) s) fun t => t

/-- LDR Rd, [SP, #imm8*4] (R383). -/
def execTLdrSp (rd : LowReg) (imm8 : BitVec 8) (s : State) : Result :=
  finish (loadWord (siteOf (.tLdrSp rd imm8) s) (thumbSpAddr imm8 s) (low rd) s) fun t => t

/-! ### Multiple transfers (R384) -/

/-- PUSH's list: the low registers, then LR with R = 1 (R385). -/
def pushList (r : Bool) (rlist : BitVec 8) : List RegNum := lowRegList rlist ++ (if r then [14#4] else [])

/-- POP's list: the low registers, then PC with R = 1 (R386). -/
def popList (r : Bool) (rlist : BitVec 8) : List RegNum := lowRegList rlist ++ (if r then [15#4] else [])

/-- PUSH's first address, x[13] - 4*n. -/
def pushStart (r : Bool) (rlist : BitVec 8) (s : State) : Word := s.reg 13#4 - bytesOf (pushList r rlist)

/-- PUSH (R385). -/
def execTPush (r : Bool) (rlist : BitVec 8) (s : State) : Result :=
  finish (storeMany (siteOf (.tPush r rlist) s) (pushList r rlist) (pushStart r rlist s) s) fun t =>
    t.setReg 13#4 (pushStart r rlist s)

/-- POP's PC: `v <- MemRead(a, 4); CPSR.T <- v[0]; x[15] <- v & ~1`. -/
def loadPc (site : Site) (a : Word) (s : State) : Except Fault State :=
  match s.mem.read32 s.config.misaligned a with
  | .error k => .error (stopFault k site s)
  | .ok v => .ok (branchExchange v s)

/-- POP (R386). -/
def execTPop (r : Bool) (rlist : BitVec 8) (s : State) : Result :=
  let site := siteOf (.tPop r rlist) s
  let a := s.reg 13#4
  match loadMany site (lowRegList rlist) a s with
  | .error f => .fault f
  | .ok s1 =>
    finish (if r then loadPc site (a + bytesOf (lowRegList rlist)) s1 else .ok s1) fun t =>
      t.setReg 13#4 (a + bytesOf (popList r rlist))

/-- STMIA Rb!, list (R387). -/
def execTStmia (rb : LowReg) (rlist : BitVec 8) (s : State) : Result :=
  let base := s.reg (low rb)
  finish (storeMany (siteOf (.tStmia rb rlist) s) (lowRegList rlist) base s) fun t =>
    t.setReg (low rb) (base + bytesOf (lowRegList rlist))

/-- LDMIA Rb!, list (R388): the writeback is last. -/
def execTLdmia (rb : LowReg) (rlist : BitVec 8) (s : State) : Result :=
  let base := s.reg (low rb)
  finish (loadMany (siteOf (.tLdmia rb rlist) s) (lowRegList rlist) base s) fun t =>
    t.setReg (low rb) (base + bytesOf (lowRegList rlist))

end Sys2Proof.Machine
end

