-- ==== Sys2Proof/Machine/Dispatch.lean ====
section
/-! DEFINITION. One arm per constructor of Instr: each calls the instruction's meaning. -/

namespace Sys2Proof.Machine

def exec (i : Instr) (s : State) : Host.Outcome State Fault Refusal :=
  match i with
  | .armCondNever low => Sys2Proof.Machine.execArmCondNever low s
  | .armBx c rm => Sys2Proof.Machine.execArmBx c rm s
  | .armBlxReg c rm => Sys2Proof.Machine.execArmBlxReg c rm s
  | .armBxExt c sel rm => Sys2Proof.Machine.execArmBxExt c sel rm s
  | .armSwi c comment => Sys2Proof.Machine.execArmSwi c comment s
  | .armExtDp c op sbit rn rd amount ty rm => Sys2Proof.Machine.execArmExtDp c op sbit rn rd amount ty rm s
  | .armMrs c im rnIgnored rd low => Sys2Proof.Machine.execArmMrs c im rnIgnored rd low s
  | .armMsr c mask rdIgnored src => Sys2Proof.Machine.execArmMsr c mask rdIgnored src s
  | .armMrs2 c im rnIgnored rdIgnored low => Sys2Proof.Machine.execArmMrs2 c im rnIgnored rdIgnored low s
  | .armMsr2 c im rnIgnored rdIgnored low => Sys2Proof.Machine.execArmMsr2 c im rnIgnored rdIgnored low s
  | .armAnd c sbit rn rd o => Sys2Proof.Machine.execArmAnd c sbit rn rd o s
  | .armEor c sbit rn rd o => Sys2Proof.Machine.execArmEor c sbit rn rd o s
  | .armSub c sbit rn rd o => Sys2Proof.Machine.execArmSub c sbit rn rd o s
  | .armRsb c sbit rn rd o => Sys2Proof.Machine.execArmRsb c sbit rn rd o s
  | .armAdd c sbit rn rd o => Sys2Proof.Machine.execArmAdd c sbit rn rd o s
  | .armAdc c sbit rn rd o => Sys2Proof.Machine.execArmAdc c sbit rn rd o s
  | .armSbc c sbit rn rd o => Sys2Proof.Machine.execArmSbc c sbit rn rd o s
  | .armRsc c sbit rn rd o => Sys2Proof.Machine.execArmRsc c sbit rn rd o s
  | .armTst c rn rdIgnored o => Sys2Proof.Machine.execArmTst c rn rdIgnored o s
  | .armTeq c rn rdIgnored o => Sys2Proof.Machine.execArmTeq c rn rdIgnored o s
  | .armCmp c rn rdIgnored o => Sys2Proof.Machine.execArmCmp c rn rdIgnored o s
  | .armCmn c rn rdIgnored o => Sys2Proof.Machine.execArmCmn c rn rdIgnored o s
  | .armOrr c sbit rn rd o => Sys2Proof.Machine.execArmOrr c sbit rn rd o s
  | .armMov c sbit rnIgnored rd o => Sys2Proof.Machine.execArmMov c sbit rnIgnored rd o s
  | .armBic c sbit rn rd o => Sys2Proof.Machine.execArmBic c sbit rn rd o s
  | .armMvn c sbit rnIgnored rd o => Sys2Proof.Machine.execArmMvn c sbit rnIgnored rd o s
  | .armLdrLit c im p u b w rd imm12 => Sys2Proof.Machine.execArmLdrLit c im p u b w rd imm12 s
  | .armExtTransfer c p u b w l rn rd amount ty rm => Sys2Proof.Machine.execArmExtTransfer c p u b w l rn rd amount ty rm s
  | .armStr c p u w rn rd off => Sys2Proof.Machine.execArmStr c p u w rn rd off s
  | .armLdr c p u w rn rd off => Sys2Proof.Machine.execArmLdr c p u w rn rd off s
  | .armStrb c p u w rn rd off => Sys2Proof.Machine.execArmStrb c p u w rn rd off s
  | .armLdrb c p u w rn rd off => Sys2Proof.Machine.execArmLdrb c p u w rn rd off s
  | .armStm c p u sIgnored w rn list => Sys2Proof.Machine.execArmStm c p u sIgnored w rn list s
  | .armLdm c p u sIgnored w rn list => Sys2Proof.Machine.execArmLdm c p u sIgnored w rn list s
  | .armB c imm24 => Sys2Proof.Machine.execArmB c imm24 s
  | .armBl c imm24 => Sys2Proof.Machine.execArmBl c imm24 s
  | .armCoproc c low => Sys2Proof.Machine.execArmCoproc c low s
  | .armUnknown c low => Sys2Proof.Machine.execArmUnknown c low s
  | .tAddReg rn rs rd => Sys2Proof.Machine.execTAddReg rn rs rd s
  | .tSubReg rn rs rd => Sys2Proof.Machine.execTSubReg rn rs rd s
  | .tAddImm3 imm3 rs rd => Sys2Proof.Machine.execTAddImm3 imm3 rs rd s
  | .tSubImm3 imm3 rs rd => Sys2Proof.Machine.execTSubImm3 imm3 rs rd s
  | .tLslImm imm5 rs rd => Sys2Proof.Machine.execTLslImm imm5 rs rd s
  | .tLsrImm imm5 rs rd => Sys2Proof.Machine.execTLsrImm imm5 rs rd s
  | .tAsrImm imm5 rs rd => Sys2Proof.Machine.execTAsrImm imm5 rs rd s
  | .tMovImm rd imm8 => Sys2Proof.Machine.execTMovImm rd imm8 s
  | .tCmpImm rd imm8 => Sys2Proof.Machine.execTCmpImm rd imm8 s
  | .tAddImm8 rd imm8 => Sys2Proof.Machine.execTAddImm8 rd imm8 s
  | .tSubImm8 rd imm8 => Sys2Proof.Machine.execTSubImm8 rd imm8 s
  | .tAnd rs rd => Sys2Proof.Machine.execTAnd rs rd s
  | .tEor rs rd => Sys2Proof.Machine.execTEor rs rd s
  | .tLslReg rs rd => Sys2Proof.Machine.execTLslReg rs rd s
  | .tLsrReg rs rd => Sys2Proof.Machine.execTLsrReg rs rd s
  | .tAsrReg rs rd => Sys2Proof.Machine.execTAsrReg rs rd s
  | .tAdc rs rd => Sys2Proof.Machine.execTAdc rs rd s
  | .tSbc rs rd => Sys2Proof.Machine.execTSbc rs rd s
  | .tRorReg rs rd => Sys2Proof.Machine.execTRorReg rs rd s
  | .tTst rs rd => Sys2Proof.Machine.execTTst rs rd s
  | .tNeg rs rd => Sys2Proof.Machine.execTNeg rs rd s
  | .tCmpReg rs rd => Sys2Proof.Machine.execTCmpReg rs rd s
  | .tCmn rs rd => Sys2Proof.Machine.execTCmn rs rd s
  | .tOrr rs rd => Sys2Proof.Machine.execTOrr rs rd s
  | .tMul rs rd => Sys2Proof.Machine.execTMul rs rd s
  | .tBic rs rd => Sys2Proof.Machine.execTBic rs rd s
  | .tMvn rs rd => Sys2Proof.Machine.execTMvn rs rd s
  | .tAddHigh rd rs => Sys2Proof.Machine.execTAddHigh rd rs s
  | .tCmpHigh rd rs => Sys2Proof.Machine.execTCmpHigh rd rs s
  | .tMovHigh rd rs => Sys2Proof.Machine.execTMovHigh rd rs s
  | .tBx rm low => Sys2Proof.Machine.execTBx rm low s
  | .tBxExt rm low => Sys2Proof.Machine.execTBxExt rm low s
  | .tLdrPc rd imm8 => Sys2Proof.Machine.execTLdrPc rd imm8 s
  | .tStrReg ro rb rd => Sys2Proof.Machine.execTStrReg ro rb rd s
  | .tStrbReg ro rb rd => Sys2Proof.Machine.execTStrbReg ro rb rd s
  | .tLdrReg ro rb rd => Sys2Proof.Machine.execTLdrReg ro rb rd s
  | .tLdrbReg ro rb rd => Sys2Proof.Machine.execTLdrbReg ro rb rd s
  | .tExtHalf sel ro rb rd => Sys2Proof.Machine.execTExtHalf sel ro rb rd s
  | .tStrImm imm5 rb rd => Sys2Proof.Machine.execTStrImm imm5 rb rd s
  | .tLdrImm imm5 rb rd => Sys2Proof.Machine.execTLdrImm imm5 rb rd s
  | .tStrbImm imm5 rb rd => Sys2Proof.Machine.execTStrbImm imm5 rb rd s
  | .tLdrbImm imm5 rb rd => Sys2Proof.Machine.execTLdrbImm imm5 rb rd s
  | .tStrhImm imm5 rb rd => Sys2Proof.Machine.execTStrhImm imm5 rb rd s
  | .tLdrhImm imm5 rb rd => Sys2Proof.Machine.execTLdrhImm imm5 rb rd s
  | .tStrSp rd imm8 => Sys2Proof.Machine.execTStrSp rd imm8 s
  | .tLdrSp rd imm8 => Sys2Proof.Machine.execTLdrSp rd imm8 s
  | .tAddPc rd imm8 => Sys2Proof.Machine.execTAddPc rd imm8 s
  | .tAddSp rd imm8 => Sys2Proof.Machine.execTAddSp rd imm8 s
  | .tSpAdd imm7 => Sys2Proof.Machine.execTSpAdd imm7 s
  | .tSpSub imm7 => Sys2Proof.Machine.execTSpSub imm7 s
  | .tPush r rlist => Sys2Proof.Machine.execTPush r rlist s
  | .tPop r rlist => Sys2Proof.Machine.execTPop r rlist s
  | .tUnknown1011 low => Sys2Proof.Machine.execTUnknown1011 low s
  | .tStmia rb rlist => Sys2Proof.Machine.execTStmia rb rlist s
  | .tLdmia rb rlist => Sys2Proof.Machine.execTLdmia rb rlist s
  | .tSwi imm8 => Sys2Proof.Machine.execTSwi imm8 s
  | .tBcond c imm8 => Sys2Proof.Machine.execTBcond c imm8 s
  | .tB imm11 => Sys2Proof.Machine.execTB imm11 s
  | .tBl hi11 top b11 lo11 => Sys2Proof.Machine.execTBl hi11 top b11 lo11 s
  | .tBlx hi11 top b11 lo11 => Sys2Proof.Machine.execTBlx hi11 top b11 lo11 s
  | .tUnknown11101 low => Sys2Proof.Machine.execTUnknown11101 low s
  | .tUnknown11111 low => Sys2Proof.Machine.execTUnknown11111 low s

end Sys2Proof.Machine
end

