-- ==== Sys2Proof/Machine/HostOps.lean ====
section
/-! DEFINITION. The host's operations between steps (60_exceptions.md R446): the registry, Memcpy, the two loaders, SetPC, the
breakpoint set, the dumps, Unload, and the boot sequence (70_reset_and_hazards.md R460). No instruction uses them. -/

namespace Sys2Proof.Machine

/-! ### Memory (R72, R73, R95) -/

/-- Create (R72). -/
def State.create (s : State) (vaddr : Word) (size : Nat) : State := { s with mem := s.mem.create vaddr size }

/-- Destroy() (R73). -/
def State.destroyAll (s : State) : State := { s with mem := s.mem.destroyAll }

/-- Destroy(vaddr) (R73). -/
def State.destroy (s : State) (vaddr : Word) : State := { s with mem := s.mem.destroy vaddr }

/-- Memcpy from a host buffer into memory (R95): the bytes go to the space that owns the target address, and nothing happens where
none does. Bytes past the end of that space are not copied (DESIGN CHOICE, notes/assumptions/10.md). -/
def Memory.copyIn (m : Memory) (a : Word) (bs : List Byte) : Memory :=
  match m.lookup a with
  | none => m
  | some sp => m.store a (bs.take (sp.top - a.toNat))

/-- The bytes of a space from `a` on put in place of a buffer's; past the end of the space the buffer's bytes stay. -/
def Space.copyOut (sp : Space) (a : Nat) : List Byte → List Byte
  | [] => []
  | old :: rest => (if a < sp.top then sp.byte a else old) :: sp.copyOut (a + 1) rest

/-- Memcpy from memory into a host buffer (R95): the bytes come from the space that owns the target address, and the buffer stays as
it is where none does or past the end of that space (DESIGN CHOICE, notes/assumptions/10.md). -/
def Memory.copyOut (m : Memory) (a : Word) (buffer : List Byte) : List Byte :=
  match m.lookup a with
  | none => buffer
  | some sp => sp.copyOut a.toNat buffer

def State.copyIn (s : State) (a : Word) (bs : List Byte) : State := { s with mem := s.mem.copyIn a bs }

/-! ### The loaders' copy (R96, R97) -/

/-- MemWrite(a + i, 1, bs[i]) for each i in order; the address wraps (R11). -/
def Memory.writeBytes (m : Memory) (a : Word) : List Byte → Memory
  | [] => m
  | v :: rest => (m.write8 a v).writeBytes (a + 1#32) rest

/-! ### LoadBinary (R96) -/

/-- The image at address 0; the entry point is 0. An image longer than 2^32 bytes has bytes R96 gives no address: byte i goes to
i mod 2^32 (DESIGN CHOICE, notes/assumptions/18.md). -/
def Memory.loadBinary (m : Memory) (image : List Byte) : Memory := (m.create 0#32 image.length).writeBytes 0#32 image

/-! ### LoadELF (R97, R98) -/

/-- The image's byte at a file offset, a 32-bit value whose sums wrap (R11); the loader reads only offsets inside the image. -/
def imageByte (image : List Byte) (o : Word) : Byte := image.getD o.toNat 0#8

/-- The `n` bytes at file offsets o, o + 1, ... lie inside the image. -/
def insideImage (image : List Byte) (o : Word) : Nat → Bool
  | 0 => true
  | n + 1 => decide (o.toNat < image.length) && insideImage image (o + 1#32) n

/-- The `n` bytes at file offsets o, o + 1, ... -/
def fileBytes (image : List Byte) (o : Word) : Nat → List Byte
  | 0 => []
  | n + 1 => imageByte image o :: fileBytes image (o + 1#32) n

/-- BE16(o). -/
def be16 (image : List Byte) (o : Word) : Half := imageByte image o ++ imageByte image (o + 1#32)

/-- BE32(o). -/
def be32 (image : List Byte) (o : Word) : Word :=
  imageByte image o ++ imageByte image (o + 1#32) ++ imageByte image (o + 2#32) ++ imageByte image (o + 3#32)

/-- The ELF32 header's length (R98). -/
def elfHeaderLength : Nat := 52

/-- The ELF32 program header's length (PRESUMED, notes/assumptions/9.md). -/
def programHeaderLength : Nat := 32

structure ProgramHeader where
  offset : Word
  vaddr  : Word
  filesz : Word
  memsz  : Word
deriving DecidableEq, Repr

/-- The program header at file offset `h`, none where one of its bytes lies outside the image. -/
def programHeader (image : List Byte) (h : Word) : Option ProgramHeader :=
  if insideImage image h programHeaderLength then
    some { offset := be32 image (h + 4#32), vaddr := be32 image (h + 8#32),
           filesz := be32 image (h + 16#32), memsz := be32 image (h + 20#32) }
  else none

/-- The segment's file bytes lie inside the image (R98): those R97 copies, image[p_offset + i]; a segment of no bytes always does
(notes/assumptions/9.md). -/
def ProgramHeader.inside (p : ProgramHeader) (image : List Byte) : Bool := insideImage image p.offset p.filesz.toNat

/-- The bytes of a segment, image[p_offset + i] for i = 0..p_filesz-1 (R97). -/
def ProgramHeader.bytes (p : ProgramHeader) (image : List Byte) : List Byte := fileBytes image p.offset p.filesz.toNat

/-- Create(p_vaddr, p_memsz), then the segment's bytes in file order (R97). -/
def ProgramHeader.load (p : ProgramHeader) (image : List Byte) (m : Memory) : Memory :=
  (m.create p.vaddr p.memsz.toNat).writeBytes p.vaddr (p.bytes image)

/-- The program headers at these file offsets, in order; `false` where one fails, with what the earlier ones changed (R98). -/
def loadHeaders (image : List Byte) : List Word → Memory → Memory × Bool
  | [], m => (m, true)
  | h :: rest, m =>
    match programHeader image h with
    | none => (m, false)
    | some p => if p.inside image then loadHeaders image rest (p.load image m) else (m, false)

/-- The file offset of program header `k`: e_phoff + k * e_phentsize (R97), which wraps (R11). -/
def headerOffset (image : List Byte) (k : Nat) : Word := be32 image 28#32 + BitVec.ofNat 32 k * (be16 image 42#32).setWidth 32

/-- The file offsets of the program headers, for 0 <= k < e_phnum (R97). -/
def headerOffsets (image : List Byte) : List Word := (List.range (be16 image 44#32).toNat).map (headerOffset image)

/-- LoadELF: the memory it leaves, and the entry point, none on failure (R97, R98). -/
def Memory.loadElf (m : Memory) (image : List Byte) : Memory × Option Word :=
  if image.length < elfHeaderLength then (m, none)
  else
    match loadHeaders image (headerOffsets image) m with
    | (m', true) => (m', some (be32 image 24#32))
    | (m', false) => (m', none)

/-! ### SetPC, breakpoints, Unload, dumps -/

/-- SetPC (R461): T is not inferred. -/
def State.setEntry (s : State) (entry : Word) : State := s.setPc entry

/-- An address put in its place in a strictly rising list, or left out where it stands already. -/
def insertAddr (a : Word) : List Word → List Word
  | [] => [a]
  | b :: rest =>
    if a.toNat < b.toNat then a :: b :: rest
    else if a = b then b :: rest
    else b :: insertAddr a rest

/-- The canonical form of the breakpoint set: addresses strictly rising. -/
def addrsWf : List Word → Bool
  | [] => true
  | a :: rest => rest.all (fun b => decide (a.toNat < b.toNat)) && addrsWf rest

/-- AddBreakpoint (R440). -/
def State.addBreakpoint (s : State) (a : Word) : State := { s with breakpoints := insertAddr a s.breakpoints }

/-- RemoveBreakpoint (R440). -/
def State.removeBreakpoint (s : State) (a : Word) : State := { s with breakpoints := s.breakpoints.filter (fun b => b != a) }

/-- Lookup of a breakpoint (R440). -/
def State.hasBreakpoint (s : State) (a : Word) : Bool := s.breakpoints.contains a

/-- Unload (R47, R462): x[0..15], CPSR and SPSR zero; memory, breakpoints and the recorded stop stay. -/
def State.unload (s : State) : State :=
  { s with regs := Vector.replicate 16 0#32, cpsr := 0#32, spsr := 0#32 }

/-- The register dump (R48). -/
structure RegDump where
  regs : List Word
  cpsr : Word
  spsr : Word
deriving DecidableEq, Repr

def State.dumpRegs (s : State) : RegDump := { regs := s.regs.toList, cpsr := s.cpsr, spsr := s.spsr }

/-- The stack dump (R48): MemRead(x[13] + 4k, 4) for k = 0..n-1, each by the rules of memory. -/
def State.dumpStack (s : State) (n : Nat) : List (Except AccessFault Word) :=
  (List.range n).map fun k => s.mem.read32 s.config.misaligned (s.reg 13#4 + BitVec.ofNat 32 (4 * k))

/-! ### Boot (R460) -/

/-- IMAGE (R9): mode `b` or `e`, and the bytes. -/
inductive Image where
  | binary (bytes : List Byte)
  | elf (bytes : List Byte)
deriving DecidableEq, Repr

/-- What the boot sequence comes to. -/
inductive Boot where
  | failed (left : State)   -- a load failure: no step is taken, and memory changed by the load stays (exit code 1)
  | ready (s : State)       -- the state at the start of the first step (R463)
deriving DecidableEq, Repr

/-- The load of step 2. -/
def Memory.loadImage (m : Memory) : Image → Memory × Option Word
  | .binary bytes => (m.loadBinary bytes, some 0#32)
  | .elf bytes => m.loadElf bytes

/-- Create(0xFFFFE000, 0x2000) (R99). -/
def Memory.createStack (m : Memory) : Memory := m.create 0xFFFFE000#32 0x2000

/-- Steps 1 to 5 of R460, from the created state with the parameters `cfg`. -/
def boot (cfg : Config) (image : Image) (bp : Option Word) : Boot :=
  let s := { State.reset with config := cfg }
  match s.mem.loadImage image with
  | (m, none) => .failed { s with mem := m }
  | (m, some entry) =>
    let s1 := ({ s with mem := m.createStack } : State).setEntry entry
    .ready (match bp with
      | none => s1
      | some a => s1.addBreakpoint a)

end Sys2Proof.Machine
end

