-- ==== Sys2Proof/Machine/Fetch.lean ====
section
/-! DEFINITION. Fetching an instruction (40_execution_cycle.md R170 to R174; 20_memory.md R91; 47_thumb_branch.md R404), and placing
an instruction where the next fetch reads it. -/

namespace Sys2Proof.Machine

/-- x[15] <- x[15] & 0xFFFFFFFE (R170). -/
def clearPcTag (s : State) : State := s.setPc (s.pc &&& 0xFFFFFFFE#32)

/-- The ARM fetch (R172, R91); on a fault x[15] has not advanced and no bits were fetched (R433). -/
def fetchArm (s : State) : Except Fault (Instr × State) :=
  match s.mem.read32 s.config.misaligned s.pc with
  | .error k => .error (stopFault k { ia := s.pc, bits := none } s)
  | .ok w => .ok (decodeArm w, s.setPc (s.pc + 4#32))

/-- The Thumb fetch (R172), and for a first halfword 11110 the pair's second at ia + 2 (R404). R405 says that second read cannot
straddle; in a space that ends at an odd address R90 makes it (DEDUCED, notes/assumptions/4.md). The meaning of the pair moves
x[15] past the second halfword (R405). -/
def fetchThumb (s : State) : Except Fault (Instr × State) :=
  match s.mem.read16 s.config.misaligned s.pc with
  | .error k => .error (stopFault k { ia := s.pc, bits := none } s)
  | .ok h =>
    let s1 := s.setPc (s.pc + 2#32)
    if isPairFirst h then
      match s1.mem.read16 s1.config.misaligned s1.pc with
      | .error k => .error (stopFault k { ia := s.pc, bits := some (.half h) } s1)
      | .ok h2 => .ok (decodeThumb h h2, s1)
    else .ok (decodeThumb h 0#16, s1)

/-- The fetch and decode that CPSR.T selects (R172, R173). -/
def fetch (s : State) : Except Fault (Instr × State) :=
  if s.t then fetchThumb s else fetchArm s

/-! ### Placing an instruction -/

/-- The bytes `bs` stored at `a` so that one access of their length at `a` reads them: where no space holds `a` a space of that
length is created, and a space that ends too early is made longer. -/
def placeChunk (a : Word) (bs : List Byte) (m : Memory) : Memory :=
  let m1 : Memory :=
    match m.lookup a with
    | none => m.create a bs.length
    | some sp =>
      if sp.top < a.toNat + bs.length then
        { spaces := updateFirst (fun sp => sp.contains a.toNat)
            (fun sp => { sp with size := a.toNat + bs.length - sp.vaddr.toNat }) m.spaces }
      else m
  m1.store a bs

/-- The instruction's bytes, access by access. -/
def placeCode (a : Word) (code : Code) (m : Memory) : Memory :=
  match code with
  | .arm _ => placeChunk a code.bytes m
  | .thumb _ => placeChunk a code.bytes m
  | .pair h h2 => placeChunk (a + 2#32) (Code.thumb h2).bytes (placeChunk a (Code.thumb h).bytes m)

/-- Where the next fetch reads: x[15] without bit 0 (R170), and for an ARM word without bit 1 (R89). -/
def placeAddr (code : Code) (s : State) : Word :=
  if code.isThumb then s.pc &&& 0xFFFFFFFE#32 else s.pc &&& 0xFFFFFFFC#32

/-- The state whose next step fetches exactly `code`: the bytes in memory at x[15], T as the code needs it, no breakpoint there and
no stop recorded. This stands for the load from outside (R460) that brings a program to run. -/
def placeInstr (code : Code) (s : State) : State :=
  let a := placeAddr code s
  { ((s.setT code.isThumb).setPc a).removeBreakpoint a with mem := placeCode a code s.mem, stop := none }

end Sys2Proof.Machine
end

