-- ==== Sys2Proof/Machine/Step.lean ====
section
/-! DEFINITION. One step of the block (40_execution_cycle.md R170 to R174), in the order of R439: the breakpoint, the fetch, and
the instruction. -/

namespace Sys2Proof.Machine

/-- One step. A block that has stopped on a fault or a refusal takes none and answers what it stopped on (R433, R434). -/
def step (s : State) : Result :=
  match s.stop with
  | some r => stopAgain r s
  | none =>
    let s0 := clearPcTag s
    if s0.hasBreakpoint s0.pc then .fault (.breakpoint s0.pc s0)
    else
      match fetch s0 with
      | .error f => .fault f
      | .ok (i, s1) => exec i s1

/-- The state whose next step runs the opcode-table word `w` of `nbits` bits. -/
def State.withFetchWord (s : State) (nbits w : Nat) : State := placeInstr (codeOfTableWord nbits w) s

end Sys2Proof.Machine
end

