-- ==== Sys2Proof/Machine/Run.lean ====
section
/-! DEFINITION. The run loop and the end of a run (40_execution_cycle.md R175, 60_exceptions.md R447, 70_reset_and_hazards.md
R460). -/

namespace Sys2Proof.Machine

/-- How a run ended (R447), with the number of Step calls made, the one that stopped it included. -/
inductive RunEnd where
  | budget (s : State)                       -- MAX_STEPS steps were taken
  | stopped (steps : Nat) (f : Fault)        -- a breakpoint or a model fault
  | refused (steps : Nat) (r : Refusal) (left : State)   -- a refusal, and the state it left
deriving DecidableEq, Repr

/-- The state a refusal leaves, where it says so; else the state it was answered in. -/
def refusalLeft (r : Refusal) (s : State) : State :=
  match r with
  | .unmodelled _ left => left
  | _ => s

/-- Up to `left` more Step calls, after `done` of them (R175). -/
def runLoop : (left done : Nat) → State → RunEnd
  | 0, _, s => .budget s
  | left + 1, done, s =>
    match step s with
    | .next s' => runLoop left (done + 1) s'
    | .fault f => .stopped (done + 1) f
    | .refused r => .refused (done + 1) r (refusalLeft r s)

/-- The state a run ends in. -/
def RunEnd.left : RunEnd → State
  | .budget s => s
  | .stopped _ f => f.left
  | .refused _ _ s => s

/-- What the host has after a run (R460 step 7): the state that is left, the two dumps where the run started, the exit code. -/
structure Report where
  left     : State
  regs     : Option RegDump
  stack    : List (Except AccessFault Word)
  exitCode : Nat
deriving Repr

/-- A whole run (R460). A load failure takes no step and exits with code 1; else the run, the dumps (eight stack words), every
space destroyed, and exit code 0. -/
def runProgram (cfg : Config) (image : Image) (maxSteps : Nat) (bp : Option Word) : Report :=
  match boot cfg image bp with
  | .failed s => { left := s, regs := none, stack := [], exitCode := 1 }
  | .ready s =>
    let t := (runLoop maxSteps 0 s).left
    { left := t.destroyAll, regs := some t.dumpRegs, stack := t.dumpStack 8, exitCode := 0 }

end Sys2Proof.Machine
end

