-- ==== Sys2Proof/Safety.lean ====
section
/-! DEFINITION. The words the statements are written in: a run that nothing stops, the accesses that happen, what an instruction
leaves unchanged, the invariant every step keeps, and the kinds of instruction. -/

namespace Sys2Proof.Machine

/-! ### Safe runs -/

/-- `n` Step calls, each answering a next state: no breakpoint, no model fault, no refusal (R438). -/
def SafeRun : Nat → State → Prop
  | 0, _ => True
  | n + 1, s => ∃ t, step s = .next t ∧ SafeRun n t

/-- `n` Step calls, each answering a next state, lead from `s` to `t`. -/
def StepsTo : Nat → State → State → Prop
  | 0, s, t => t = s
  | n + 1, s, t => ∃ u, step s = .next u ∧ StepsTo n u t

/-! ### The invariant -/

/-- Memory and the breakpoint set are in their canonical form (notes/assumptions/6.md and 12.md). -/
def State.Inv (s : State) : Prop := s.mem.wf = true ∧ addrsWf s.breakpoints = true

/-- The address map: where the spaces lie, without their bytes. -/
def Memory.layout (m : Memory) : List (Word × Nat) := m.spaces.map fun sp => (sp.vaddr, sp.size)

/-! ### Accesses -/

/-- Neither R89 nor R90 stops an `n`-byte access at `a`. -/
def State.accessOk (s : State) (a : Word) (n : Nat) : Prop :=
  (s.config.misaligned = .fault → a.toNat % n = 0) ∧ ∀ sp, s.mem.lookup a = some sp → a.toNat + n ≤ sp.top

/-- Some space contains the address (R71). -/
def State.mapped (s : State) (a : Word) : Prop := (s.mem.lookup a).isSome = true

/-- MemRead(a, 4) under the state's MISALIGNED_POLICY. -/
def State.word (s : State) (a : Word) : Except AccessFault Word := s.mem.read32 s.config.misaligned a

/-- MemRead(a, 2). -/
def State.half (s : State) (a : Word) : Except AccessFault Half := s.mem.read16 s.config.misaligned a

/-- MemRead(a, 1). -/
def State.byte (s : State) (a : Word) : Byte := s.mem.read8 a

/-- `b` is one of the `n` bytes from `a` on. -/
def inBytes (a : Word) (n : Nat) (b : Word) : Prop := a.toNat ≤ b.toNat ∧ b.toNat < a.toNat + n

/-! ### Frames -/

/-- Every register but those listed is as it was. -/
def regsKept (changed : List RegNum) (s t : State) : Prop := ∀ r, r ∉ changed → t.reg r = s.reg r

/-- Every bit of the CPSR but those listed is as it was. -/
def cpsrKept (changed : List Nat) (s t : State) : Prop := ∀ k, k ∉ changed → t.cpsr.getLsbD k = s.cpsr.getLsbD k

/-- Every byte of memory reads as it did. -/
def bytesKept (s t : State) : Prop := ∀ b, t.byte b = s.byte b

/-- Every byte of memory outside the `n` bytes from `a` on reads as it did. -/
def bytesKeptOutside (a : Word) (n : Nat) (s t : State) : Prop := ∀ b, ¬inBytes a n b → t.byte b = s.byte b

/-- SPSR, the breakpoint set, the recorded stop and the parameters are as they were. -/
def restKept (s t : State) : Prop :=
  t.spsr = s.spsr ∧ t.breakpoints = s.breakpoints ∧ t.stop = s.stop ∧ t.config = s.config

/-- `i` completes in `s`, and the next state is as `P` says. -/
def Completes (i : Instr) (s : State) (P : State → Prop) : Prop := ∃ t, exec i s = .next t ∧ P t

/-! ### Kinds of instruction -/

/-- The condition of an ARM instruction; the row of 1111 and the Thumb instructions have none. -/
def condOf : Instr → Option Cond
  | .armBx c _ | .armBlxReg c _ | .armBxExt c _ _ | .armSwi c _ | .armExtDp c _ _ _ _ _ _ _ => some c
  | .armMrs c _ _ _ _ | .armMsr c _ _ _ | .armMrs2 c _ _ _ _ | .armMsr2 c _ _ _ _ => some c
  | .armAnd c _ _ _ _ | .armEor c _ _ _ _ | .armSub c _ _ _ _ | .armRsb c _ _ _ _ => some c
  | .armAdd c _ _ _ _ | .armAdc c _ _ _ _ | .armSbc c _ _ _ _ | .armRsc c _ _ _ _ => some c
  | .armTst c _ _ _ | .armTeq c _ _ _ | .armCmp c _ _ _ | .armCmn c _ _ _ => some c
  | .armOrr c _ _ _ _ | .armMov c _ _ _ _ | .armBic c _ _ _ _ | .armMvn c _ _ _ _ => some c
  | .armLdrLit c _ _ _ _ _ _ _ | .armExtTransfer c _ _ _ _ _ _ _ _ _ _ => some c
  | .armStr c _ _ _ _ _ _ | .armLdr c _ _ _ _ _ _ | .armStrb c _ _ _ _ _ _ | .armLdrb c _ _ _ _ _ _ => some c
  | .armStm c _ _ _ _ _ _ | .armLdm c _ _ _ _ _ _ => some c
  | .armB c _ | .armBl c _ | .armCoproc c _ | .armUnknown c _ => some c
  | _ => none

/-- The encodings of R139, R375 and R401, the R15-based loads with I = 1 and w[4] = 1 among them. -/
def isExtension : Instr → Bool
  | .armLdrLit _ i _ _ _ _ _ imm12 => i && imm12.getLsbD 4
  | .armBxExt _ _ _ | .armExtDp _ _ _ _ _ _ _ _ | .armExtTransfer _ _ _ _ _ _ _ _ _ _ _ => true
  | .tExtHalf _ _ _ _ | .tBxExt _ _ => true
  | _ => false

/-- The instructions that replace the CPSR: MSR, and the extension words that execute as MSR (R250). -/
def replacesCpsr : Instr → Bool
  | .armMsr _ _ _ _ => true
  | .armExtDp _ op s _ _ _ _ _ => op == 9#4 && !s
  | _ => false

/-- The instructions that read the whole CPSR: MRS, and the extension words that execute as MRS (R250). -/
def readsCpsr : Instr → Bool
  | .armMrs _ _ _ _ _ => true
  | .armExtDp _ op s _ _ _ _ _ => op == 8#4 && !s
  | _ => false

/-- The instructions R181 lists, with the extension words that execute as one of them. -/
def mayWriteT : Instr → Bool
  | .armBx _ _ | .armBlxReg _ _ | .armBxExt _ _ _ | .tBx _ _ | .tBxExt _ _ | .tBlx _ _ _ _ => true
  | .tPop r _ => r
  | i => replacesCpsr i

/-- The instructions R433 lists, with the extension words that execute as one of them. -/
def accessesWide : Instr → Bool
  | .armLdr _ _ _ _ _ _ _ | .armStr _ _ _ _ _ _ _ | .armLdm _ _ _ _ _ _ _ | .armStm _ _ _ _ _ _ _ => true
  | .armLdrLit _ _ _ _ b _ _ _ => !b
  | .armExtTransfer _ _ _ b _ _ _ _ _ _ _ => !b
  | .tLdrPc _ _ | .tStrReg _ _ _ | .tLdrReg _ _ _ | .tStrImm _ _ _ | .tLdrImm _ _ _ | .tStrSp _ _ | .tLdrSp _ _ => true
  | .tStrhImm _ _ _ | .tLdrhImm _ _ _ | .tPush _ _ | .tPop _ _ | .tStmia _ _ | .tLdmia _ _ => true
  | _ => false

end Sys2Proof.Machine
end

