-- ==== Sys2Proof/Certificates/Slice0/Obligations.lean ====
section
/-! DEFINITION. The statements for the provers. The first part names what several of them say; the obligations follow, from the
encodings to the instructions. `a`, `b` are words, `s` the state an instruction starts in (x[15] one width past the instruction,
R172), `t` the state it leaves. -/

open Sys2Proof Sys2Proof.Machine

namespace Sys2Proof.Machine

/-! ### Effects -/

/-- Only `rd` is written, with `r`; of the rest of the state only CPSR bits may differ. -/
def writesReg (rd : RegNum) (r : Word) (s t : State) : Prop :=
  t.reg rd = r ∧ regsKept [rd] s t ∧ bytesKept s t ∧ restKept s t

/-- N and Z are those of `r` (R205). -/
def nzOf (r : Word) (t : State) : Prop := t.n = r.getLsbD 31 ∧ t.z = decide (r = 0#32)

/-- The four flags are those of `f`, and no other CPSR bit is written. -/
def flagsAre (f : Nzcv) (s t : State) : Prop :=
  t.n = f.n ∧ t.z = f.z ∧ t.c = f.c ∧ t.v = f.v ∧ cpsrKept [31, 30, 29, 28] s t

/-- The C the shifter of operand 2 leaves when S = 1 (R231, R233). -/
def operand2C (o : Operand2) (s : State) : Bool := (operand2Carry o s).getD s.c

/-- The carry-in of ADC, SBC and RSC: read after operand 2 is formed (R208, R239). -/
def carryIn (sbit : Bool) (o : Operand2) (s : State) : Bool := if sbit then operand2C o s else s.c

/-- Rd gets `r`; with S = 1, N and Z of `r`, C as the shifter leaves it and V as it was, with S = 0 no flag (R233). -/
def LogicEffect (i : Instr) (sbit : Bool) (rd : RegNum) (r : Word) (o : Operand2) (s : State) : Prop :=
  Completes i s fun t =>
    writesReg rd r s t ∧
    (sbit = false → t.cpsr = s.cpsr) ∧
    (sbit = true → nzOf r t ∧ t.c = operand2C o s ∧ cpsrKept [31, 30, 29] s t)

/-- Rd gets `r`; with S = 1 the four flags `f`, with S = 0 none. -/
def ArithEffect (i : Instr) (sbit : Bool) (rd : RegNum) (r : Word) (f : Nzcv) (s : State) : Prop :=
  Completes i s fun t =>
    writesReg rd r s t ∧ (sbit = false → t.cpsr = s.cpsr) ∧ (sbit = true → flagsAre f s t)

/-- No register is written; the four flags are `f`. -/
def CompareEffect (i : Instr) (f : Nzcv) (s : State) : Prop :=
  Completes i s fun t => regsKept [] s t ∧ flagsAre f s t ∧ bytesKept s t ∧ restKept s t

/-- No register is written; N and Z are those of `r`, C is `c`, V as it was. -/
def TestEffect (i : Instr) (r : Word) (c : Bool) (s : State) : Prop :=
  Completes i s fun t =>
    regsKept [] s t ∧ nzOf r t ∧ t.c = c ∧ cpsrKept [31, 30, 29] s t ∧ bytesKept s t ∧ restKept s t

/-- Rd gets `r`, and N and Z are those of `r`; C is `c`, V as it was. -/
def NzEffect (i : Instr) (rd : RegNum) (r : Word) (c : Bool) (s : State) : Prop :=
  Completes i s fun t => writesReg rd r s t ∧ nzOf r t ∧ t.c = c ∧ cpsrKept [31, 30, 29] s t

/-- Rd gets `r` and no flag is written. -/
def RegEffect (i : Instr) (rd : RegNum) (r : Word) (s : State) : Prop :=
  Completes i s fun t => writesReg rd r s t ∧ t.cpsr = s.cpsr

/-- x[15] gets `v`, T gets `tbit`, and where `link` is given x[14] gets it. -/
def BranchEffect (i : Instr) (v : Word) (tbit : Bool) (link : Option Word) (s : State) : Prop :=
  Completes i s fun t =>
    t.pc = v ∧ t.t = tbit ∧ (∀ l, link = some l → t.reg 14#4 = l) ∧
    regsKept (if link.isSome then [14#4, 15#4] else [15#4]) s t ∧ cpsrKept [5] s t ∧ bytesKept s t ∧ restKept s t

/-- Where the base is written back (R271): P = 0 or W = 1. -/
def wb (p w : Bool) : Bool := !p || w

/-- The C that a register offset's shifter leaves when w[20] = 1 (R271, R207). -/
def offsetC (off : Offset) (s : State) : Bool :=
  match off with
  | .imm _ => s.c
  | .reg amount ty rm => (shiftCarry ty amount.toNat (s.reg rm)).getD s.c

/-- A load of `v` into Rd with the base register Rn written back to `target` where `back` holds (R277); C is `c`. -/
def LoadEffect (i : Instr) (rd : RegNum) (v : Word) (back : Bool) (rn : RegNum) (target : Word) (c : Bool) (s : State) : Prop :=
  Completes i s fun t =>
    (¬(back = true ∧ rd = rn) → t.reg rd = v) ∧ (back = true → t.reg rn = target) ∧
    regsKept (if back then [rd, rn] else [rd]) s t ∧ t.c = c ∧ cpsrKept [29] s t ∧ bytesKept s t ∧ restKept s t

/-- A store of the `n` bytes of `v` at `a`, with the base register Rn written back to `target` where `back` holds. Where a space
contains `a` the bytes read back as `v`; where none does, no byte changes (R88). -/
def StoreEffect (i : Instr) (a : Word) (n : Nat) (v : Word) (back : Bool) (rn : RegNum) (target : Word) (s : State) : Prop :=
  Completes i s fun t =>
    (back = true → t.reg rn = target) ∧ regsKept (if back then [rn] else []) s t ∧ t.cpsr = s.cpsr ∧
    (∀ b, ¬inBytes a n b → t.byte b = s.byte b) ∧
    (s.mapped a → (n = 1 → t.byte a = v.extractLsb' 0 8) ∧ (n = 2 → t.half a = .ok (v.extractLsb' 0 16)) ∧
      (n = 4 → t.word a = .ok v)) ∧
    (¬s.mapped a → bytesKept s t) ∧ restKept s t

/-! ### Register lists -/

/-- How many registers below `r` a list names: the place of `r` among the transfers. -/
def placeOf (list : BitVec 16) (r : Nat) : Nat := ((List.range r).filter fun k => list.getLsbD k).length

/-- BitCount(list). -/
def bitCount (list : BitVec 16) : Nat := placeOf list 16

/-- The address of the word of register `r` in a transfer that starts at `start`. -/
def slot (list : BitVec 16) (start : Word) (r : RegNum) : Word := start + BitVec.ofNat 32 (4 * placeOf list r.toNat)

/-- `r` is in the list. -/
def listed (list : BitVec 16) (r : RegNum) : Prop := list.getLsbD r.toNat = true

/-- PUSH's list: the low registers, and LR with R = 1. -/
def pushMask (r : Bool) (rlist : BitVec 8) : BitVec 16 := rlist.setWidth 16 ||| (if r then 0x4000#16 else 0#16)

/-- Every listed register's word can be accessed. -/
def slotsOk (list : BitVec 16) (start : Word) (s : State) : Prop := ∀ r, listed list r → s.accessOk (slot list start r) 4

/-- The listed registers are loaded, each from its word; then the base register is `final` where `back` holds. -/
def LoadManyEffect (i : Instr) (list : BitVec 16) (start : Word) (back : Bool) (rn : RegNum) (final : Word) (s : State) : Prop :=
  Completes i s fun t =>
    (∀ r, listed list r → ¬(back = true ∧ r = rn) → s.word (slot list start r) = .ok (t.reg r)) ∧
    (back = true → t.reg rn = final) ∧
    (∀ r, ¬listed list r → ¬(back = true ∧ r = rn) → t.reg r = s.reg r) ∧
    t.cpsr = s.cpsr ∧ bytesKept s t ∧ restKept s t

/-- The listed registers are stored, each to its word; then the base register is `final` where `back` holds. -/
def StoreManyEffect (i : Instr) (list : BitVec 16) (start : Word) (back : Bool) (rn : RegNum) (final : Word) (s : State) : Prop :=
  Completes i s fun t =>
    (∀ r, listed list r → s.mapped (slot list start r) → t.word (slot list start r) = .ok (s.reg r)) ∧
    (∀ b, (∀ r, listed list r → ¬inBytes (slot list start r) 4 b) → t.byte b = s.byte b) ∧
    (back = true → t.reg rn = final) ∧ regsKept (if back then [rn] else []) s t ∧ t.cpsr = s.cpsr ∧ restKept s t

/-! ### Stops -/

/-- The instruction's address and bits, as a fault or a refusal records them (R433). -/
def siteIn (i : Instr) (s : State) : Site :=
  { ia := if i.isThumb then s.pc - 2#32 else s.pc - 4#32
    bits := match encode i with
      | .arm w => some (.word w)
      | .thumb h => some (.half h)
      | .pair h _ => some (.half h) }

/-- The fault is recorded, nothing but the record, registers, CPSR and memory may differ, and the rest is as `P` says. -/
def LeftBy (k : AccessFault) (site : Site) (P : State → Prop) (s left : State) : Prop :=
  left.stop = some (.fault k site) ∧ left.spsr = s.spsr ∧ left.breakpoints = s.breakpoints ∧ left.config = s.config ∧ P left

/-- `i` stops on its `n`-byte access at `a`: on a misaligned address under `fault`, and else where the access runs past its space
(R89, R90, R439). The state it leaves is as `P` says, and the fault is recorded. -/
def StopsWith (i : Instr) (a : Word) (n : Nat) (s : State) (P : State → Prop) : Prop :=
  (s.config.misaligned = .fault → a.toNat % n ≠ 0 →
    ∃ left, exec i s = .fault (.misaligned a n (siteIn i s) left) ∧ LeftBy (.misaligned a n) (siteIn i s) P s left) ∧
  (∀ sp, (s.config.misaligned = .fault → a.toNat % n = 0) → s.mem.lookup a = some sp → sp.top < a.toNat + n →
    ∃ left, exec i s = .fault (.straddle a n (siteIn i s) left) ∧ LeftBy (.straddle a n) (siteIn i s) P s left)

/-- A single transfer that stops has written no register and no byte; C is `c`, which the offset's shifter wrote before (R271,
R433). -/
def StopsOnAccess (i : Instr) (a : Word) (n : Nat) (c : Bool) (s : State) : Prop :=
  StopsWith i a n s fun left => regsKept [] s left ∧ left.c = c ∧ cpsrKept [29] s left ∧ bytesKept s left

/-- The listed registers below number `r` are loaded, and nothing else is written. -/
def LoadedBelow (list : BitVec 16) (start : Word) (r : Nat) (s left : State) : Prop :=
  (∀ q, listed list q → q.toNat < r → s.word (slot list start q) = .ok (left.reg q)) ∧
  (∀ q, ¬(listed list q ∧ q.toNat < r) → left.reg q = s.reg q) ∧ left.cpsr = s.cpsr ∧ bytesKept s left

/-- The listed registers below number `r` are stored, and nothing else is written. -/
def StoredBelow (list : BitVec 16) (start : Word) (r : Nat) (s left : State) : Prop :=
  (s.mem.wf = true → ∀ q, listed list q → q.toNat < r → s.mapped (slot list start q) →
    left.word (slot list start q) = .ok (s.reg q)) ∧
  (∀ b, (∀ q, listed list q → q.toNat < r → ¬inBytes (slot list start q) 4 b) → left.byte b = s.byte b) ∧
  regsKept [] s left ∧ left.cpsr = s.cpsr

/-- The first access of a multiple transfer that cannot happen, that of register `r`, ends it: the registers below were
transferred, and the base register is not written (R284, R384, R433). -/
def StopsAt (i : Instr) (list : BitVec 16) (start : Word) (r : RegNum) (s : State)
    (below : BitVec 16 → Word → Nat → State → State → Prop) : Prop :=
  listed list r → (∀ q, listed list q → q.toNat < r.toNat → s.accessOk (slot list start q) 4) →
    StopsWith i (slot list start r) 4 s (below list start r.toNat s)

/-! ### Segments of an ELF image (R97) -/

/-- The file offset of program header `k`, a 32-bit sum (R11). -/
def headerAt (image : List Byte) (k : Nat) : Word := be32 image 28#32 + BitVec.ofNat 32 (k * (be16 image 42#32).toNat)

/-- p_offset, p_vaddr, p_filesz and p_memsz of program header `k`. -/
def segOffset (image : List Byte) (k : Nat) : Word := be32 image (headerAt image k + 4#32)
def segVaddr (image : List Byte) (k : Nat) : Nat := (be32 image (headerAt image k + 8#32)).toNat
def segFilesz (image : List Byte) (k : Nat) : Nat := (be32 image (headerAt image k + 16#32)).toNat
def segMemsz (image : List Byte) (k : Nat) : Nat := (be32 image (headerAt image k + 20#32)).toNat

/-! ### Agreement up to the mode bits -/

/-- The states agree but for the SPSR and the CPSR's bits 27..6 and 4..0. -/
def alikeUpToMode (s t : State) : Prop :=
  t.regs = s.regs ∧ t.mem = s.mem ∧ t.breakpoints = s.breakpoints ∧ t.stop = s.stop ∧ t.config = s.config ∧
    ∀ k, k = 31 ∨ k = 30 ∨ k = 29 ∨ k = 28 ∨ k = 5 → t.cpsr.getLsbD k = s.cpsr.getLsbD k

/-- The outcomes are of one kind, for one reason, with states that agree so. -/
def outcomesAlike : Result → Result → Prop
  | .next s, .next t => alikeUpToMode s t
  | .fault (.breakpoint a s), .fault (.breakpoint b t) => a = b ∧ alikeUpToMode s t
  | .fault (.misaligned a n x s), .fault (.misaligned b m y t) => a = b ∧ n = m ∧ x = y ∧ alikeUpToMode s t
  | .fault (.straddle a n x s), .fault (.straddle b m y t) => a = b ∧ n = m ∧ x = y ∧ alikeUpToMode s t
  | .refused (.unmodelled x s), .refused (.unmodelled y t) => x = y ∧ alikeUpToMode s t
  | _, _ => False

end Sys2Proof.Machine

/-! ### Encodings -/

/-- Decode and encode agree: no bit of a well-formed instruction is lost. -/
def Obligations.DecodeOfEncodeIsTheInstruction : Prop :=
  ∀ i : Instr, i.wf = true → (encode i).decode = i

/-- Every word and every halfword (a first halfword 11110 with the one after it) is the encoding of what it decodes to, which is
well-formed and of its own instruction set. -/
def Obligations.EncodeOfDecodeIsTheWord : Prop :=
  (∀ w : Word, encode (decodeArm w) = .arm w ∧ (decodeArm w).wf = true ∧ (decodeArm w).isThumb = false) ∧
  ∀ h h2 : Half, encode (decodeThumb h h2) = (if isPairFirst h then .pair h h2 else .thumb h) ∧
    (decodeThumb h h2).wf = true ∧ (decodeThumb h h2).isThumb = true

/-- The bytes of a word, halfword or pair decode as it does and leave the bytes after them; too few bytes are refused by name. -/
def Obligations.BytesDecodeAsTheirWords : Prop :=
  (∀ (w : Word) rest, decodeBytes false ((Code.arm w).bytes ++ rest) = .ok (decodeArm w, rest)) ∧
  (∀ (h : Half) rest, isPairFirst h = false → decodeBytes true ((Code.thumb h).bytes ++ rest) = .ok (decodeThumb h 0#16, rest)) ∧
  (∀ (h h2 : Half) rest, isPairFirst h = true →
    decodeBytes true ((Code.pair h h2).bytes ++ rest) = .ok (decodeThumb h h2, rest)) ∧
  (∀ bs, bs.length < 4 → decodeBytes false bs = .error .truncatedArm) ∧
  (∀ bs, bs.length < 2 → decodeBytes true bs = .error .truncatedThumb) ∧
  (∀ h : Half, isPairFirst h = true → ∀ rest, rest.length < 2 →
    decodeBytes true ((Code.thumb h).bytes ++ rest) = .error .truncatedPair)

/-- Words of the spec's own examples decode to the instructions they stand for. -/
def Obligations.SpecWordsDecodeToTheirInstructions : Prop :=
  decodeArm 0xE0902001#32 = .armAdd .al true 0#4 2#4 (.reg 0#5 .lsl 1#4) ∧
  decodeArm 0xE12FFF31#32 = .armBlxReg .al 1#4 ∧
  decodeArm 0xE7910102#32 = .armLdr .al true true false 1#4 0#4 (.reg 2#5 .lsl 2#4) ∧
  decodeArm 0xE8BD8003#32 = .armLdm .al false true false true 13#4 0x8003#16 ∧
  decodeThumb 0x17C8#16 0#16 = .tAsrImm 31#5 1#3 0#3 ∧
  decodeThumb 0x4686#16 0#16 = .tMovHigh 14#4 0#4 ∧
  decodeThumb 0xBD03#16 0#16 = .tPop true 3#8 ∧
  decodeThumb 0xF000#16 0xE87E#16 = .tBlx 0#11 7#3 1#1 0x07E#11

/-! ### The step -/

/-- An ARM step runs the word at x[15] (bit 0 cleared), with x[15] already 4 past it. -/
def Obligations.ArmStepRunsTheFetchedWord : Prop :=
  ∀ (s : State) (w : Word), s.stop = none → s.t = false → (s.pc &&& 0xFFFFFFFE#32) ∉ s.breakpoints →
    s.word (s.pc &&& 0xFFFFFFFE#32) = .ok w →
    step s = exec (decodeArm w) (s.setPc ((s.pc &&& 0xFFFFFFFE#32) + 4#32))

/-- A Thumb step runs the halfword at x[15] (bit 0 cleared), a pair with the halfword after it, with x[15] already 2 past it. -/
def Obligations.ThumbStepRunsTheFetchedHalfwords : Prop :=
  ∀ (s : State) (h : Half), s.stop = none → s.t = true → (s.pc &&& 0xFFFFFFFE#32) ∉ s.breakpoints →
    s.half (s.pc &&& 0xFFFFFFFE#32) = .ok h →
    (isPairFirst h = false →
      step s = exec (decodeThumb h 0#16) (s.setPc ((s.pc &&& 0xFFFFFFFE#32) + 2#32))) ∧
    (∀ h2, isPairFirst h = true → s.half ((s.pc &&& 0xFFFFFFFE#32) + 2#32) = .ok h2 →
      step s = exec (decodeThumb h h2) (s.setPc ((s.pc &&& 0xFFFFFFFE#32) + 2#32)))

/-- R174: a breakpoint at the instruction's address halts the step, and nothing but bit 0 of x[15] has changed (R170); so it halts
again. -/
def Obligations.BreakpointHaltsBeforeTheFetch : Prop :=
  ∀ s : State, s.stop = none → (s.pc &&& 0xFFFFFFFE#32) ∈ s.breakpoints →
    step s = .fault (.breakpoint (s.pc &&& 0xFFFFFFFE#32) (s.setPc (s.pc &&& 0xFFFFFFFE#32))) ∧
    step (s.setPc (s.pc &&& 0xFFFFFFFE#32)) = step s

/-- A fetch that cannot happen stops the step (R91, R90): an ARM fetch or a first halfword with x[15] at the instruction and no
bits recorded; a pair's second halfword with x[15] 2 past it and the first halfword recorded. What a failed Thumb fetch leaves is
the model's choice (notes/assumptions/3.md, 4.md). -/
def Obligations.FailedFetchStopsTheStep : Prop :=
  ∀ s : State, s.stop = none → (s.pc &&& 0xFFFFFFFE#32) ∉ s.breakpoints →
    let ia := s.pc &&& 0xFFFFFFFE#32
    (∀ k, s.t = false → s.word ia = .error k →
      step s = .fault (stopFault k { ia := ia, bits := none } (s.setPc ia))) ∧
    (∀ k, s.t = true → s.half ia = .error k →
      step s = .fault (stopFault k { ia := ia, bits := none } (s.setPc ia))) ∧
    (∀ k h, s.t = true → s.half ia = .ok h → isPairFirst h = true → s.half (ia + 2#32) = .error k →
      step s = .fault (stopFault k { ia := ia, bits := some (.half h) } (s.setPc (ia + 2#32)))) ∧
    (s.config.misaligned = .fault → ia.toNat % 4 = 2 → s.word ia = .error (.misaligned ia 4)) ∧
    (∀ a n, s.half ia ≠ .error (.misaligned a n))

/-- R433, R434: a block that has stopped on a fault or a refusal takes no further step; that it answers the same again is the
model's choice (notes/assumptions/2.md). A state that answers a next state had not stopped, and has not. R175, R447: a run takes
MAX_STEPS steps, or ends at the first step that does not continue, that step counted. -/
def Obligations.StoppedBlockTakesNoStep : Prop :=
  (∀ s site a n, s.stop = some (.fault (.misaligned a n) site) → step s = .fault (.misaligned a n site s)) ∧
  (∀ s site a n, s.stop = some (.fault (.straddle a n) site) → step s = .fault (.straddle a n site s)) ∧
  (∀ s site, s.stop = some (.refusal site) → step s = .refused (.unmodelled site s)) ∧
  (∀ s t, step s = .next t → s.stop = none ∧ t.stop = none) ∧
  (∀ n s, SafeRun n s ↔ ∃ t, StepsTo n s t) ∧
  (∀ n s, SafeRun n s ∨ ∃ k t, k < n ∧ StepsTo k s t ∧ ∀ u, step t ≠ .next u) ∧
  (∀ n s t, StepsTo n s t → runLoop n 0 s = .budget t) ∧
  (∀ n k s t f, k < n → StepsTo k s t → step t = .fault f → runLoop n 0 s = .stopped (k + 1) f) ∧
  (∀ n k s t r, k < n → StepsTo k s t → step t = .refused r → runLoop n 0 s = .refused (k + 1) r (refusalLeft r t))

/-- R177: an ARM instruction whose condition fails changes nothing. -/
def Obligations.FailedConditionChangesNothing : Prop :=
  ∀ (i : Instr) (c : Cond) (s : State), condOf i = some c → condHolds c s = false → exec i s = .next s

/-- R178: the condition table, by the four bits of each condition, and the Thumb conditional branch by the same table. -/
def Obligations.ConditionTable : Prop :=
  ∀ s : State,
    (∀ c, Cond.ofBits 0#4 = some c → (condHolds c s = true ↔ s.cpsr.getLsbD 30 = true)) ∧
    (∀ c, Cond.ofBits 1#4 = some c → (condHolds c s = true ↔ s.cpsr.getLsbD 30 = false)) ∧
    (∀ c, Cond.ofBits 2#4 = some c → (condHolds c s = true ↔ s.cpsr.getLsbD 29 = true)) ∧
    (∀ c, Cond.ofBits 3#4 = some c → (condHolds c s = true ↔ s.cpsr.getLsbD 29 = false)) ∧
    (∀ c, Cond.ofBits 4#4 = some c → (condHolds c s = true ↔ s.cpsr.getLsbD 31 = true)) ∧
    (∀ c, Cond.ofBits 5#4 = some c → (condHolds c s = true ↔ s.cpsr.getLsbD 31 = false)) ∧
    (∀ c, Cond.ofBits 6#4 = some c → (condHolds c s = true ↔ s.cpsr.getLsbD 28 = true)) ∧
    (∀ c, Cond.ofBits 7#4 = some c → (condHolds c s = true ↔ s.cpsr.getLsbD 28 = false)) ∧
    (∀ c, Cond.ofBits 8#4 = some c → (condHolds c s = true ↔ s.cpsr.getLsbD 29 = true ∧ s.cpsr.getLsbD 30 = false)) ∧
    (∀ c, Cond.ofBits 9#4 = some c → (condHolds c s = true ↔ s.cpsr.getLsbD 29 = false ∨ s.cpsr.getLsbD 30 = true)) ∧
    (∀ c, Cond.ofBits 10#4 = some c → (condHolds c s = true ↔ s.cpsr.getLsbD 31 = s.cpsr.getLsbD 28)) ∧
    (∀ c, Cond.ofBits 11#4 = some c → (condHolds c s = true ↔ s.cpsr.getLsbD 31 ≠ s.cpsr.getLsbD 28)) ∧
    (∀ c, Cond.ofBits 12#4 = some c →
      (condHolds c s = true ↔ s.cpsr.getLsbD 30 = false ∧ s.cpsr.getLsbD 31 = s.cpsr.getLsbD 28)) ∧
    (∀ c, Cond.ofBits 13#4 = some c →
      (condHolds c s = true ↔ s.cpsr.getLsbD 30 = true ∨ s.cpsr.getLsbD 31 ≠ s.cpsr.getLsbD 28)) ∧
    (∀ c, Cond.ofBits 14#4 = some c → condHolds c s = true) ∧
    (Cond.ofBits 15#4 = none ∧ ∀ low : BitVec 28, exec (.armCondNever low) s = .next s) ∧
    (∀ b : BitVec 4, b ≠ 15#4 → ∃ c, Cond.ofBits b = some c) ∧
    ∀ c imm8, exec (.tBcond c imm8) s =
      if condHolds c s = true then .next (s.setPc (s.pc + 2#32 + thumbCondOffset imm8)) else .next s

/-! ### What every step keeps -/

/-- Every step keeps memory and the breakpoint set in their canonical form (the model's: notes/assumptions/6.md, 12.md). -/
def Obligations.StepKeepsTheInvariant : Prop :=
  ∀ s t : State, s.Inv → step s = .next t → t.Inv

/-- The created state meets the invariant, and so does what every host operation (R446) makes of any state that does: Unload,
Create, Destroy, MemWrite at its three widths, Memcpy, the loaders, SetPC and the breakpoint operations. The dumps, MemRead and
Lookup change no state. -/
def Obligations.HostOperationsKeepTheInvariant : Prop :=
  State.reset.Inv ∧
  ∀ s : State, s.Inv →
    s.unload.Inv ∧ s.destroyAll.Inv ∧
    (∀ a, (s.destroy a).Inv ∧ (s.addBreakpoint a).Inv ∧ (s.removeBreakpoint a).Inv ∧ (s.setEntry a).Inv) ∧
    (∀ a n, (s.create a n).Inv) ∧ (∀ a bs, (s.copyIn a bs).Inv) ∧
    (∀ a v, ({ s with mem := s.mem.write8 a v } : State).Inv) ∧
    (∀ a v m, s.mem.write16 s.config.misaligned a v = .ok m → ({ s with mem := m } : State).Inv) ∧
    (∀ a v m, s.mem.write32 s.config.misaligned a v = .ok m → ({ s with mem := m } : State).Inv) ∧
    (∀ image, ({ s with mem := (s.mem.loadImage image).1 } : State).Inv)

/-- No step writes the SPSR (R41), the breakpoint set (R44), the parameters, or the address map (R73). -/
def Obligations.NoStepWritesSpsrBreakpointsOrMap : Prop :=
  ∀ s t : State, step s = .next t →
    t.spsr = s.spsr ∧ t.breakpoints = s.breakpoints ∧ t.config = s.config ∧ t.mem.layout = s.mem.layout

/-- R40, R181: T changes only by BX, BLX, MSR, POP with PC and the BLX pair. -/
def Obligations.OnlyTheListedInstructionsChangeT : Prop :=
  ∀ (i : Instr) (s t : State), exec i s = .next t → t.t ≠ s.t → mayWriteT i = true

/-- R39, R42, R43: I, F, M and the reserved bits change only by MSR. -/
def Obligations.OnlyMsrChangesTheModeAndReservedBits : Prop :=
  ∀ (i : Instr) (s t : State), exec i s = .next t → replacesCpsr i = false → cpsrKept [31, 30, 29, 28, 5] s t

/-- R433: only the listed instructions fault, and a byte access never does. -/
def Obligations.OnlyTheListedInstructionsFault : Prop :=
  ∀ (i : Instr) (s : State) (f : Fault), exec i s = .fault f →
    accessesWide i = true ∧ ∀ ia left, f ≠ .breakpoint ia left

/-- R434: a refusal is the answer to an extension encoding under `refuse`, with nothing changed but the record; and such an
encoding is refused whenever its condition passes. That an R15-based load with I = 1 and w[4] = 1 is one of them, though the opcode
table gives it the literal row, is the model's reading (DEDUCED, notes/assumptions/17.md). -/
def Obligations.RefusalsAreTheExtensionEncodings : Prop :=
  (∀ (i : Instr) (s : State) (r : Refusal), exec i s = .refused r → isExtension i = true ∧ s.config.extension = .refuse) ∧
  (∀ (i : Instr) (s : State), isExtension i = true → s.config.extension = .refuse →
    (∀ c, condOf i = some c → condHolds c s = true) →
    exec i s = .refused (.unmodelled (siteIn i s) { s with stop := some (.refusal (siteIn i s)) }))

/-- R433, R439: a fault a step answers is the record of an access that cannot happen, made by the instruction at x[15]. -/
def Obligations.StepFaultIsAFailedAccess : Prop :=
  ∀ (s left : State) (a : Word) (n : Nat) (site : Site), s.stop = none →
    (step s = .fault (.misaligned a n site left) →
      s.config.misaligned = .fault ∧ (n = 2 ∨ n = 4) ∧ a.toNat % n ≠ 0 ∧ site.ia = s.pc &&& 0xFFFFFFFE#32 ∧
      left.stop = some (.fault (.misaligned a n) site) ∧ left.spsr = s.spsr) ∧
    (step s = .fault (.straddle a n site left) →
      (s.config.misaligned = .fault → a.toNat % n = 0) ∧ (n = 2 ∨ n = 4) ∧ site.ia = s.pc &&& 0xFFFFFFFE#32 ∧
      (∃ sp, left.mem.lookup a = some sp ∧ sp.top < a.toNat + n) ∧
      left.stop = some (.fault (.straddle a n) site) ∧ left.spsr = s.spsr)

/-- R435, R42, R39: the mode bits, I, F, the reserved bits and the SPSR change no behaviour: an instruction other than MRS does
the same in states that differ in nothing else. -/
def Obligations.ModeBitsAndSpsrChangeNoBehaviour : Prop :=
  ∀ (i : Instr) (s t : State), readsCpsr i = false → alikeUpToMode s t → outcomesAlike (exec i s) (exec i t)

/-! ### Reset, boot and the host -/

/-- R47, R462: the created state, and Unload. -/
def Obligations.ResetAndUnloadValues : Prop :=
  (∀ r, State.reset.reg r = 0#32) ∧ State.reset.cpsr = 0#32 ∧ State.reset.spsr = 0#32 ∧ State.reset.breakpoints = [] ∧
  (∀ a, State.reset.mem.lookup a = none) ∧ State.reset.stop = none ∧
  ∀ s : State, (∀ r, s.unload.reg r = 0#32) ∧ s.unload.cpsr = 0#32 ∧ s.unload.spsr = 0#32 ∧
    s.unload.mem = s.mem ∧ s.unload.breakpoints = s.breakpoints

/-- R463 for a binary image: the state at the start of the first step. R460 steps 6 and 7, whatever the image: the run, the dump of
the registers and of eight stack words (R48), every space destroyed, and exit code 0. -/
def Obligations.BootStateOfABinaryImage : Prop :=
  (∀ (cfg : Config) (image : Image) (maxSteps : Nat) (bp : Option Word) (s : State), boot cfg image bp = .ready s →
    let t := (runLoop maxSteps 0 s).left
    let r := runProgram cfg image maxSteps bp
    r.exitCode = 0 ∧
    (∃ d, r.regs = some d ∧ d.regs.length = 16 ∧ (∀ k : RegNum, d.regs[k.toNat]? = some (t.reg k)) ∧
      d.cpsr = t.cpsr ∧ d.spsr = t.spsr) ∧
    r.stack.length = 8 ∧ (∀ k, k < 8 → r.stack[k]? = some (t.word (t.reg 13#4 + BitVec.ofNat 32 (4 * k)))) ∧
    r.left.mem.spaces = [] ∧ regsKept [] t r.left ∧ r.left.cpsr = t.cpsr ∧ restKept t r.left) ∧
  ∀ (cfg : Config) (bytes : List Byte) (bp : Option Word), ∃ s, boot cfg (.binary bytes) bp = .ready s ∧
    (∀ r, s.reg r = 0#32) ∧ s.cpsr = 0#32 ∧ s.spsr = 0#32 ∧ s.stop = none ∧ s.config = cfg ∧ s.breakpoints = bp.toList ∧
    (bytes.length ≤ 0xFFFFE000 →
      (∀ a : Word, ∀ h : a.toNat < bytes.length, s.mapped a ∧ s.byte a = bytes[a.toNat]) ∧
      (∀ a : Word, bytes.length ≤ a.toNat → s.byte a = 0xFF#8) ∧
      (∀ a : Word, 0xFFFFE000 ≤ a.toNat → s.mapped a) ∧
      (∀ a : Word, bytes.length ≤ a.toNat → a.toNat < 0xFFFFE000 → ¬s.mapped a))

/-- R461 and R440: SetPC writes x[15] alone; the breakpoint set is a set. -/
def Obligations.SetPcAndBreakpointSet : Prop :=
  ∀ (s : State) (a : Word),
    ((s.setEntry a).pc = a ∧ regsKept [15#4] s (s.setEntry a) ∧ (s.setEntry a).cpsr = s.cpsr ∧
      (s.setEntry a).mem = s.mem ∧ restKept s (s.setEntry a)) ∧
    (∀ b, (s.addBreakpoint a).hasBreakpoint b = (s.hasBreakpoint b || b == a)) ∧
    (∀ b, (s.removeBreakpoint a).hasBreakpoint b = (s.hasBreakpoint b && b != a))

/-! ### Memory -/

/-- R83 and R88: an address no space contains reads as all ones, and a write to it changes nothing. -/
def Obligations.UnmappedAccesses : Prop :=
  ∀ (p : MisalignedPolicy) (m : Memory) (a : Word), m.lookup a = none →
    m.read8 a = 0xFF#8 ∧ (∀ v, m.write8 a v = m) ∧
    ((p = .fault → a.toNat % 2 = 0) → m.read16 p a = .ok 0xFFFF#16 ∧ ∀ v, m.write16 p a v = .ok m) ∧
    ((p = .fault → a.toNat % 4 = 0) → m.read32 p a = .ok 0xFFFFFFFF#32 ∧ ∀ v, m.write32 p a v = .ok m)

/-- R75, R76: the byte at the lowest address is the most significant, whatever widths the same bytes are seen in. -/
def Obligations.WordsAreBigEndian : Prop :=
  ∀ (p : MisalignedPolicy) (m : Memory) (a v : Word), m.wf = true → a.toNat % 4 = 0 →
    (∃ sp, m.lookup a = some sp ∧ a.toNat + 4 ≤ sp.top) →
    ∃ m', m.write32 p a v = .ok m' ∧
      m'.read8 a = v.extractLsb' 24 8 ∧ m'.read8 (a + 1#32) = v.extractLsb' 16 8 ∧
      m'.read8 (a + 2#32) = v.extractLsb' 8 8 ∧ m'.read8 (a + 3#32) = v.extractLsb' 0 8 ∧
      m'.read16 p a = .ok (v.extractLsb' 16 16) ∧ m'.read16 p (a + 2#32) = .ok (v.extractLsb' 0 16)

/-- R106: what was written is read back, at every width; and writing 0xFF to every byte of a space restores its creation state.
R95: Memcpy copies between a buffer and the space that owns the target address, and does nothing where none does; that the bytes
past the end of that space are not copied is the model's choice (notes/assumptions/10.md). -/
def Obligations.WriteThenReadGivesTheValue : Prop :=
  (∀ (p : MisalignedPolicy) (m : Memory) (a : Word) (sp : Space), m.wf = true → m.lookup a = some sp →
    (∀ v, (m.write8 a v).read8 a = v) ∧
    (a.toNat + 2 ≤ sp.top → a.toNat % 2 = 0 → ∀ v, ∃ m', m.write16 p a v = .ok m' ∧ m'.read16 p a = .ok v) ∧
    (a.toNat + 4 ≤ sp.top → a.toNat % 4 = 0 → ∀ v, ∃ m', m.write32 p a v = .ok m' ∧ m'.read32 p a = .ok v) ∧
    (∀ buffer : List Byte, (m.copyOut a buffer).length = buffer.length ∧
      ∀ k, k < buffer.length → a.toNat + k < sp.top → (m.copyOut a buffer)[k]? = some (sp.byte (a.toNat + k))) ∧
    (∀ bs buffer : List Byte, buffer.length = bs.length →
      (m.copyIn a bs).copyOut a buffer = bs.take (sp.top - a.toNat) ++ buffer.drop (sp.top - a.toNat))) ∧
  (∀ (m : Memory) (a : Word) (bs : List Byte), m.lookup a = none → m.copyIn a bs = m ∧ m.copyOut a bs = bs) ∧
  (∀ sp : Space, sp.wf = true →
    sp.setBytes sp.vaddr.toNat (List.replicate sp.size 0xFF#8) = { vaddr := sp.vaddr, size := sp.size, cells := [] })

/-- R93, R95: a write or a Memcpy changes only the bytes it names. -/
def Obligations.WritesLeaveOtherBytes : Prop :=
  ∀ (p : MisalignedPolicy) (m : Memory) (a b : Word),
    (∀ v, ¬inBytes a 1 b → (m.write8 a v).read8 b = m.read8 b) ∧
    (∀ v m', ¬inBytes a 2 b → m.write16 p a v = .ok m' → m'.read8 b = m.read8 b) ∧
    (∀ v m', ¬inBytes a 4 b → m.write32 p a v = .ok m' → m'.read8 b = m.read8 b) ∧
    (∀ bs, ¬inBytes a bs.length b → (m.copyIn a bs).read8 b = m.read8 b)

/-- R89, R90: exactly when a 2- or 4-byte access happens, and which fault it raises where it does not. -/
def Obligations.AccessChecks : Prop :=
  ∀ (p : MisalignedPolicy) (m : Memory) (a : Word) (n : Nat), n = 2 ∨ n = 4 →
    (p = .fault → a.toNat % n ≠ 0 → m.access p a n = .error (.misaligned a n)) ∧
    ((p = .fault → a.toNat % n = 0) →
      (∀ sp, m.lookup a = some sp → sp.top < a.toNat + n → m.access p a n = .error (.straddle a n)) ∧
      (∀ sp, m.lookup a = some sp → a.toNat + n ≤ sp.top → m.access p a n = .ok (some sp)) ∧
      (m.lookup a = none → m.access p a n = .ok none))

/-- R71, R72, R73: Lookup finds the containing space with the lowest base; Create adds a space of 0xFF bytes where its base is not
covered and changes nothing where it is; Destroy removes the space with that base (every such space: notes/assumptions/6.md), and
every space. -/
def Obligations.LookupCreateDestroy : Prop :=
  ∀ (m : Memory), m.wf = true →
    (∀ (a : Word) sp, m.lookup a = some sp → sp ∈ m.spaces ∧ sp.vaddr.toNat ≤ a.toNat ∧ a.toNat < sp.vaddr.toNat + sp.size ∧
      ∀ q ∈ m.spaces, q.vaddr.toNat ≤ a.toNat → a.toNat < q.vaddr.toNat + q.size → sp.vaddr.toNat ≤ q.vaddr.toNat) ∧
    (∀ a : Word, m.lookup a = none → ∀ q ∈ m.spaces, ¬(q.vaddr.toNat ≤ a.toNat ∧ a.toNat < q.vaddr.toNat + q.size)) ∧
    (∀ (v : Word) size, (m.lookup v).isSome = true → m.create v size = m) ∧
    (∀ (v : Word) size, m.lookup v = none → 0 < size →
      (m.create v size).lookup v = some { vaddr := v, size := size, cells := [] } ∧
      ∀ q, q ∈ (m.create v size).spaces ↔ q ∈ m.spaces ∨ q = { vaddr := v, size := size, cells := [] }) ∧
    (∀ (v : Word) q, q ∈ (m.destroy v).spaces ↔ q ∈ m.spaces ∧ q.vaddr ≠ v) ∧
    (∀ a : Word, m.destroyAll.lookup a = none)

/-- R98: LoadELF fails exactly when the image is shorter than 52 bytes, or some program header or its segment's bytes lie outside
the image; else its result is e_entry. File offsets are 32-bit sums, which wrap (R11). Two things are the model's
(notes/assumptions/9.md): a program header is 32 bytes, and a segment's file bytes are taken one by one, those R97 copies, also where
p_offset + p_filesz wraps, so that a segment of no bytes is never outside the image. R97: what a load leaves where the segments fit and do not overlap. R460 step 2: a load that fails ends the run with exit code 1 (what is left:
notes/assumptions/16.md); R463: one that succeeds boots at e_entry. -/
def Obligations.LoadElfFailsExactlyOnShortImages : Prop :=
  (∀ (m : Memory) (image : List Byte),
    ((m.loadElf image).2 = none ↔ image.length < 52 ∨
      ∃ k, k < (be16 image 44#32).toNat ∧
        ((∃ i, i < 32 ∧ image.length ≤ (headerAt image k + BitVec.ofNat 32 i).toNat) ∨
          ∃ i, i < segFilesz image k ∧ image.length ≤ (segOffset image k + BitVec.ofNat 32 i).toNat)) ∧
    ∀ entry, (m.loadElf image).2 = some entry → entry = be32 image 24#32) ∧
  (∀ (image : List Byte) (m : Memory) (entry : Word), State.reset.mem.loadElf image = (m, some entry) →
    (∀ k, k < (be16 image 44#32).toNat → segFilesz image k ≤ segMemsz image k ∧ segVaddr image k + segMemsz image k ≤ 0x100000000) →
    (∀ j k, j < k → k < (be16 image 44#32).toNat →
      segVaddr image j + segMemsz image j ≤ segVaddr image k ∨ segVaddr image k + segMemsz image k ≤ segVaddr image j) →
    ∀ a : Word,
      (∀ k, k < (be16 image 44#32).toNat → segVaddr image k ≤ a.toNat → a.toNat < segVaddr image k + segMemsz image k →
        (m.lookup a).isSome = true ∧
        (a.toNat < segVaddr image k + segFilesz image k →
          m.read8 a = imageByte image (segOffset image k + BitVec.ofNat 32 (a.toNat - segVaddr image k))) ∧
        (segVaddr image k + segFilesz image k ≤ a.toNat → m.read8 a = 0xFF#8)) ∧
      ((∀ k, k < (be16 image 44#32).toNat → ¬(segVaddr image k ≤ a.toNat ∧ a.toNat < segVaddr image k + segMemsz image k)) →
        m.lookup a = none)) ∧
  ∀ (cfg : Config) (image : List Byte) (maxSteps : Nat) (bp : Option Word) (m : Memory),
    (State.reset.mem.loadElf image = (m, none) →
      boot cfg (.elf image) bp = .failed { State.reset with config := cfg, mem := m } ∧
      runProgram cfg (.elf image) maxSteps bp =
        { left := { State.reset with config := cfg, mem := m }, regs := none, stack := [], exitCode := 1 }) ∧
    (∀ entry, State.reset.mem.loadElf image = (m, some entry) →
      ∃ s, boot cfg (.elf image) bp = .ready s ∧ s.pc = entry ∧ (∀ r, r ≠ 15#4 → s.reg r = 0#32) ∧ s.cpsr = 0#32 ∧ s.spsr = 0#32 ∧
        s.stop = none ∧ s.config = cfg ∧ s.breakpoints = bp.toList ∧ s.mem = m.create 0xFFFFE000#32 0x2000)

/-! ### Flags, shifts, immediates -/

/-- R200 to R204: the flags of Addition and Subtract in terms of unbounded sums, with Subtract's V corner at 0x80000000. -/
def Obligations.AdditionAndSubtractFlags : Prop :=
  ∀ a b : Word,
    ((additionFlags a b).n = (a + b).getLsbD 31 ∧ (additionFlags a b).z = decide (a + b = 0#32) ∧
      (additionFlags a b).c = decide (2 ^ 32 ≤ a.toNat + b.toNat) ∧
      (additionFlags a b).v = decide (a.toInt + b.toInt < -2 ^ 31 ∨ 2 ^ 31 ≤ a.toInt + b.toInt)) ∧
    ((subtractFlags a b).n = (a - b).getLsbD 31 ∧ (subtractFlags a b).z = decide (a = b) ∧
      (subtractFlags a b).c = decide (b.toNat ≤ a.toNat) ∧
      (b ≠ 0x80000000#32 →
        (subtractFlags a b).v = decide (a.toInt - b.toInt < -2 ^ 31 ∨ 2 ^ 31 ≤ a.toInt - b.toInt)) ∧
      (b = 0x80000000#32 → (subtractFlags a b).v = a.getLsbD 31))

/-- R208: the carry chain under both settings of CARRY_CHAIN_FLAGS, and where the two agree. -/
def Obligations.CarryChainFlags : Prop :=
  ∀ (a b : Word) (c : Bool),
    let nc : Nat := if c then 0 else 1
    addCarry a b c = a + b + BitVec.ofNat 32 (1 - nc) ∧
    subCarry a b c = a - b - BitVec.ofNat 32 nc ∧
    subCarryFlags .combined a b c = subtractFlags a (b + BitVec.ofNat 32 nc) ∧
    (∀ p, (subCarryFlags p a b c).n = (subCarry a b c).getLsbD 31 ∧ (subCarryFlags p a b c).z = decide (subCarry a b c = 0#32)) ∧
    (subCarryFlags .armArm a b c).c = decide (b.toNat + nc ≤ a.toNat) ∧
    (subCarryFlags .armArm a b c).v = decide (a.toInt - b.toInt - nc < -2 ^ 31 ∨ 2 ^ 31 ≤ a.toInt - b.toInt - nc) ∧
    (¬(b = 0xFFFFFFFF#32 ∧ c = false) → (subCarryFlags .combined a b c).c = (subCarryFlags .armArm a b c).c)

/-- R212: the flag laws of the source; Subtract keeps the V of R204. -/
def Obligations.FlagLaws : Prop :=
  ∀ a b : Word,
    (a + b) - b = a ∧ ((subtractFlags (a + b) b).z = true ↔ a = 0#32) ∧
    ((additionFlags a b).z = true ↔ a + b = 0#32) ∧ ((subtractFlags a b).z = true ↔ a - b = 0#32) ∧
    (additionFlags a b).n = (a + b).getLsbD 31 ∧ (subtractFlags a b).n = (a - b).getLsbD 31 ∧
    ((additionFlags a b).c = true ↔ (a + b).toNat < a.toNat) ∧
    ((additionFlags a b).v = true ↔ a.getLsbD 31 = b.getLsbD 31 ∧ (a + b).getLsbD 31 ≠ a.getLsbD 31) ∧
    ((subtractFlags a b).v = true ↔
      a.getLsbD 31 = (0#32 - b).getLsbD 31 ∧ (a + (0#32 - b)).getLsbD 31 ≠ a.getLsbD 31)

/-- R207, R209, R213: the barrel shifter bit by bit, and the C it gives. -/
def Obligations.BarrelShifterBits : Prop :=
  ∀ (v : Word) (amt : Nat), amt < 32 →
    (∀ ty, shiftValue ty 0 v = v ∧ shiftCarry ty 0 v = none) ∧
    (∀ j, j < 32 →
      (shiftValue .lsl amt v).getLsbD j = (decide (amt ≤ j) && v.getLsbD (j - amt)) ∧
      (shiftValue .lsr amt v).getLsbD j = v.getLsbD (j + amt) ∧
      (shiftValue .asr amt v).getLsbD j = (if j + amt < 32 then v.getLsbD (j + amt) else v.getLsbD 31) ∧
      (shiftValue .ror amt v).getLsbD j = v.getLsbD ((j + amt) % 32)) ∧
    (amt ≠ 0 → shiftCarry .lsl amt v = some (v.getLsbD (32 - amt)) ∧ shiftCarry .lsr amt v = some (v.getLsbD (amt - 1)) ∧
      shiftCarry .asr amt v = some (v.getLsbD (amt - 1)) ∧ shiftCarry .ror amt v = none) ∧
    shiftValue .asr 31 v = (if v.getLsbD 31 then 0xFFFFFFFF#32 else 0#32)

/-- R211: the register shifts of Thumb bit by bit, for every amount, the C they give, where they agree with R207's shifter, and
the amount, the low byte of x[Rs]. -/
def Obligations.RegisterShiftBits : Prop :=
  ∀ (v : Word) (n : Nat),
    (∀ j, j < 32 →
      (shiftRegValue .lsl n v).getLsbD j = (decide (n ≤ j) && v.getLsbD (j - n)) ∧
      (shiftRegValue .lsr n v).getLsbD j = v.getLsbD (j + n) ∧
      (shiftRegValue .asr n v).getLsbD j = (if j + n < 32 then v.getLsbD (j + n) else v.getLsbD 31) ∧
      (shiftRegValue .ror n v).getLsbD j = v.getLsbD ((j + n) % 32)) ∧
    (∀ ty, shiftRegCarry ty 0 v = none) ∧ shiftRegCarry .ror n v = none ∧
    (1 ≤ n → n ≤ 32 → shiftRegCarry .lsl n v = some (v.getLsbD (32 - n)) ∧ shiftRegCarry .lsr n v = some (v.getLsbD (n - 1)) ∧
      shiftRegCarry .asr n v = some (v.getLsbD (n - 1))) ∧
    (32 < n → shiftRegCarry .lsl n v = some false ∧ shiftRegCarry .lsr n v = some false ∧
      shiftRegCarry .asr n v = some (v.getLsbD 31)) ∧
    (∀ ty, 1 ≤ n → n ≤ 31 → shiftRegValue ty n v = shiftValue ty n v ∧ shiftRegCarry ty n v = shiftCarry ty n v) ∧
    ∀ (rs : LowReg) (s : State), shiftAmount rs s = (s.reg (low rs)).toNat % 256

/-- R131, R133, R134, R135, R282: the rotated immediates, the branch offsets and the scaled immediates as numbers, and the start
and end addresses of LDM and STM with n = BitCount(list). -/
def Obligations.ImmediatesOffsetsAndBlockAddresses : Prop :=
  (∀ (rot : BitVec 4) (imm8 : BitVec 8) (j : Nat), j < 32 →
    (rotatedImm rot imm8).getLsbD j = imm8.getLsbD ((j + 2 * rot.toNat) % 32)) ∧
  (∀ imm12 : BitVec 12, (immOffset .imm12 imm12).toNat = imm12.toNat ∧
    immOffset .rotated imm12 = rotatedImm (imm12.extractLsb' 8 4) (imm12.extractLsb' 0 8) ∧
    (imm12.toNat < 256 → immOffset .rotated imm12 = immOffset .imm12 imm12)) ∧
  (∀ v : BitVec 24, (armBranchOffset v).toInt = 4 * v.toInt) ∧
  (∀ v : BitVec 8, (thumbCondOffset v).toInt = 2 * v.toInt) ∧
  (∀ v : BitVec 11, (thumbBranchOffset v).toInt = 2 * v.toInt) ∧
  (∀ hi lo : BitVec 11, (thumbPairOffset hi lo).toInt = 2 * (hi ++ lo).toInt) ∧
  (∀ (v : BitVec 8) (k : Nat), k ≤ 2 → (scaled v k).toNat = v.toNat * 2 ^ k) ∧
  ∀ (list : BitVec 16) (base : Word),
    let n := BitVec.ofNat 32 (4 * bitCount list)
    blockStart false true list base = base ∧ blockStart true true list base = base + 4#32 ∧
    blockStart false false list base = base - n + 4#32 ∧ blockStart true false list base = base - n ∧
    blockFinal true list base = base + n ∧ blockFinal false list base = base - n

/-! ### ARM data processing -/

/-- R234, R235, R246 to R249, with R233 and R239: AND, EOR, ORR, MOV, BIC, MVN, and ADC, which writes N and Z only. -/
def Obligations.ArmLogicalOperations : Prop :=
  ∀ (c : Cond) (sbit : Bool) (rn rd : RegNum) (o : Operand2) (s : State), condHolds c s = true →
    LogicEffect (.armAnd c sbit rn rd o) sbit rd (s.reg rn &&& operand2Value o s) o s ∧
    LogicEffect (.armEor c sbit rn rd o) sbit rd (s.reg rn ^^^ operand2Value o s) o s ∧
    LogicEffect (.armOrr c sbit rn rd o) sbit rd (s.reg rn ||| operand2Value o s) o s ∧
    LogicEffect (.armBic c sbit rn rd o) sbit rd (s.reg rn &&& ~~~(operand2Value o s)) o s ∧
    LogicEffect (.armMov c sbit rn rd o) sbit rd (operand2Value o s) o s ∧
    LogicEffect (.armMvn c sbit rn rd o) sbit rd (~~~(operand2Value o s)) o s ∧
    LogicEffect (.armAdc c sbit rn rd o) sbit rd (addCarry (s.reg rn) (operand2Value o s) (carryIn sbit o s)) o s

/-- R236 to R238, R240, R241: SUB, RSB, ADD (4 more with Rn = 15), SBC, RSC. -/
def Obligations.ArmArithmetic : Prop :=
  ∀ (c : Cond) (sbit : Bool) (rn rd : RegNum) (o : Operand2) (s : State), condHolds c s = true →
    let a := s.reg rn
    let b := operand2Value o s
    let ci := carryIn sbit o s
    ArithEffect (.armSub c sbit rn rd o) sbit rd (a - b) (subtractFlags a b) s ∧
    ArithEffect (.armRsb c sbit rn rd o) sbit rd (b - a) (subtractFlags b a) s ∧
    ArithEffect (.armAdd c sbit rn rd o) sbit rd (if rn = 15#4 then a + b + 4#32 else a + b) (additionFlags a b) s ∧
    ArithEffect (.armSbc c sbit rn rd o) sbit rd (subCarry a b ci) (subCarryFlags s.config.carryChain a b ci) s ∧
    ArithEffect (.armRsc c sbit rn rd o) sbit rd (subCarry b a ci) (subCarryFlags s.config.carryChain b a ci) s

/-- R242 to R245: TST, TEQ, CMP, CMN. -/
def Obligations.ArmCompares : Prop :=
  ∀ (c : Cond) (rn : RegNum) (x : BitVec 4) (o : Operand2) (s : State), condHolds c s = true →
    TestEffect (.armTst c rn x o) (s.reg rn &&& operand2Value o s) (operand2C o s) s ∧
    TestEffect (.armTeq c rn x o) (s.reg rn ^^^ operand2Value o s) (operand2C o s) s ∧
    CompareEffect (.armCmp c rn x o) (subtractFlags (s.reg rn) (operand2Value o s)) s ∧
    CompareEffect (.armCmn c rn x o) (additionFlags (s.reg rn) (operand2Value o s)) s

/-- R305, R306: MRS and MSR. -/
def Obligations.ArmStatusTransfers : Prop :=
  ∀ (c : Cond) (s : State), condHolds c s = true →
    (∀ i x rd low, RegEffect (.armMrs c i x rd low) rd s.cpsr s) ∧
    (∀ mask x src, Completes (.armMsr c mask x src) s fun t =>
      t.cpsr = (match src with
        | .imm rot imm8 => rotatedImm rot imm8
        | .reg _ rm => s.reg rm) ∧ regsKept [] s t ∧ bytesKept s t ∧ restKept s t)

/-- R138, R303, R307, R309, R310, R375, R406, R408: the instructions that only advance the PC. -/
def Obligations.InstructionsWithoutEffect : Prop :=
  ∀ s : State,
    (∀ x, exec (.armCondNever x) s = .next s) ∧ (∀ c x, exec (.armSwi c x) s = .next s) ∧
    (∀ c i x y z, exec (.armMrs2 c i x y z) s = .next s) ∧ (∀ c i x y z, exec (.armMsr2 c i x y z) s = .next s) ∧
    (∀ c x, exec (.armCoproc c x) s = .next s) ∧ (∀ c x, exec (.armUnknown c x) s = .next s) ∧
    (∀ x, exec (.tSwi x) s = .next s) ∧ (∀ x, exec (.tUnknown1011 x) s = .next s) ∧
    (∀ x, exec (.tUnknown11101 x) s = .next s) ∧ (∀ x, exec (.tUnknown11111 x) s = .next s) ∧
    (s.config.extension = .document → ∀ sel ro rb rd, exec (.tExtHalf sel ro rb rd) s = .next s)

/-! ### Branches -/

/-- R300: B and BL. -/
def Obligations.ArmBranches : Prop :=
  ∀ (c : Cond) (imm24 : BitVec 24) (s : State), condHolds c s = true →
    BranchEffect (.armB c imm24) (s.pc + 4#32 + armBranchOffset imm24) s.t none s ∧
    BranchEffect (.armBl c imm24) (s.pc + 4#32 + armBranchOffset imm24) s.t (some s.pc) s

/-- R308, R400, R401, R139: BX and BLX register, in both instruction sets, and their extension encodings under `document`. -/
def Obligations.BranchAndExchange : Prop :=
  ∀ (rm : RegNum) (s : State),
    let v := s.reg rm
    let linked := if rm = 14#4 then s.pc else s.reg rm
    (∀ c, condHolds c s = true →
      BranchEffect (.armBx c rm) (v &&& 0xFFFFFFFE#32) (v.getLsbD 0) none s ∧
      BranchEffect (.armBlxReg c rm) (linked &&& 0xFFFFFFFE#32) (linked.getLsbD 0) (some s.pc) s ∧
      (s.config.extension = .document → ∀ sel : BitVec 4,
        (sel.getLsbD 1 = false → BranchEffect (.armBxExt c sel rm) (v &&& 0xFFFFFFFE#32) (v.getLsbD 0) none s) ∧
        (sel.getLsbD 1 = true →
          BranchEffect (.armBxExt c sel rm) (linked &&& 0xFFFFFFFE#32) (linked.getLsbD 0) (some s.pc) s))) ∧
    (∀ low, BranchEffect (.tBx rm low) (v &&& 0xFFFFFFFE#32) (v.getLsbD 0) none s) ∧
    (s.config.extension = .document → ∀ low,
      BranchEffect (.tBxExt rm low) (v &&& 0xFFFFFFFE#32) (v.getLsbD 0) none s)

/-- R402 to R405: the Thumb branches and the BL/BLX pair. -/
def Obligations.ThumbBranches : Prop :=
  ∀ s : State,
    (∀ c imm8, condHolds c s = true → BranchEffect (.tBcond c imm8) (s.pc + 2#32 + thumbCondOffset imm8) s.t none s) ∧
    (∀ c imm8, condHolds c s = false → exec (.tBcond c imm8) s = .next s) ∧
    (∀ imm11, BranchEffect (.tB imm11) (s.pc + 2#32 + thumbBranchOffset imm11) s.t none s) ∧
    (∀ hi x y lo, BranchEffect (.tBl hi x y lo) (s.pc + 2#32 + thumbPairOffset hi lo) s.t (some ((s.pc + 2#32) ||| 1#32)) s) ∧
    (∀ hi x y lo, BranchEffect (.tBlx hi x y lo) ((s.pc + 2#32 + thumbPairOffset hi lo) &&& 0xFFFFFFFC#32) false
      (some ((s.pc + 2#32) ||| 1#32)) s)

/-! ### ARM transfers -/

/-- R271 to R273, R275, R277: LDR and LDRB, and the R15-based load, word or byte, whatever I, P, U and W; with I = 1 and w[4] = 1
it lies in R139's extension space too and runs so under `document` (under `refuse` it is refused: DEDUCED,
notes/assumptions/17.md). -/
def Obligations.ArmLoads : Prop :=
  ∀ (c : Cond) (p u w : Bool) (rn rd : RegNum) (s : State), condHolds c s = true →
    (∀ off : Offset,
      let target := if u then s.reg rn + offsetValue off s else s.reg rn - offsetValue off s
      let addr := if p then target else s.reg rn
      (s.accessOk addr 4 → ∃ v, s.word addr = .ok v ∧
        LoadEffect (.armLdr c p u w rn rd off) rd v (wb p w) rn target (offsetC off s) s) ∧
      LoadEffect (.armLdrb c p u w rn rd off) rd ((s.byte addr).setWidth 32) (wb p w) rn target (offsetC off s) s) ∧
    (∀ (i : Bool) (imm12 : BitVec 12), (i = true → imm12.getLsbD 4 = true → s.config.extension = .document) →
      let addr := s.pc + imm12.setWidth 32 + 4#32
      (s.accessOk addr 4 → ∃ v, s.word addr = .ok v ∧ RegEffect (.armLdrLit c i p u false w rd imm12) rd v s) ∧
      RegEffect (.armLdrLit c i p u true w rd imm12) rd ((s.byte addr).setWidth 32) s)

/-- R274, R276, R277: STR and STRB. -/
def Obligations.ArmStores : Prop :=
  ∀ (c : Cond) (p u w : Bool) (rn rd : RegNum) (off : Offset) (s : State), s.mem.wf = true → condHolds c s = true →
    (s.accessOk (transferAddr p u rn off s) 4 →
      StoreEffect (.armStr c p u w rn rd off) (transferAddr p u rn off s) 4 (s.reg rd) (wb p w) rn (transferTarget u rn off s) s) ∧
    StoreEffect (.armStrb c p u w rn rd off) (transferAddr p u rn off s) 1 (s.reg rd) (wb p w) rn (transferTarget u rn off s) s

/-- R139, R250, R279: under `document` an extension word of class 00 or 01 does what the word with w[4] = 0 does; a word transfer
where its access can happen. -/
def Obligations.ArmExtensionWordsRunAsDecoded : Prop :=
  ∀ (c : Cond) (rn rd : RegNum) (amount : BitVec 5) (ty : ShiftType) (rm : RegNum) (s : State),
    condHolds c s = true → s.config.extension = .document →
    (∀ op sbit, (Instr.armExtDp c op sbit rn rd amount ty rm).wf = true →
      Completes (.armExtDp c op sbit rn rd amount ty rm) s fun t =>
        exec (decodeArm (encodeDataProc c false op sbit rn rd (amount ++ ty.toBits ++ 0#1 ++ rm))) s = .next t) ∧
    (∀ p u b w l, (Instr.armExtTransfer c p u b w l rn rd amount ty rm).wf = true →
      (b = false → s.accessOk (transferAddr p u rn (.reg amount ty rm) s) 4) →
      Completes (.armExtTransfer c p u b w l rn rd amount ty rm) s fun t =>
        exec (decodeArm (encodeTransfer c true p u b w l rn rd (amount ++ ty.toBits ++ 0#1 ++ rm))) s = .next t)

/-- R280, R284: LDM; the writeback is last. -/
def Obligations.ArmLoadMultiple : Prop :=
  ∀ (c : Cond) (p u x w : Bool) (rn : RegNum) (list : BitVec 16) (s : State), condHolds c s = true →
    slotsOk list (blockStart p u list (s.reg rn)) s →
    LoadManyEffect (.armLdm c p u x w rn list) list (blockStart p u list (s.reg rn)) w rn (blockFinal u list (s.reg rn)) s

/-- R281, R284: STM; a base in the list is stored as it was. -/
def Obligations.ArmStoreMultiple : Prop :=
  ∀ (c : Cond) (p u x w : Bool) (rn : RegNum) (list : BitVec 16) (s : State), s.mem.wf = true → condHolds c s = true →
    slotsOk list (blockStart p u list (s.reg rn)) s →
    StoreManyEffect (.armStm c p u x w rn list) list (blockStart p u list (s.reg rn)) w rn (blockFinal u list (s.reg rn)) s

/-! ### Thumb arithmetic -/

/-- R338, R342, R343, R347, R354 to R357: the Thumb operations that write N and Z only. -/
def Obligations.ThumbLogicalOperations : Prop :=
  ∀ (rs rd : LowReg) (s : State),
    let a := s.reg (low rd)
    let b := s.reg (low rs)
    NzEffect (.tAnd rs rd) (low rd) (a &&& b) s.c s ∧ NzEffect (.tEor rs rd) (low rd) (a ^^^ b) s.c s ∧
    NzEffect (.tOrr rs rd) (low rd) (a ||| b) s.c s ∧ NzEffect (.tBic rs rd) (low rd) (a &&& ~~~b) s.c s ∧
    NzEffect (.tMvn rs rd) (low rd) (~~~b) s.c s ∧
    NzEffect (.tMul rs rd) (low rd) (BitVec.ofNat 32 (a.toNat * b.toNat)) s.c s ∧
    NzEffect (.tAdc rs rd) (low rd) (addCarry a b s.c) s.c s ∧
    ∀ imm8 : BitVec 8, NzEffect (.tMovImm rd imm8) (low rd) (imm8.setWidth 32) s.c s

/-- R334 to R337, R340, R341, R348, R351: the Thumb operations that write a register and the four flags. -/
def Obligations.ThumbArithmetic : Prop :=
  ∀ (rn rs rd : LowReg) (s : State),
    let d := s.reg (low rd)
    let a := s.reg (low rs)
    let b := s.reg (low rn)
    ArithEffect (.tAddReg rn rs rd) true (low rd) (a + b) (additionFlags a b) s ∧
    ArithEffect (.tSubReg rn rs rd) true (low rd) (a - b) (subtractFlags a b) s ∧
    (∀ imm3 : BitVec 3,
      ArithEffect (.tAddImm3 imm3 rs rd) true (low rd) (a + imm3.setWidth 32) (additionFlags a (imm3.setWidth 32)) s ∧
      ArithEffect (.tSubImm3 imm3 rs rd) true (low rd) (a - imm3.setWidth 32) (subtractFlags a (imm3.setWidth 32)) s) ∧
    (∀ imm8 : BitVec 8,
      ArithEffect (.tAddImm8 rd imm8) true (low rd) (d + imm8.setWidth 32) (additionFlags d (imm8.setWidth 32)) s ∧
      ArithEffect (.tSubImm8 rd imm8) true (low rd) (d - imm8.setWidth 32) (subtractFlags d (imm8.setWidth 32)) s) ∧
    ArithEffect (.tNeg rs rd) true (low rd) (0#32 - a) (subtractFlags 0#32 a) s ∧
    ArithEffect (.tSbc rs rd) true (low rd) (subCarry d a s.c) (subCarryFlags s.config.carryChain d a s.c) s

/-- R339, R350, R352, R353, R359: the Thumb compares; the high CMP names any register. -/
def Obligations.ThumbCompares : Prop :=
  ∀ (rs rd : LowReg) (s : State),
    let a := s.reg (low rd)
    let b := s.reg (low rs)
    TestEffect (.tTst rs rd) (a &&& b) s.c s ∧ CompareEffect (.tCmpReg rs rd) (subtractFlags a b) s ∧
    CompareEffect (.tCmn rs rd) (additionFlags a b) s ∧
    (∀ imm8 : BitVec 8, CompareEffect (.tCmpImm rd imm8) (subtractFlags a (imm8.setWidth 32)) s) ∧
    ∀ hs hd : RegNum, CompareEffect (.tCmpHigh hd hs) (subtractFlags (s.reg hd) (s.reg hs)) s

/-- R331 to R333, R344 to R346, R349: the Thumb shifts. -/
def Obligations.ThumbShifts : Prop :=
  ∀ (rs rd : LowReg) (s : State),
    let v := s.reg (low rs)
    let d := s.reg (low rd)
    let n := (v.extractLsb' 0 8).toNat
    (∀ imm5 : BitVec 5,
      NzEffect (.tLslImm imm5 rs rd) (low rd) (shiftValue .lsl imm5.toNat v) ((shiftCarry .lsl imm5.toNat v).getD s.c) s ∧
      NzEffect (.tLsrImm imm5 rs rd) (low rd) (shiftValue .lsr imm5.toNat v) ((shiftCarry .lsr imm5.toNat v).getD s.c) s ∧
      NzEffect (.tAsrImm imm5 rs rd) (low rd) (shiftValue .asr imm5.toNat v) ((shiftCarry .asr imm5.toNat v).getD s.c) s) ∧
    NzEffect (.tLslReg rs rd) (low rd) (shiftRegValue .lsl n d) ((shiftRegCarry .lsl n d).getD s.c) s ∧
    NzEffect (.tLsrReg rs rd) (low rd) (shiftRegValue .lsr n d) ((shiftRegCarry .lsr n d).getD s.c) s ∧
    NzEffect (.tAsrReg rs rd) (low rd) (shiftRegValue .asr n d) ((shiftRegCarry .asr n d).getD s.c) s ∧
    NzEffect (.tRorReg rs rd) (low rd) (shiftRegValue .ror n d) s.c s

/-- R358, R360 to R363: the operations that write a register and no flag. -/
def Obligations.ThumbAddressArithmetic : Prop :=
  ∀ (s : State),
    (∀ rd rs : RegNum, RegEffect (.tAddHigh rd rs) rd (s.reg rd + s.reg rs) s ∧ RegEffect (.tMovHigh rd rs) rd (s.reg rs) s) ∧
    (∀ (rd : LowReg) (imm8 : BitVec 8),
      RegEffect (.tAddPc rd imm8) (low rd) (((s.pc + 2#32) &&& 0xFFFFFFFC#32) + imm8.setWidth 32 <<< 2) s ∧
      RegEffect (.tAddSp rd imm8) (low rd) (s.reg 13#4 + imm8.setWidth 32 <<< 2) s) ∧
    (∀ imm7 : BitVec 7,
      RegEffect (.tSpAdd imm7) 13#4 (s.reg 13#4 + imm7.setWidth 32 <<< 2) s ∧
      RegEffect (.tSpSub imm7) 13#4 (s.reg 13#4 - imm7.setWidth 32 <<< 2) s)

/-! ### Thumb transfers -/

/-- R370, R373, R374, R377, R379, R381, R383: the Thumb loads. -/
def Obligations.ThumbLoads : Prop :=
  ∀ (ro rb rd : LowReg) (imm5 : BitVec 5) (imm8 : BitVec 8) (s : State),
    let pcAddr := ((s.pc + 2#32) &&& 0xFFFFFFFC#32) + imm8.setWidth 32 <<< 2
    let regAddr := s.reg (low rb) + s.reg (low ro)
    let wordAddr := s.reg (low rb) + imm5.setWidth 32 <<< 2
    let halfAddr := s.reg (low rb) + imm5.setWidth 32 <<< 1
    let byteAddr := s.reg (low rb) + imm5.setWidth 32
    let spAddr := s.reg 13#4 + imm8.setWidth 32 <<< 2
    (s.accessOk pcAddr 4 → ∃ v, s.word pcAddr = .ok v ∧ RegEffect (.tLdrPc rd imm8) (low rd) v s) ∧
    (s.accessOk regAddr 4 → ∃ v, s.word regAddr = .ok v ∧ RegEffect (.tLdrReg ro rb rd) (low rd) v s) ∧
    (s.accessOk wordAddr 4 → ∃ v, s.word wordAddr = .ok v ∧ RegEffect (.tLdrImm imm5 rb rd) (low rd) v s) ∧
    (s.accessOk spAddr 4 → ∃ v, s.word spAddr = .ok v ∧ RegEffect (.tLdrSp rd imm8) (low rd) v s) ∧
    (s.accessOk halfAddr 2 → ∃ v, s.half halfAddr = .ok v ∧ RegEffect (.tLdrhImm imm5 rb rd) (low rd) (v.setWidth 32) s) ∧
    RegEffect (.tLdrbReg ro rb rd) (low rd) ((s.byte regAddr).setWidth 32) s ∧
    RegEffect (.tLdrbImm imm5 rb rd) (low rd) ((s.byte byteAddr).setWidth 32) s

/-- R371, R372, R376, R378, R380, R382: the Thumb stores. No base is written back. -/
def Obligations.ThumbStores : Prop :=
  ∀ (ro rb rd : LowReg) (imm5 : BitVec 5) (imm8 : BitVec 8) (s : State), s.mem.wf = true →
    let v := s.reg (low rd)
    (s.accessOk (thumbRegAddr ro rb s) 4 → StoreEffect (.tStrReg ro rb rd) (thumbRegAddr ro rb s) 4 v false 0#4 0#32 s) ∧
    (s.accessOk (thumbImmAddr 2 imm5 rb s) 4 →
      StoreEffect (.tStrImm imm5 rb rd) (thumbImmAddr 2 imm5 rb s) 4 v false 0#4 0#32 s) ∧
    (s.accessOk (thumbSpAddr imm8 s) 4 → StoreEffect (.tStrSp rd imm8) (thumbSpAddr imm8 s) 4 v false 0#4 0#32 s) ∧
    (s.accessOk (thumbImmAddr 1 imm5 rb s) 2 →
      StoreEffect (.tStrhImm imm5 rb rd) (thumbImmAddr 1 imm5 rb s) 2 v false 0#4 0#32 s) ∧
    StoreEffect (.tStrbReg ro rb rd) (thumbRegAddr ro rb s) 1 v false 0#4 0#32 s ∧
    StoreEffect (.tStrbImm imm5 rb rd) (thumbImmAddr 0 imm5 rb s) 1 v false 0#4 0#32 s

/-- R384, R385, R387: PUSH and STMIA. -/
def Obligations.ThumbStoreMultiple : Prop :=
  ∀ (s : State), s.mem.wf = true →
    (∀ r rlist,
      let start := s.reg 13#4 - BitVec.ofNat 32 (4 * bitCount (pushMask r rlist))
      slotsOk (pushMask r rlist) start s →
      StoreManyEffect (.tPush r rlist) (pushMask r rlist) start true 13#4 start s) ∧
    (∀ rb rlist,
      let start := s.reg (low rb)
      slotsOk (rlist.setWidth 16) start s →
      StoreManyEffect (.tStmia rb rlist) (rlist.setWidth 16) start true (low rb)
        (start + BitVec.ofNat 32 (4 * bitCount (rlist.setWidth 16))) s)

/-- R384, R386, R388: POP and LDMIA. POP with PC takes T from bit 0 of the loaded word and clears that bit in x[15]. -/
def Obligations.ThumbLoadMultiple : Prop :=
  ∀ (s : State),
    (∀ rb rlist,
      let start := s.reg (low rb)
      slotsOk (rlist.setWidth 16) start s →
      LoadManyEffect (.tLdmia rb rlist) (rlist.setWidth 16) start true (low rb)
        (start + BitVec.ofNat 32 (4 * bitCount (rlist.setWidth 16))) s) ∧
    (∀ rlist,
      let start := s.reg 13#4
      slotsOk (rlist.setWidth 16) start s →
      LoadManyEffect (.tPop false rlist) (rlist.setWidth 16) start true 13#4
        (start + BitVec.ofNat 32 (4 * bitCount (rlist.setWidth 16))) s) ∧
    (∀ rlist,
      let start := s.reg 13#4
      let n := bitCount (rlist.setWidth 16)
      let pcSlot := start + BitVec.ofNat 32 (4 * n)
      slotsOk (rlist.setWidth 16) start s → s.accessOk pcSlot 4 →
      ∃ v, s.word pcSlot = .ok v ∧
        Completes (.tPop true rlist) s fun t =>
          (∀ r, listed (rlist.setWidth 16) r → s.word (slot (rlist.setWidth 16) start r) = .ok (t.reg r)) ∧
          t.t = v.getLsbD 0 ∧ t.pc = v &&& 0xFFFFFFFE#32 ∧ t.reg 13#4 = start + BitVec.ofNat 32 (4 * (n + 1)) ∧
          (∀ r, ¬listed (rlist.setWidth 16) r → r ≠ 13#4 → r ≠ 15#4 → t.reg r = s.reg r) ∧
          cpsrKept [5] s t ∧ bytesKept s t ∧ restKept s t)

/-! ### Where transfers stop -/

/-- R89, R90, R433: the single transfers of ARM and Thumb stop on an access that cannot happen; those that R139 lists, the R15-based
load with I = 1 and w[4] = 1 among them (DEDUCED, notes/assumptions/17.md), under `document`. -/
def Obligations.SingleTransfersStopOnFailedAccess : Prop :=
  (∀ (c : Cond) (p u w : Bool) (rn rd : RegNum) (off : Offset) (s : State), condHolds c s = true →
    StopsOnAccess (.armLdr c p u w rn rd off) (transferAddr p u rn off s) 4 (offsetC off s) s ∧
    StopsOnAccess (.armStr c p u w rn rd off) (transferAddr p u rn off s) 4 s.c s ∧
    (∀ i imm12, (i = true → imm12.getLsbD 4 = true → s.config.extension = .document) →
      StopsOnAccess (.armLdrLit c i p u false w rd imm12) (s.pc + imm12.setWidth 32 + 4#32) 4 s.c s) ∧
    (s.config.extension = .document → ∀ l amount ty rm,
      StopsOnAccess (.armExtTransfer c p u false w l rn rd amount ty rm) (transferAddr p u rn (.reg amount ty rm) s) 4
        (if l then offsetC (.reg amount ty rm) s else s.c) s)) ∧
  ∀ (ro rb rd : LowReg) (imm5 : BitVec 5) (imm8 : BitVec 8) (s : State),
    StopsOnAccess (.tLdrPc rd imm8) (thumbPcAddr imm8 s) 4 s.c s ∧
    StopsOnAccess (.tStrReg ro rb rd) (thumbRegAddr ro rb s) 4 s.c s ∧
    StopsOnAccess (.tLdrReg ro rb rd) (thumbRegAddr ro rb s) 4 s.c s ∧
    StopsOnAccess (.tStrImm imm5 rb rd) (thumbImmAddr 2 imm5 rb s) 4 s.c s ∧
    StopsOnAccess (.tLdrImm imm5 rb rd) (thumbImmAddr 2 imm5 rb s) 4 s.c s ∧
    StopsOnAccess (.tStrhImm imm5 rb rd) (thumbImmAddr 1 imm5 rb s) 2 s.c s ∧
    StopsOnAccess (.tLdrhImm imm5 rb rd) (thumbImmAddr 1 imm5 rb s) 2 s.c s ∧
    StopsOnAccess (.tStrSp rd imm8) (thumbSpAddr imm8 s) 4 s.c s ∧
    StopsOnAccess (.tLdrSp rd imm8) (thumbSpAddr imm8 s) 4 s.c s

/-- R284, R384, R433: an LDM, STM, PUSH, POP, STMIA or LDMIA that stops has transferred the registers below the one it stops at,
and has not written its base. A POP that stops at the PC's word has loaded all its listed registers. -/
def Obligations.MultipleTransfersStopInTheMiddle : Prop :=
  (∀ (c : Cond) (p u x w : Bool) (rn : RegNum) (list : BitVec 16) (r : RegNum) (s : State), condHolds c s = true →
    let start := blockStart p u list (s.reg rn)
    StopsAt (.armLdm c p u x w rn list) list start r s LoadedBelow ∧
    StopsAt (.armStm c p u x w rn list) list start r s StoredBelow) ∧
  (∀ (link : Bool) (rlist : BitVec 8) (r : RegNum) (s : State),
    StopsAt (.tPush link rlist) (pushMask link rlist) (s.reg 13#4 - BitVec.ofNat 32 (4 * bitCount (pushMask link rlist))) r s
      StoredBelow) ∧
  (∀ (rb : LowReg) (rlist : BitVec 8) (r : RegNum) (s : State),
    StopsAt (.tStmia rb rlist) (rlist.setWidth 16) (s.reg (low rb)) r s StoredBelow ∧
    StopsAt (.tLdmia rb rlist) (rlist.setWidth 16) (s.reg (low rb)) r s LoadedBelow ∧
    ∀ pc, StopsAt (.tPop pc rlist) (rlist.setWidth 16) (s.reg 13#4) r s LoadedBelow) ∧
  ∀ (rlist : BitVec 8) (s : State), slotsOk (rlist.setWidth 16) (s.reg 13#4) s →
    StopsWith (.tPop true rlist) (s.reg 13#4 + BitVec.ofNat 32 (4 * bitCount (rlist.setWidth 16))) 4 s
      (LoadedBelow (rlist.setWidth 16) (s.reg 13#4) 16 s)
end

