-- ==== Sys2Proof/Laws/Decode.lean ====
section
/-! SUPPORT. What the decoder reads from an encoded word of each format: its fields, and nothing else. -/

namespace Sys2Proof

open BitVec

@[simp] theorem Cond.ofBits_toBits (c : Cond) : Cond.ofBits c.toBits = some c := by cases c <;> rfl

@[simp] theorem ShiftType.ofBits_toBits (t : ShiftType) : ShiftType.ofBits t.toBits = t := by cases t <;> rfl

theorem getLsbD_ofBool_zero (b : Bool) : (BitVec.ofBool b).getLsbD 0 = b := by cases b <;> rfl

theorem Cond.toBits_ofBits {b : BitVec 4} {c : Cond} (h : Cond.ofBits b = some c) : c.toBits = b := by
  revert c; revert b; decide

theorem ShiftType.toBits_ofBits (b : BitVec 2) : (ShiftType.ofBits b).toBits = b := by
  revert b; decide

theorem decodeArm_encodeDataProc (c i op s rn rd o) :
    decodeArm (encodeDataProc c i op s rn rd o) = dataProcOfFields c i op s rn rd o := by
  simp (disch := decide) only [encodeDataProc, decodeArm, decodeArmCond, extractLsb'_append_eq_of_le,
    extractLsb'_append_eq_of_add_le, getLsbD_append, Nat.reduceSub, Nat.reduceLT, Cond.ofBits_toBits, getLsbD_ofBool_zero,
    extractLsb'_eq_self, ↓reduceIte, BitVec.reduceToNat, Nat.sub_self]

theorem decodeArm_encodeTransfer (c i p u b w l rn rd o) :
    decodeArm (encodeTransfer c i p u b w l rn rd o) = transferOfFields c i p u b w l rn rd o := by
  simp (disch := decide) only [encodeTransfer, decodeArm, decodeArmCond, extractLsb'_append_eq_of_le,
    extractLsb'_append_eq_of_add_le, getLsbD_append, Nat.reduceSub, Nat.reduceLT, Cond.ofBits_toBits, getLsbD_ofBool_zero,
    extractLsb'_eq_self, ↓reduceIte, BitVec.reduceToNat, Nat.sub_self]

theorem decodeArm_encodeBlock (c p u s w l rn o) :
    decodeArm (encodeBlock c p u s w l rn o) = blockOfFields c p u s w l rn o := by
  simp (disch := decide) only [encodeBlock, decodeArm, decodeArmCond, extractLsb'_append_eq_of_le,
    extractLsb'_append_eq_of_add_le, getLsbD_append, Nat.reduceSub, Nat.reduceLT, Cond.ofBits_toBits, getLsbD_ofBool_zero,
    extractLsb'_eq_self, ↓reduceIte, BitVec.reduceToNat, Nat.sub_self, BitVec.reduceGetLsb, Bool.false_eq_true]

theorem decodeArm_encodeBx (c sel rm) : decodeArm (encodeBx c sel rm) = bxOfFields c sel rm := by
  simp (disch := decide) only [encodeBx, decodeArm_encodeDataProc, dataProcOfFields, extractLsb'_append_eq_of_le,
    extractLsb'_append_eq_of_add_le, extractLsb'_eq_self, Nat.reduceSub, Nat.sub_self]
  rfl

theorem decodeArm_isThumb (w : Word) : (decodeArm w).isThumb = false := by
  unfold decodeArm
  split
  · rfl
  · unfold decodeArmCond dataProcOfFields transferOfFields blockOfFields bxOfFields
    split <;> (repeat' split) <;> rfl

theorem decodeThumb_isThumb (h h2 : Half) : (decodeThumb h h2).isThumb = true := by
  unfold decodeThumb decodeThumbShiftAdd decodeThumbImm8 decodeThumbHigh decodeThumbAlu decodeThumbRegOffset
    decodeThumbImmOffset decodeThumbMisc decodeThumbBcond decodeThumbPair
  split <;> (repeat' split) <;> rfl

end Sys2Proof
end

