-- ==== Sys2Proof/Laws/Memory.lean ====
section
/-! SUPPORT. The laws of memory: a byte read after a write, the bytes a write leaves alone, and that every operation keeps the
canonical form. -/

namespace Sys2Proof.Machine

/-! ### The cells of one space -/

theorem cellsWf_mono {l : List Host.Cell} {lo lo' hi : Nat} (h : cellsWf l lo hi = true) (hl : lo' ≤ lo) :
    cellsWf l lo' hi = true := by
  cases l with
  | nil => rfl
  | cons c rest => obtain ⟨a, v⟩ := c; simp [cellsWf] at h ⊢; exact ⟨⟨⟨by omega, h.1.1.2⟩, h.1.2⟩, h.2⟩

theorem cellsWf_widen {l : List Host.Cell} {lo hi hi' : Nat} (h : cellsWf l lo hi = true) (hh : hi ≤ hi') :
    cellsWf l lo hi' = true := by
  induction l generalizing lo with
  | nil => rfl
  | cons c rest ih => obtain ⟨a, v⟩ := c; simp [cellsWf] at h ⊢; exact ⟨⟨⟨h.1.1.1, by omega⟩, h.1.2⟩, ih h.2⟩

theorem cellGet_below {l : List Host.Cell} {lo hi a : Nat} (h : cellsWf l lo hi = true) (ha : a < lo) :
    cellGet l a = blankByte := by
  induction l generalizing lo with
  | nil => rfl
  | cons c rest ih =>
    obtain ⟨b, v⟩ := c
    simp [cellsWf] at h
    have hne : a ≠ b := by omega
    simp only [cellGet, hne, if_false]
    exact ih h.2 (by omega)

theorem cellGet_cellSet_ne (l : List Host.Cell) {a b : Nat} (v : Byte) (h : b ≠ a) :
    cellGet (cellSet l a v) b = cellGet l b := by
  induction l with
  | nil => by_cases hv : v = blankByte <;> simp [cellSet, cellGet, hv, h]
  | cons c rest ih =>
    obtain ⟨k, x⟩ := c
    simp only [cellSet]
    split
    · split <;> simp [cellGet, h]
    · split
      · subst a; split <;> simp [cellGet, h]
      · simp [cellGet, ih]

theorem cellGet_cellSet_same {l : List Host.Cell} {lo hi : Nat} (h : cellsWf l lo hi = true) (a : Nat) (v : Byte) :
    cellGet (cellSet l a v) a = v := by
  induction l generalizing lo with
  | nil => by_cases hv : v = blankByte <;> simp [cellSet, cellGet, hv]
  | cons c rest ih =>
    obtain ⟨k, x⟩ := c
    simp [cellsWf] at h
    simp only [cellSet]
    by_cases h1 : a < k
    · by_cases hv : v = blankByte
      · simp only [h1, hv, if_true, cellGet, Nat.ne_of_lt h1, if_false]
        exact cellGet_below h.2 (by omega)
      · simp [h1, hv, cellGet]
    · by_cases h2 : a = k
      · by_cases hv : v = blankByte
        · subst h2
          simpa [hv] using cellGet_below h.2 (by omega : a < a + 1)
        · simp [h2, hv, cellGet]
      · simp [h1, h2, cellGet, ih h.2]

theorem cellsWf_cellSet {l : List Host.Cell} {lo hi a : Nat} (h : cellsWf l lo hi = true) (hlo : lo ≤ a) (hhi : a < hi) (v : Byte) :
    cellsWf (cellSet l a v) lo hi = true := by
  induction l generalizing lo with
  | nil => by_cases hv : v = blankByte <;> simp [cellSet, cellsWf, hv, hlo, hhi]
  | cons c rest ih =>
    obtain ⟨k, x⟩ := c
    have h' := h
    simp [cellsWf] at h
    simp only [cellSet]
    by_cases h1 : a < k
    · by_cases hv : v = blankByte
      · simp only [h1, hv, if_true]; exact h'
      · simp [h1, hv, cellsWf, hlo, hhi, h]
    · by_cases h2 : a = k
      · by_cases hv : v = blankByte
        · subst h2
          simpa [hv] using cellsWf_mono h.2 (by omega : lo ≤ a + 1)
        · subst h2; simp [hv, cellsWf, hlo, hhi, h]
      · simp only [h1, h2, if_false, cellsWf]
        simp [h, ih h.2 (by omega)]

/-! ### The bytes of one space -/

@[simp] theorem setByte_vaddr (sp : Space) (a : Nat) (v : Byte) : (sp.setByte a v).vaddr = sp.vaddr := rfl
@[simp] theorem setByte_size (sp : Space) (a : Nat) (v : Byte) : (sp.setByte a v).size = sp.size := rfl

@[simp] theorem setBytes_vaddr (sp : Space) (a : Nat) (bs : List Byte) : (sp.setBytes a bs).vaddr = sp.vaddr := by
  induction bs generalizing sp a with
  | nil => rfl
  | cons v rest ih => simp [Space.setBytes, ih]
@[simp] theorem setBytes_size (sp : Space) (a : Nat) (bs : List Byte) : (sp.setBytes a bs).size = sp.size := by
  induction bs generalizing sp a with
  | nil => rfl
  | cons v rest ih => simp [Space.setBytes, ih]

@[simp] theorem setBytes_top (sp : Space) (a : Nat) (bs : List Byte) : (sp.setBytes a bs).top = sp.top := by
  simp [Space.top]
@[simp] theorem setBytes_contains (sp : Space) (a b : Nat) (bs : List Byte) :
    (sp.setBytes a bs).contains b = sp.contains b := by simp [Space.contains]

theorem contains_iff {sp : Space} {a : Nat} : sp.contains a = true ↔ sp.vaddr.toNat ≤ a ∧ a < sp.top := by
  simp [Space.contains]

theorem byte_setBytes_outside (sp : Space) {a b : Nat} (bs : List Byte) (h : b < a ∨ a + bs.length ≤ b) :
    (sp.setBytes a bs).byte b = sp.byte b := by
  induction bs generalizing sp a with
  | nil => rfl
  | cons v rest ih =>
    simp only [List.length_cons] at h
    rw [Space.setBytes, ih _ (by omega)]
    exact cellGet_cellSet_ne _ _ (by omega)

theorem setByte_wf {sp : Space} (h : sp.wf = true) {a : Nat} (ha : sp.contains a = true) (v : Byte) :
    (sp.setByte a v).wf = true := by
  rw [contains_iff] at ha
  exact cellsWf_cellSet h ha.1 ha.2 v

theorem setBytes_wf {sp : Space} (h : sp.wf = true) {a : Nat} {bs : List Byte} (h1 : sp.vaddr.toNat ≤ a)
    (h2 : a + bs.length ≤ sp.top) : (sp.setBytes a bs).wf = true := by
  induction bs generalizing sp a with
  | nil => exact h
  | cons v rest ih =>
    simp only [List.length_cons] at h2
    exact ih (setByte_wf h (contains_iff.2 ⟨h1, by omega⟩) v) (by simpa using Nat.le_succ_of_le h1)
      (by simpa [Space.top] using (by simp [Space.top] at h2; omega))

theorem byte_setBytes_inside {sp : Space} (h : sp.wf = true) {a : Nat} {bs : List Byte} (h1 : sp.vaddr.toNat ≤ a)
    (h2 : a + bs.length ≤ sp.top) {k : Nat} (hk : k < bs.length) : (sp.setBytes a bs).byte (a + k) = bs[k] := by
  induction bs generalizing sp a k with
  | nil => simp at hk
  | cons v rest ih =>
    simp only [List.length_cons] at h2 hk
    cases k with
    | zero =>
      rw [Space.setBytes, byte_setBytes_outside _ _ (by omega)]
      exact cellGet_cellSet_same h a v
    | succ k =>
      have hw := setByte_wf h (contains_iff.2 ⟨h1, by omega⟩ : sp.contains a = true) v
      have := ih (sp := sp.setByte a v) (a := a + 1) hw (by simpa using Nat.le_succ_of_le h1)
        (by simp [Space.top] at h2 ⊢; omega) (by omega : k < rest.length)
      simpa [Space.setBytes, Nat.add_assoc, Nat.add_comm 1 k] using this

/-! ### The registry -/

/-- Looking up after a change of the first space that passes `p`, when the change moves no space. -/
theorem find_updateFirst (p q : Space → Bool) (g : Space → Space) (hq : ∀ sp, q (g sp) = q sp) (l : List Space) :
    (updateFirst p g l).find? q =
      match l.find? q with
      | none => none
      | some sp => if l.find? p = some sp then some (g sp) else some sp := by
  induction l with
  | nil => rfl
  | cons x rest ih =>
    by_cases hp : p x = true <;> by_cases hqx : q x = true
    · simp [updateFirst, hp, hqx, hq]
    · simp only [updateFirst, hp, if_true, List.find?_cons, hq, hqx]
      cases hf : rest.find? q with
      | none => simp
      | some sp =>
        have hsp : q sp = true := by simpa using List.find?_some hf
        have hne : x ≠ sp := fun e => hqx (e ▸ hsp)
        simp [hne]
    · have hne : rest.find? p ≠ some x := fun e => hp (by simpa using List.find?_some e)
      simp [updateFirst, hp, hqx, hne]
    · simp [updateFirst, hp, hqx, ih]

/-- Lookup after a store finds the same space, with the bytes written where it is the space that was stored to. -/
theorem lookup_store (m : Memory) (a b : Word) (bs : List Byte) :
    (m.store a bs).lookup b =
      match m.lookup b with
      | none => none
      | some sp => if m.lookup a = some sp then some (sp.setBytes a.toNat bs) else some sp :=
  find_updateFirst _ _ _ (by simp) _

theorem lookup_some {m : Memory} {a : Word} {sp : Space} (h : m.lookup a = some sp) :
    sp.vaddr.toNat ≤ a.toNat ∧ a.toNat < sp.top := by
  have := List.find?_some h
  simpa [contains_iff] using this

theorem updateFirst_none {p : Space → Bool} {g : Space → Space} {l : List Space} (h : l.find? p = none) :
    updateFirst p g l = l := by
  induction l with
  | nil => rfl
  | cons x rest ih =>
    by_cases hp : p x = true
    · simp [hp] at h
    · simp [hp] at h
      simp only [updateFirst, hp, Bool.false_eq_true, if_false]
      rw [ih (by simpa using h)]

/-- A store to an address no space contains changes nothing (R88). -/
theorem store_unmapped {m : Memory} {a : Word} (h : m.lookup a = none) (bs : List Byte) : m.store a bs = m := by
  unfold Memory.store
  rw [updateFirst_none h]

/-- A store leaves every byte outside the stored ones as it was. -/
theorem read8_store_outside (m : Memory) {a b : Word} {bs : List Byte} (h : b.toNat < a.toNat ∨ a.toNat + bs.length ≤ b.toNat) :
    (m.store a bs).read8 b = m.read8 b := by
  unfold Memory.read8
  rw [lookup_store]
  cases hb : m.lookup b with
  | none => rfl
  | some sp =>
    by_cases he : m.lookup a = some sp
    · simp only [he, if_true]; exact byte_setBytes_outside _ _ h
    · simp [he]

/-! ### The canonical form -/

theorem spacesWf_cons {sp : Space} {rest : List Space} : spacesWf (sp :: rest) = true ↔
    sp.wf = true ∧ (∀ q ∈ rest, sp.vaddr.toNat < q.vaddr.toNat ∨ (sp.vaddr = q.vaddr ∧ sp.size = 0)) ∧ spacesWf rest = true := by
  simp [spacesWf, and_assoc]

theorem mem_updateFirst {p : Space → Bool} {g : Space → Space} {l : List Space} {x : Space} (h : x ∈ updateFirst p g l) :
    x ∈ l ∨ ∃ y ∈ l, x = g y := by
  induction l with
  | nil => simp [updateFirst] at h
  | cons y rest ih =>
    simp only [updateFirst] at h
    split at h
    · rcases List.mem_cons.1 h with h | h
      · exact .inr ⟨y, by simp, h⟩
      · exact .inl (by simp [h])
    · rcases List.mem_cons.1 h with h | h
      · exact .inl (by simp [h])
      · rcases ih h with h | ⟨z, hz, e⟩
        · exact .inl (by simp [h])
        · exact .inr ⟨z, by simp [hz], e⟩

theorem spacesWf_updateFirst {p : Space → Bool} {g : Space → Space} {l : List Space} (h : spacesWf l = true)
    (hv : ∀ sp, (g sp).vaddr = sp.vaddr) (hz : ∀ sp, (g sp).size = sp.size)
    (hw : ∀ sp, l.find? p = some sp → sp.wf = true → (g sp).wf = true) : spacesWf (updateFirst p g l) = true := by
  induction l with
  | nil => rfl
  | cons x rest ih =>
    rw [spacesWf_cons] at h
    by_cases hp : p x = true
    · simp only [updateFirst, hp, if_true]
      rw [spacesWf_cons, hv, hz]
      exact ⟨hw x (by simp [hp]) h.1, h.2.1, h.2.2⟩
    · simp only [updateFirst, hp, Bool.false_eq_true, if_false]
      rw [spacesWf_cons]
      refine ⟨h.1, fun q hq => ?_, ih h.2.2 (fun sp hsp => hw sp (by simp [hp, hsp]))⟩
      rcases mem_updateFirst hq with hq | ⟨y, hy, rfl⟩
      · exact h.2.1 q hq
      · rw [hv]; exact h.2.1 y hy

theorem spacesWf_mem {l : List Space} (h : spacesWf l = true) {sp : Space} (hm : sp ∈ l) : sp.wf = true := by
  induction l with
  | nil => simp at hm
  | cons x rest ih =>
    rw [spacesWf_cons] at h
    rcases List.mem_cons.1 hm with rfl | hm
    · exact h.1
    · exact ih h.2.2 hm

theorem lookup_wf {m : Memory} (h : m.wf = true) {a : Word} {sp : Space} (hl : m.lookup a = some sp) : sp.wf = true :=
  spacesWf_mem h (List.mem_of_find?_eq_some hl)

/-- A store whose bytes lie inside its space keeps the canonical form. -/
theorem store_wf {m : Memory} (h : m.wf = true) {a : Word} {bs : List Byte}
    (hin : ∀ sp, m.lookup a = some sp → a.toNat + bs.length ≤ sp.top) : (m.store a bs).wf = true :=
  spacesWf_updateFirst h (by simp) (by simp) fun sp hsp hw =>
    setBytes_wf hw (lookup_some hsp).1 (hin sp hsp)

theorem write8_wf {m : Memory} (h : m.wf = true) (a : Word) (v : Byte) : (m.write8 a v).wf = true :=
  store_wf h fun sp hsp => by have := (lookup_some hsp).2; simp; omega

/-- What a passed access check says (R89, R90). -/
theorem access_ok {p : MisalignedPolicy} {m : Memory} {a : Word} {n : Nat} {o : Option Space} (h : m.access p a n = .ok o) :
    o = m.lookup a ∧ (p = .fault → a.toNat % n = 0) ∧ ∀ sp, m.lookup a = some sp → a.toNat + n ≤ sp.top := by
  unfold Memory.access at h
  split at h
  · cases h
  · rename_i hp
    have hp' : p = .fault → a.toNat % n = 0 := fun e => by
      by_contra hc; exact hp ⟨e, hc⟩
    cases hl : m.lookup a with
    | none => simp [hl] at h; subst h; simpa using hp'
    | some sp =>
      simp only [hl] at h
      split at h
      · cases h
      · cases h
        refine ⟨rfl, hp', fun q hq => ?_⟩
        cases hq; omega

/-- When the access check passes (R89, R90). -/
theorem access_eq_ok {p : MisalignedPolicy} {m : Memory} {a : Word} {n : Nat} (h1 : p = .fault → a.toNat % n = 0)
    (h2 : ∀ sp, m.lookup a = some sp → a.toNat + n ≤ sp.top) : m.access p a n = .ok (m.lookup a) := by
  unfold Memory.access
  rw [if_neg (fun h => h.2 (h1 h.1))]
  cases hl : m.lookup a with
  | none => rfl
  | some sp =>
    have := h2 sp hl
    simp only
    rw [if_neg (by omega)]

theorem write16_ok {p : MisalignedPolicy} {m m' : Memory} {a : Word} {v : Half} (h : m.write16 p a v = .ok m') :
    m' = m.store a [v.extractLsb' 8 8, v.extractLsb' 0 8] ∧ (p = .fault → a.toNat % 2 = 0) ∧
      ∀ sp, m.lookup a = some sp → a.toNat + 2 ≤ sp.top := by
  unfold Memory.write16 at h
  cases ha : m.access p a 2 with
  | error k => simp [ha] at h
  | ok o =>
    simp only [ha] at h
    cases h
    exact ⟨rfl, (access_ok ha).2⟩

theorem write32_ok {p : MisalignedPolicy} {m m' : Memory} {a v : Word} (h : m.write32 p a v = .ok m') :
    m' = m.store a [v.extractLsb' 24 8, v.extractLsb' 16 8, v.extractLsb' 8 8, v.extractLsb' 0 8] ∧
      (p = .fault → a.toNat % 4 = 0) ∧ ∀ sp, m.lookup a = some sp → a.toNat + 4 ≤ sp.top := by
  unfold Memory.write32 at h
  cases ha : m.access p a 4 with
  | error k => simp [ha] at h
  | ok o =>
    simp only [ha] at h
    cases h
    exact ⟨rfl, (access_ok ha).2⟩

theorem write16_wf {p : MisalignedPolicy} {m m' : Memory} (hw : m.wf = true) {a : Word} {v : Half}
    (h : m.write16 p a v = .ok m') : m'.wf = true := by
  obtain ⟨rfl, -, h2⟩ := write16_ok h
  exact store_wf hw (by simpa using h2)

theorem write32_wf {p : MisalignedPolicy} {m m' : Memory} (hw : m.wf = true) {a v : Word} (h : m.write32 p a v = .ok m') :
    m'.wf = true := by
  obtain ⟨rfl, -, h2⟩ := write32_ok h
  exact store_wf hw (by simpa using h2)

theorem insertSpace_mem {sp x : Space} {l : List Space} (h : x ∈ insertSpace sp l) : x = sp ∨ x ∈ l := by
  induction l with
  | nil => simpa [insertSpace] using h
  | cons q rest ih =>
    simp only [insertSpace] at h
    split at h
    · simpa using h
    · rcases List.mem_cons.1 h with h | h
      · exact .inr (by simp [h])
      · rcases ih h with h | h
        · exact .inl h
        · exact .inr (by simp [h])

theorem spacesWf_insertSpace {sp : Space} {l : List Space} (h : spacesWf l = true) (hsp : sp.wf = true)
    (hmiss : ∀ q ∈ l, q.contains sp.vaddr.toNat = false) : spacesWf (insertSpace sp l) = true := by
  induction l with
  | nil => simp [insertSpace, spacesWf, hsp]
  | cons q rest ih =>
    have h' := h
    rw [spacesWf_cons] at h
    simp only [insertSpace]
    split
    · rename_i hlt
      rw [spacesWf_cons]
      refine ⟨hsp, fun x hx => .inl ?_, h'⟩
      rcases List.mem_cons.1 hx with rfl | hx
      · exact hlt
      · rcases h.2.1 x hx with hlt' | ⟨he, -⟩
        · omega
        · rw [← he]; exact hlt
    · rename_i hge
      rw [spacesWf_cons]
      refine ⟨h.1, fun x hx => ?_, ih h.2.2 (fun y hy => hmiss y (by simp [hy]))⟩
      rcases insertSpace_mem hx with rfl | hx
      · by_cases he : q.vaddr = x.vaddr
        · refine .inr ⟨he, ?_⟩
          have hm := hmiss q (by simp)
          simp [Space.contains, Space.top, he] at hm
          exact hm
        · refine .inl (lt_of_le_of_ne (by omega) fun hn => he (BitVec.eq_of_toNat_eq hn))
      · exact h.2.1 x hx

theorem create_wf {m : Memory} (h : m.wf = true) (vaddr : Word) (size : Nat) : (m.create vaddr size).wf = true := by
  unfold Memory.create
  cases hl : m.lookup vaddr with
  | some sp => exact h
  | none =>
    refine spacesWf_insertSpace h rfl fun q hq => ?_
    have := List.find?_eq_none.1 hl q hq
    simpa using this

theorem destroyAll_wf (m : Memory) : m.destroyAll.wf = true := rfl

theorem spacesWf_filter {l : List Space} (h : spacesWf l = true) (p : Space → Bool) : spacesWf (l.filter p) = true := by
  induction l with
  | nil => rfl
  | cons q rest ih =>
    rw [spacesWf_cons] at h
    by_cases hp : p q = true
    · rw [List.filter_cons_of_pos hp, spacesWf_cons]
      exact ⟨h.1, fun x hx => h.2.1 x (List.mem_of_mem_filter hx), ih h.2.2⟩
    · rw [List.filter_cons_of_neg hp]; exact ih h.2.2

theorem destroy_wf {m : Memory} (h : m.wf = true) (vaddr : Word) : (m.destroy vaddr).wf = true := spacesWf_filter h _

theorem writeBytes_wf {m : Memory} (h : m.wf = true) (a : Word) (bs : List Byte) : (m.writeBytes a bs).wf = true := by
  induction bs generalizing m a with
  | nil => exact h
  | cons v rest ih => exact ih (write8_wf h a v) _

/-- Memcpy where no space owns the target address (R95). -/
theorem copyIn_unmapped {m : Memory} {a : Word} (h : m.lookup a = none) (bs : List Byte) : m.copyIn a bs = m := by
  simp [Memory.copyIn, h]

/-- Memcpy into the space that owns the target address is a store of the bytes that lie in it. -/
theorem copyIn_mapped {m : Memory} {a : Word} {sp : Space} (h : m.lookup a = some sp) (bs : List Byte) :
    m.copyIn a bs = m.store a (bs.take (sp.top - a.toNat)) := by simp [Memory.copyIn, h]

theorem copyIn_wf {m : Memory} (h : m.wf = true) (a : Word) (bs : List Byte) : (m.copyIn a bs).wf = true := by
  cases hl : m.lookup a with
  | none => rwa [copyIn_unmapped hl]
  | some sp =>
    rw [copyIn_mapped hl]
    refine store_wf h fun q hq => ?_
    obtain rfl : sp = q := by simpa [hl] using hq
    have := (lookup_some hl).2
    simp; omega

theorem loadBinary_wf {m : Memory} (h : m.wf = true) (image : List Byte) : (m.loadBinary image).wf = true :=
  writeBytes_wf (create_wf h _ _) _ _

theorem loadHeaders_wf {m : Memory} (h : m.wf = true) (image : List Byte) (hs : List Word) :
    (loadHeaders image hs m).1.wf = true := by
  induction hs generalizing m with
  | nil => exact h
  | cons o rest ih =>
    simp only [loadHeaders]
    split
    · exact h
    · split
      · exact ih (writeBytes_wf (create_wf h _ _) _ _)
      · exact h

theorem loadElf_wf {m : Memory} (h : m.wf = true) (image : List Byte) : (m.loadElf image).1.wf = true := by
  unfold Memory.loadElf
  split
  · exact h
  · have := loadHeaders_wf h image (headerOffsets image)
    split <;> simp_all

theorem offset_succ (o : Word) (i : Nat) : o + 1#32 + BitVec.ofNat 32 i = o + BitVec.ofNat 32 (i + 1) := by
  rw [BitVec.add_assoc]
  congr 1
  apply BitVec.eq_of_toNat_eq
  simp [BitVec.toNat_add]; omega

/-- Consecutive file bytes lie inside the image where each of them does. -/
theorem insideImage_iff {image : List Byte} {o : Word} {n : Nat} :
    insideImage image o n = true ↔ ∀ i, i < n → (o + BitVec.ofNat 32 i).toNat < image.length := by
  induction n generalizing o with
  | zero => simp [insideImage]
  | succ n ih =>
    simp only [insideImage, Bool.and_eq_true, decide_eq_true_eq, ih, offset_succ]
    refine ⟨fun h i hi => ?_, fun h => ⟨by simpa using h 0 (by omega), fun i hi => h (i + 1) (by omega)⟩⟩
    cases i with
    | zero => simpa using h.1
    | succ i => exact h.2 i (by omega)

@[simp] theorem fileBytes_length (image : List Byte) (o : Word) (n : Nat) : (fileBytes image o n).length = n := by
  induction n generalizing o with
  | zero => rfl
  | succ n ih => simp [fileBytes, ih]

@[simp] theorem fileBytes_get (image : List Byte) (o : Word) {n i : Nat} (h : i < (fileBytes image o n).length) :
    (fileBytes image o n)[i] = imageByte image (o + BitVec.ofNat 32 i) := by
  induction n generalizing o i with
  | zero => simp at h
  | succ n ih =>
    cases i with
    | zero => simp [fileBytes]
    | succ i => simpa [fileBytes, offset_succ] using ih (o + 1#32) (i := i) (by simpa using h)

theorem reset_mem_wf : State.reset.mem.wf = true := rfl

/-! ### Reading back -/

/-- The bytes of a store that lies inside its space, read from the space the store went to. -/
theorem lookup_store_same {m : Memory} {a : Word} {sp : Space} (h : m.lookup a = some sp) (bs : List Byte) :
    (m.store a bs).lookup a = some (sp.setBytes a.toNat bs) := by
  rw [lookup_store, h]; simp

theorem Space.copyOut_length (sp : Space) (a : Nat) (buffer : List Byte) : (sp.copyOut a buffer).length = buffer.length := by
  induction buffer generalizing a with
  | nil => rfl
  | cons v rest ih => simp [Space.copyOut, ih]

/-- The bytes a copy out gives: the space's, and past its end the buffer's. -/
theorem Space.copyOut_get (sp : Space) (a : Nat) (buffer : List Byte) {k : Nat} (hk : k < buffer.length) :
    (sp.copyOut a buffer)[k]? = some (if a + k < sp.top then sp.byte (a + k) else buffer[k]) := by
  induction buffer generalizing a k with
  | nil => simp at hk
  | cons v rest ih =>
    cases k with
    | zero => simp [Space.copyOut]
    | succ k => simpa [Space.copyOut, show a + (k + 1) = a + 1 + k by omega] using ih (a + 1) (by simpa using hk)

theorem append_bytes (v : Word) :
    (v.extractLsb' 24 8 ++ v.extractLsb' 16 8 ++ v.extractLsb' 8 8 ++ v.extractLsb' 0 8 : BitVec 32) = v := by
  apply BitVec.eq_of_getLsbD_eq
  intro i hi
  simp only [BitVec.getLsbD_append, BitVec.getLsbD_extractLsb']
  by_cases h1 : i < 8
  · simp [h1]
  · by_cases h2 : i - 8 < 8
    · simp [h1, h2, show 8 + (i - 8) = i by omega]
    · by_cases h3 : i - 8 - 8 < 8
      · simp [h1, h2, h3, show 16 + (i - 8 - 8) = i by omega]
      · simp [h1, h2, h3, show i - 8 - 8 - 8 < 8 by omega, show 24 + (i - 8 - 8 - 8) = i by omega]

theorem append_halves (v : Half) : (v.extractLsb' 8 8 ++ v.extractLsb' 0 8 : BitVec 16) = v := by
  apply BitVec.eq_of_getLsbD_eq
  intro i hi
  simp only [BitVec.getLsbD_append, BitVec.getLsbD_extractLsb']
  by_cases h1 : i < 8
  · simp [h1]
  · simp [h1, show i - 8 < 8 by omega, show 8 + (i - 8) = i by omega]

/-! ### What Create and the loaders' copy change -/

theorem find_insertSpace_other {q : Space → Bool} {sp : Space} (h : q sp = false) (l : List Space) :
    (insertSpace sp l).find? q = l.find? q := by
  induction l with
  | nil => simp [insertSpace, h]
  | cons x rest ih => by_cases hx : q x = true <;> simp only [insertSpace] <;> split <;> simp [h, hx, ih]

theorem find_insertSpace_new {q : Space → Bool} {sp : Space} (h : q sp = true) {l : List Space} (hl : l.find? q = none) :
    (insertSpace sp l).find? q = some sp := by
  induction l with
  | nil => simp [insertSpace, h]
  | cons x rest ih =>
    have hx : q x = false := by simpa using List.find?_eq_none.1 hl x (by simp)
    simp only [insertSpace]
    split
    · simp [h]
    · rw [List.find?_cons, hx]
      exact ih (by simpa [hx] using hl)

/-- Create changes no Lookup outside the new space (R72). -/
theorem lookup_create_outside (m : Memory) {v a : Word} {n : Nat} (h : a.toNat < v.toNat ∨ v.toNat + n ≤ a.toNat) :
    (m.create v n).lookup a = m.lookup a := by
  unfold Memory.create
  cases m.lookup v with
  | some _ => rfl
  | none => exact find_insertSpace_other (by rw [Bool.eq_false_iff, Ne, contains_iff]; simp only [Space.top]; omega) _

/-- An address of the new space that no space contained is found in it. -/
theorem lookup_create_inside {m : Memory} {v a : Word} {n : Nat} (hv : m.lookup v = none) (ha : m.lookup a = none)
    (h : v.toNat ≤ a.toNat ∧ a.toNat < v.toNat + n) :
    (m.create v n).lookup a = some { vaddr := v, size := n, cells := [] } := by
  unfold Memory.create
  rw [hv]
  exact find_insertSpace_new (contains_iff.2 h) ha

theorem mapped_write8 (m : Memory) (a b : Word) (v : Byte) : ((m.write8 a v).lookup b).isSome = (m.lookup b).isSome := by
  unfold Memory.write8
  rw [lookup_store]
  cases m.lookup b with
  | none => rfl
  | some sp => by_cases h : m.lookup a = some sp <;> simp [h]

/-- The copy maps and unmaps no address. -/
theorem mapped_writeBytes (m : Memory) (a b : Word) (bs : List Byte) :
    ((m.writeBytes a bs).lookup b).isSome = (m.lookup b).isSome := by
  induction bs generalizing m a with
  | nil => rfl
  | cons v rest ih => rw [Memory.writeBytes, ih, mapped_write8]

/-- The copy changes no byte outside those it names. -/
theorem read8_writeBytes_outside (m : Memory) {a b : Word} {bs : List Byte} (ha : a.toNat + bs.length ≤ 2 ^ 32)
    (h : b.toNat < a.toNat ∨ a.toNat + bs.length ≤ b.toNat) : (m.writeBytes a bs).read8 b = m.read8 b := by
  induction bs generalizing m a with
  | nil => rfl
  | cons v rest ih =>
    simp only [List.length_cons] at ha h
    cases rest with
    | nil => exact read8_store_outside m (by simpa using h)
    | cons w rest =>
      simp only [List.length_cons] at ha h
      have hs : (a + 1#32).toNat = a.toNat + 1 := by simp; omega
      rw [Memory.writeBytes, ih _ (by rw [hs]; simp; omega) (by rw [hs]; simp; omega)]
      exact read8_store_outside m (by simp; omega)

/-- A mapped byte of the copy reads as what was copied to it. -/
theorem read8_writeBytes_inside {m : Memory} (hw : m.wf = true) {a b : Word} {bs : List Byte} (ha : a.toNat + bs.length ≤ 2 ^ 32)
    (hb : a.toNat ≤ b.toNat) (hk : b.toNat - a.toNat < bs.length) (hm : (m.lookup b).isSome = true) :
    (m.writeBytes a bs).read8 b = bs[b.toNat - a.toNat] := by
  induction bs generalizing m a with
  | nil => simp at hk
  | cons v rest ih =>
    simp only [List.length_cons] at ha hk
    by_cases he : b = a
    · subst he
      obtain ⟨sp, hl⟩ := Option.isSome_iff_exists.1 hm
      have hlo := lookup_some hl
      have hread : (m.write8 b v).read8 b = v := by
        unfold Memory.read8 Memory.write8
        rw [lookup_store_same hl]
        exact byte_setBytes_inside (k := 0) (lookup_wf hw hl) hlo.1 (by simp; omega) (by simp)
      cases rest with
      | nil => simpa [Memory.writeBytes] using hread
      | cons w rest =>
        simp only [List.length_cons] at ha
        have hs : (b + 1#32).toNat = b.toNat + 1 := by simp; omega
        rw [Memory.writeBytes, read8_writeBytes_outside _ (by rw [hs]; simp; omega) (by rw [hs]; omega), hread]
        simp
    · have hne : b.toNat ≠ a.toNat := fun h => he (BitVec.eq_of_toNat_eq h)
      have hs : (a + 1#32).toNat = a.toNat + 1 := by have := b.isLt; simp; omega
      rw [Memory.writeBytes, ih (write8_wf hw a v) (by rw [hs]; omega) (by rw [hs]; omega) (by rw [hs]; omega)
        (by rw [mapped_write8]; exact hm)]
      simp only [hs]
      rw [List.getElem_cons, dif_neg (by omega)]
      congr 1

end Sys2Proof.Machine
end

