-- ==== Sys2Proof/Laws/PerInstr.lean ====
section
/-! SUPPORT. The family RoundTrip: an instruction's words decode to it, constructor by constructor. -/

namespace Sys2Proof.Laws.RoundTrip

open BitVec

set_option linter.unusedSimpArgs false
set_option Elab.async false

/-- Decoding an encoded well-formed instruction gives it back. -/
def Statement (i : Instr) : Prop := i.wf = true → (encode i).decode = i

theorem armCondNever (low : BitVec 28) :
    Statement (.armCondNever low) := by
  intro _
  simp (disch := decide) [encode, Code.decode, decodeArm, extractLsb'_append_eq_of_le,
    extractLsb'_append_eq_of_add_le, getLsbD_append, getLsbD_ofBool_zero, -Nat.reduceAdd, -extractLsb'_toNat, -getLsbD_eq_getElem]
  rfl

theorem armBx (c : Cond) (rm : RegNum) :
    Statement (.armBx c rm) := by
  intro h
  simp [encode, Code.decode, decodeArm_encodeBx, bxOfFields]

theorem armBlxReg (c : Cond) (rm : RegNum) :
    Statement (.armBlxReg c rm) := by
  intro h
  simp [encode, Code.decode, decodeArm_encodeBx, bxOfFields]

theorem armBxExt (c : Cond) (sel : BitVec 4) (rm : RegNum) :
    Statement (.armBxExt c sel rm) := by
  intro h
  simp [Instr.wf] at h
  simp [encode, Code.decode, decodeArm_encodeBx, bxOfFields, h]

theorem armSwi (c : Cond) (comment : BitVec 24) :
    Statement (.armSwi c comment) := by
  intro _
  simp (disch := decide) [encode, Code.decode, decodeArm, decodeArmCond, encodeClass1x, extractLsb'_append_eq_of_le,
    extractLsb'_append_eq_of_add_le, getLsbD_append, getLsbD_ofBool_zero, -Nat.reduceAdd, -extractLsb'_toNat, -getLsbD_eq_getElem]

theorem armExtDp (c : Cond) (op : BitVec 4) (sbit : Bool) (rn rd : RegNum) (amount : BitVec 5) (ty : ShiftType) (rm : RegNum) :
    Statement (.armExtDp c op sbit rn rd amount ty rm) := by
  intro h
  simp only [Instr.wf, bxFields, Bool.not_eq_eq_eq_not, Bool.not_true] at h
  simp (disch := decide) [h, encode, Code.decode, decodeArm_encodeDataProc, dataProcOfFields, bxFields, extractLsb'_append_eq_of_le,
    extractLsb'_append_eq_of_add_le, getLsbD_append, getLsbD_ofBool_zero, -Nat.reduceAdd, -extractLsb'_toNat, -getLsbD_eq_getElem]

theorem armMrs (c : Cond) (i : Bool) (rnIgnored : BitVec 4) (rd : RegNum) (low : BitVec 12) :
    Statement (.armMrs c i rnIgnored rd low) := by
  intro h
  cases i <;> simp only [Instr.wf, Bool.true_or, Bool.false_or, Bool.not_eq_eq_eq_not, Bool.not_true] at h <;>
  simp (disch := decide) [h, encode, Code.decode, decodeArm_encodeDataProc, dataProcOfFields, bxFields, extractLsb'_append_eq_of_le,
    extractLsb'_append_eq_of_add_le, getLsbD_append, getLsbD_ofBool_zero, -Nat.reduceAdd, -extractLsb'_toNat, -getLsbD_eq_getElem]

theorem armMsr (c : Cond) (mask rdIgnored : BitVec 4) (src : MsrSource) :
    Statement (.armMsr c mask rdIgnored src) := by
  intro h
  cases src with
  | imm rot imm8 =>
    simp (disch := decide) [encode, Code.decode, decodeArm_encodeDataProc, dataProcOfFields, bxFields, msrSourceOfFields,
      MsrSource.bits, MsrSource.isImm, extractLsb'_append_eq_of_le,
      extractLsb'_append_eq_of_add_le, getLsbD_append, getLsbD_ofBool_zero, -Nat.reduceAdd, -extractLsb'_toNat, -getLsbD_eq_getElem]
  | reg ignored rm =>
    simp [Instr.wf, bxFields] at h
    simp (disch := decide) [encode, Code.decode, decodeArm_encodeDataProc, dataProcOfFields, bxFields, msrSourceOfFields,
      MsrSource.bits, MsrSource.isImm, extractLsb'_append_eq_of_le,
      extractLsb'_append_eq_of_add_le, getLsbD_append, getLsbD_ofBool_zero, -Nat.reduceAdd, -extractLsb'_toNat, -getLsbD_eq_getElem]
    exact fun h1 h2 h3 => absurd h (by simp [h1, h2, h3])

theorem armMrs2 (c : Cond) (i : Bool) (rnIgnored rdIgnored : BitVec 4) (low : BitVec 12) :
    Statement (.armMrs2 c i rnIgnored rdIgnored low) := by
  intro h
  cases i <;> simp only [Instr.wf, Bool.true_or, Bool.false_or, Bool.not_eq_eq_eq_not, Bool.not_true] at h <;>
  simp (disch := decide) [h, encode, Code.decode, decodeArm_encodeDataProc, dataProcOfFields, bxFields, extractLsb'_append_eq_of_le,
    extractLsb'_append_eq_of_add_le, getLsbD_append, getLsbD_ofBool_zero, -Nat.reduceAdd, -extractLsb'_toNat, -getLsbD_eq_getElem]

theorem armMsr2 (c : Cond) (i : Bool) (rnIgnored rdIgnored : BitVec 4) (low : BitVec 12) :
    Statement (.armMsr2 c i rnIgnored rdIgnored low) := by
  intro h
  cases i <;> simp only [Instr.wf, Bool.true_or, Bool.false_or, Bool.not_eq_eq_eq_not, Bool.not_true] at h <;>
  simp (disch := decide) [h, encode, Code.decode, decodeArm_encodeDataProc, dataProcOfFields, bxFields, extractLsb'_append_eq_of_le,
    extractLsb'_append_eq_of_add_le, getLsbD_append, getLsbD_ofBool_zero, -Nat.reduceAdd, -extractLsb'_toNat, -getLsbD_eq_getElem]

theorem armAnd (c : Cond) (sbit : Bool) (rn rd : RegNum) (o : Operand2) :
    Statement (.armAnd c sbit rn rd o) := by
  intro _
  cases o <;>
  simp (disch := decide) [encode, Code.decode, decodeArm_encodeDataProc, dataProcOfFields, bxFields, operand2OfFields,
    Operand2.bits, Operand2.isImm, extractLsb'_append_eq_of_le,
    extractLsb'_append_eq_of_add_le, getLsbD_append, getLsbD_ofBool_zero, -Nat.reduceAdd, -extractLsb'_toNat, -getLsbD_eq_getElem]

theorem armEor (c : Cond) (sbit : Bool) (rn rd : RegNum) (o : Operand2) :
    Statement (.armEor c sbit rn rd o) := by
  intro _
  cases o <;>
  simp (disch := decide) [encode, Code.decode, decodeArm_encodeDataProc, dataProcOfFields, bxFields, operand2OfFields,
    Operand2.bits, Operand2.isImm, extractLsb'_append_eq_of_le,
    extractLsb'_append_eq_of_add_le, getLsbD_append, getLsbD_ofBool_zero, -Nat.reduceAdd, -extractLsb'_toNat, -getLsbD_eq_getElem]

theorem armSub (c : Cond) (sbit : Bool) (rn rd : RegNum) (o : Operand2) :
    Statement (.armSub c sbit rn rd o) := by
  intro _
  cases o <;>
  simp (disch := decide) [encode, Code.decode, decodeArm_encodeDataProc, dataProcOfFields, bxFields, operand2OfFields,
    Operand2.bits, Operand2.isImm, extractLsb'_append_eq_of_le,
    extractLsb'_append_eq_of_add_le, getLsbD_append, getLsbD_ofBool_zero, -Nat.reduceAdd, -extractLsb'_toNat, -getLsbD_eq_getElem]

theorem armRsb (c : Cond) (sbit : Bool) (rn rd : RegNum) (o : Operand2) :
    Statement (.armRsb c sbit rn rd o) := by
  intro _
  cases o <;>
  simp (disch := decide) [encode, Code.decode, decodeArm_encodeDataProc, dataProcOfFields, bxFields, operand2OfFields,
    Operand2.bits, Operand2.isImm, extractLsb'_append_eq_of_le,
    extractLsb'_append_eq_of_add_le, getLsbD_append, getLsbD_ofBool_zero, -Nat.reduceAdd, -extractLsb'_toNat, -getLsbD_eq_getElem]

theorem armAdd (c : Cond) (sbit : Bool) (rn rd : RegNum) (o : Operand2) :
    Statement (.armAdd c sbit rn rd o) := by
  intro _
  cases o <;>
  simp (disch := decide) [encode, Code.decode, decodeArm_encodeDataProc, dataProcOfFields, bxFields, operand2OfFields,
    Operand2.bits, Operand2.isImm, extractLsb'_append_eq_of_le,
    extractLsb'_append_eq_of_add_le, getLsbD_append, getLsbD_ofBool_zero, -Nat.reduceAdd, -extractLsb'_toNat, -getLsbD_eq_getElem]

theorem armAdc (c : Cond) (sbit : Bool) (rn rd : RegNum) (o : Operand2) :
    Statement (.armAdc c sbit rn rd o) := by
  intro _
  cases o <;>
  simp (disch := decide) [encode, Code.decode, decodeArm_encodeDataProc, dataProcOfFields, bxFields, operand2OfFields,
    Operand2.bits, Operand2.isImm, extractLsb'_append_eq_of_le,
    extractLsb'_append_eq_of_add_le, getLsbD_append, getLsbD_ofBool_zero, -Nat.reduceAdd, -extractLsb'_toNat, -getLsbD_eq_getElem]

theorem armSbc (c : Cond) (sbit : Bool) (rn rd : RegNum) (o : Operand2) :
    Statement (.armSbc c sbit rn rd o) := by
  intro _
  cases o <;>
  simp (disch := decide) [encode, Code.decode, decodeArm_encodeDataProc, dataProcOfFields, bxFields, operand2OfFields,
    Operand2.bits, Operand2.isImm, extractLsb'_append_eq_of_le,
    extractLsb'_append_eq_of_add_le, getLsbD_append, getLsbD_ofBool_zero, -Nat.reduceAdd, -extractLsb'_toNat, -getLsbD_eq_getElem]

theorem armRsc (c : Cond) (sbit : Bool) (rn rd : RegNum) (o : Operand2) :
    Statement (.armRsc c sbit rn rd o) := by
  intro _
  cases o <;>
  simp (disch := decide) [encode, Code.decode, decodeArm_encodeDataProc, dataProcOfFields, bxFields, operand2OfFields,
    Operand2.bits, Operand2.isImm, extractLsb'_append_eq_of_le,
    extractLsb'_append_eq_of_add_le, getLsbD_append, getLsbD_ofBool_zero, -Nat.reduceAdd, -extractLsb'_toNat, -getLsbD_eq_getElem]

theorem armTst (c : Cond) (rn : RegNum) (rdIgnored : BitVec 4) (o : Operand2) :
    Statement (.armTst c rn rdIgnored o) := by
  intro _
  cases o <;>
  simp (disch := decide) [encode, Code.decode, decodeArm_encodeDataProc, dataProcOfFields, bxFields, operand2OfFields,
    Operand2.bits, Operand2.isImm, extractLsb'_append_eq_of_le,
    extractLsb'_append_eq_of_add_le, getLsbD_append, getLsbD_ofBool_zero, -Nat.reduceAdd, -extractLsb'_toNat, -getLsbD_eq_getElem]

theorem armTeq (c : Cond) (rn : RegNum) (rdIgnored : BitVec 4) (o : Operand2) :
    Statement (.armTeq c rn rdIgnored o) := by
  intro _
  cases o <;>
  simp (disch := decide) [encode, Code.decode, decodeArm_encodeDataProc, dataProcOfFields, bxFields, operand2OfFields,
    Operand2.bits, Operand2.isImm, extractLsb'_append_eq_of_le,
    extractLsb'_append_eq_of_add_le, getLsbD_append, getLsbD_ofBool_zero, -Nat.reduceAdd, -extractLsb'_toNat, -getLsbD_eq_getElem]

theorem armCmp (c : Cond) (rn : RegNum) (rdIgnored : BitVec 4) (o : Operand2) :
    Statement (.armCmp c rn rdIgnored o) := by
  intro _
  cases o <;>
  simp (disch := decide) [encode, Code.decode, decodeArm_encodeDataProc, dataProcOfFields, bxFields, operand2OfFields,
    Operand2.bits, Operand2.isImm, extractLsb'_append_eq_of_le,
    extractLsb'_append_eq_of_add_le, getLsbD_append, getLsbD_ofBool_zero, -Nat.reduceAdd, -extractLsb'_toNat, -getLsbD_eq_getElem]

theorem armCmn (c : Cond) (rn : RegNum) (rdIgnored : BitVec 4) (o : Operand2) :
    Statement (.armCmn c rn rdIgnored o) := by
  intro _
  cases o <;>
  simp (disch := decide) [encode, Code.decode, decodeArm_encodeDataProc, dataProcOfFields, bxFields, operand2OfFields,
    Operand2.bits, Operand2.isImm, extractLsb'_append_eq_of_le,
    extractLsb'_append_eq_of_add_le, getLsbD_append, getLsbD_ofBool_zero, -Nat.reduceAdd, -extractLsb'_toNat, -getLsbD_eq_getElem]

theorem armOrr (c : Cond) (sbit : Bool) (rn rd : RegNum) (o : Operand2) :
    Statement (.armOrr c sbit rn rd o) := by
  intro _
  cases o <;>
  simp (disch := decide) [encode, Code.decode, decodeArm_encodeDataProc, dataProcOfFields, bxFields, operand2OfFields,
    Operand2.bits, Operand2.isImm, extractLsb'_append_eq_of_le,
    extractLsb'_append_eq_of_add_le, getLsbD_append, getLsbD_ofBool_zero, -Nat.reduceAdd, -extractLsb'_toNat, -getLsbD_eq_getElem]

theorem armMov (c : Cond) (sbit : Bool) (rnIgnored : BitVec 4) (rd : RegNum) (o : Operand2) :
    Statement (.armMov c sbit rnIgnored rd o) := by
  intro _
  cases o <;>
  simp (disch := decide) [encode, Code.decode, decodeArm_encodeDataProc, dataProcOfFields, bxFields, operand2OfFields,
    Operand2.bits, Operand2.isImm, extractLsb'_append_eq_of_le,
    extractLsb'_append_eq_of_add_le, getLsbD_append, getLsbD_ofBool_zero, -Nat.reduceAdd, -extractLsb'_toNat, -getLsbD_eq_getElem]

theorem armBic (c : Cond) (sbit : Bool) (rn rd : RegNum) (o : Operand2) :
    Statement (.armBic c sbit rn rd o) := by
  intro _
  cases o <;>
  simp (disch := decide) [encode, Code.decode, decodeArm_encodeDataProc, dataProcOfFields, bxFields, operand2OfFields,
    Operand2.bits, Operand2.isImm, extractLsb'_append_eq_of_le,
    extractLsb'_append_eq_of_add_le, getLsbD_append, getLsbD_ofBool_zero, -Nat.reduceAdd, -extractLsb'_toNat, -getLsbD_eq_getElem]

theorem armMvn (c : Cond) (sbit : Bool) (rnIgnored : BitVec 4) (rd : RegNum) (o : Operand2) :
    Statement (.armMvn c sbit rnIgnored rd o) := by
  intro _
  cases o <;>
  simp (disch := decide) [encode, Code.decode, decodeArm_encodeDataProc, dataProcOfFields, bxFields, operand2OfFields,
    Operand2.bits, Operand2.isImm, extractLsb'_append_eq_of_le,
    extractLsb'_append_eq_of_add_le, getLsbD_append, getLsbD_ofBool_zero, -Nat.reduceAdd, -extractLsb'_toNat, -getLsbD_eq_getElem]

theorem armLdrLit (c : Cond) (i p u b w : Bool) (rd : RegNum) (imm12 : BitVec 12) :
    Statement (.armLdrLit c i p u b w rd imm12) := by
  intro _
  simp [encode, Code.decode, decodeArm_encodeTransfer, transferOfFields]

theorem armExtTransfer (c : Cond) (p u b w l : Bool) (rn rd : RegNum) (amount : BitVec 5) (ty : ShiftType) (rm : RegNum) :
    Statement (.armExtTransfer c p u b w l rn rd amount ty rm) := by
  intro h
  simp only [Instr.wf, Bool.not_eq_eq_eq_not, Bool.not_true] at h
  simp (disch := decide) [h, encode, Code.decode, decodeArm_encodeTransfer, transferOfFields, extractLsb'_append_eq_of_le,
    extractLsb'_append_eq_of_add_le, getLsbD_append, getLsbD_ofBool_zero, -Nat.reduceAdd, -extractLsb'_toNat, -getLsbD_eq_getElem]

theorem armStr (c : Cond) (p u w : Bool) (rn rd : RegNum) (off : Offset) :
    Statement (.armStr c p u w rn rd off) := by
  intro _
  cases off <;>
  simp (disch := decide) [encode, Code.decode, decodeArm_encodeTransfer, transferOfFields, offsetOfFields, Offset.bits, Offset.isReg, extractLsb'_append_eq_of_le,
    extractLsb'_append_eq_of_add_le, getLsbD_append, getLsbD_ofBool_zero, -Nat.reduceAdd, -extractLsb'_toNat, -getLsbD_eq_getElem]

theorem armLdr (c : Cond) (p u w : Bool) (rn rd : RegNum) (off : Offset) :
    Statement (.armLdr c p u w rn rd off) := by
  intro h
  simp [Instr.wf] at h
  cases off <;>
  simp (disch := decide) [h, encode, Code.decode, decodeArm_encodeTransfer, transferOfFields, offsetOfFields, Offset.bits, Offset.isReg, extractLsb'_append_eq_of_le,
    extractLsb'_append_eq_of_add_le, getLsbD_append, getLsbD_ofBool_zero, -Nat.reduceAdd, -extractLsb'_toNat, -getLsbD_eq_getElem]

theorem armStrb (c : Cond) (p u w : Bool) (rn rd : RegNum) (off : Offset) :
    Statement (.armStrb c p u w rn rd off) := by
  intro _
  cases off <;>
  simp (disch := decide) [encode, Code.decode, decodeArm_encodeTransfer, transferOfFields, offsetOfFields, Offset.bits, Offset.isReg, extractLsb'_append_eq_of_le,
    extractLsb'_append_eq_of_add_le, getLsbD_append, getLsbD_ofBool_zero, -Nat.reduceAdd, -extractLsb'_toNat, -getLsbD_eq_getElem]

theorem armLdrb (c : Cond) (p u w : Bool) (rn rd : RegNum) (off : Offset) :
    Statement (.armLdrb c p u w rn rd off) := by
  intro h
  simp [Instr.wf] at h
  cases off <;>
  simp (disch := decide) [h, encode, Code.decode, decodeArm_encodeTransfer, transferOfFields, offsetOfFields, Offset.bits, Offset.isReg, extractLsb'_append_eq_of_le,
    extractLsb'_append_eq_of_add_le, getLsbD_append, getLsbD_ofBool_zero, -Nat.reduceAdd, -extractLsb'_toNat, -getLsbD_eq_getElem]

theorem armStm (c : Cond) (p u sIgnored w : Bool) (rn : RegNum) (list : BitVec 16) :
    Statement (.armStm c p u sIgnored w rn list) := by
  intro _
  simp [encode, Code.decode, decodeArm_encodeBlock, blockOfFields]

theorem armLdm (c : Cond) (p u sIgnored w : Bool) (rn : RegNum) (list : BitVec 16) :
    Statement (.armLdm c p u sIgnored w rn list) := by
  intro _
  simp [encode, Code.decode, decodeArm_encodeBlock, blockOfFields]

theorem armB (c : Cond) (imm24 : BitVec 24) :
    Statement (.armB c imm24) := by
  intro _
  simp (disch := decide) [encode, Code.decode, decodeArm, decodeArmCond, encodeClass1x, extractLsb'_append_eq_of_le,
    extractLsb'_append_eq_of_add_le, getLsbD_append, getLsbD_ofBool_zero, -Nat.reduceAdd, -extractLsb'_toNat, -getLsbD_eq_getElem]

theorem armBl (c : Cond) (imm24 : BitVec 24) :
    Statement (.armBl c imm24) := by
  intro _
  simp (disch := decide) [encode, Code.decode, decodeArm, decodeArmCond, encodeClass1x, extractLsb'_append_eq_of_le,
    extractLsb'_append_eq_of_add_le, getLsbD_append, getLsbD_ofBool_zero, -Nat.reduceAdd, -extractLsb'_toNat, -getLsbD_eq_getElem]

theorem armCoproc (c : Cond) (low : BitVec 24) :
    Statement (.armCoproc c low) := by
  intro _
  simp (disch := decide) [encode, Code.decode, decodeArm, decodeArmCond, encodeClass1x, extractLsb'_append_eq_of_le,
    extractLsb'_append_eq_of_add_le, getLsbD_append, getLsbD_ofBool_zero, -Nat.reduceAdd, -extractLsb'_toNat, -getLsbD_eq_getElem]

theorem armUnknown (c : Cond) (low : BitVec 25) :
    Statement (.armUnknown c low) := by
  intro _
  simp (disch := decide) [encode, Code.decode, decodeArm, decodeArmCond, encodeClass1x, extractLsb'_append_eq_of_le,
    extractLsb'_append_eq_of_add_le, getLsbD_append, getLsbD_ofBool_zero, -Nat.reduceAdd, -extractLsb'_toNat, -getLsbD_eq_getElem]

theorem tAddReg (rn rs rd : LowReg) :
    Statement (.tAddReg rn rs rd) := by
  intro _
  simp (disch := decide) [encode, Code.decode, decodeThumb, decodeThumbShiftAdd, extractLsb'_append_eq_of_le,
    extractLsb'_append_eq_of_add_le, getLsbD_append, getLsbD_ofBool_zero, -Nat.reduceAdd, -extractLsb'_toNat, -getLsbD_eq_getElem]

theorem tSubReg (rn rs rd : LowReg) :
    Statement (.tSubReg rn rs rd) := by
  intro _
  simp (disch := decide) [encode, Code.decode, decodeThumb, decodeThumbShiftAdd, extractLsb'_append_eq_of_le,
    extractLsb'_append_eq_of_add_le, getLsbD_append, getLsbD_ofBool_zero, -Nat.reduceAdd, -extractLsb'_toNat, -getLsbD_eq_getElem]

theorem tAddImm3 (imm3 : BitVec 3) (rs rd : LowReg) :
    Statement (.tAddImm3 imm3 rs rd) := by
  intro _
  simp (disch := decide) [encode, Code.decode, decodeThumb, decodeThumbShiftAdd, extractLsb'_append_eq_of_le,
    extractLsb'_append_eq_of_add_le, getLsbD_append, getLsbD_ofBool_zero, -Nat.reduceAdd, -extractLsb'_toNat, -getLsbD_eq_getElem]

theorem tSubImm3 (imm3 : BitVec 3) (rs rd : LowReg) :
    Statement (.tSubImm3 imm3 rs rd) := by
  intro _
  simp (disch := decide) [encode, Code.decode, decodeThumb, decodeThumbShiftAdd, extractLsb'_append_eq_of_le,
    extractLsb'_append_eq_of_add_le, getLsbD_append, getLsbD_ofBool_zero, -Nat.reduceAdd, -extractLsb'_toNat, -getLsbD_eq_getElem]

theorem tLslImm (imm5 : BitVec 5) (rs rd : LowReg) :
    Statement (.tLslImm imm5 rs rd) := by
  intro _
  simp (disch := decide) [encode, Code.decode, decodeThumb, decodeThumbShiftAdd, extractLsb'_append_eq_of_le,
    extractLsb'_append_eq_of_add_le, getLsbD_append, getLsbD_ofBool_zero, -Nat.reduceAdd, -extractLsb'_toNat, -getLsbD_eq_getElem]

theorem tLsrImm (imm5 : BitVec 5) (rs rd : LowReg) :
    Statement (.tLsrImm imm5 rs rd) := by
  intro _
  simp (disch := decide) [encode, Code.decode, decodeThumb, decodeThumbShiftAdd, extractLsb'_append_eq_of_le,
    extractLsb'_append_eq_of_add_le, getLsbD_append, getLsbD_ofBool_zero, -Nat.reduceAdd, -extractLsb'_toNat, -getLsbD_eq_getElem]

theorem tAsrImm (imm5 : BitVec 5) (rs rd : LowReg) :
    Statement (.tAsrImm imm5 rs rd) := by
  intro _
  simp (disch := decide) [encode, Code.decode, decodeThumb, decodeThumbShiftAdd, extractLsb'_append_eq_of_le,
    extractLsb'_append_eq_of_add_le, getLsbD_append, getLsbD_ofBool_zero, -Nat.reduceAdd, -extractLsb'_toNat, -getLsbD_eq_getElem]

theorem tMovImm (rd : LowReg) (imm8 : BitVec 8) :
    Statement (.tMovImm rd imm8) := by
  intro _
  simp (disch := decide) [encode, Code.decode, decodeThumb, decodeThumbImm8, extractLsb'_append_eq_of_le,
    extractLsb'_append_eq_of_add_le, getLsbD_append, getLsbD_ofBool_zero, -Nat.reduceAdd, -extractLsb'_toNat, -getLsbD_eq_getElem]

theorem tCmpImm (rd : LowReg) (imm8 : BitVec 8) :
    Statement (.tCmpImm rd imm8) := by
  intro _
  simp (disch := decide) [encode, Code.decode, decodeThumb, decodeThumbImm8, extractLsb'_append_eq_of_le,
    extractLsb'_append_eq_of_add_le, getLsbD_append, getLsbD_ofBool_zero, -Nat.reduceAdd, -extractLsb'_toNat, -getLsbD_eq_getElem]

theorem tAddImm8 (rd : LowReg) (imm8 : BitVec 8) :
    Statement (.tAddImm8 rd imm8) := by
  intro _
  simp (disch := decide) [encode, Code.decode, decodeThumb, decodeThumbImm8, extractLsb'_append_eq_of_le,
    extractLsb'_append_eq_of_add_le, getLsbD_append, getLsbD_ofBool_zero, -Nat.reduceAdd, -extractLsb'_toNat, -getLsbD_eq_getElem]

theorem tSubImm8 (rd : LowReg) (imm8 : BitVec 8) :
    Statement (.tSubImm8 rd imm8) := by
  intro _
  simp (disch := decide) [encode, Code.decode, decodeThumb, decodeThumbImm8, extractLsb'_append_eq_of_le,
    extractLsb'_append_eq_of_add_le, getLsbD_append, getLsbD_ofBool_zero, -Nat.reduceAdd, -extractLsb'_toNat, -getLsbD_eq_getElem]

theorem tAnd (rs rd : LowReg) :
    Statement (.tAnd rs rd) := by
  intro _
  simp (disch := decide) [encode, Code.decode, decodeThumb, decodeThumbAlu, encodeThumbAlu, extractLsb'_append_eq_of_le,
    extractLsb'_append_eq_of_add_le, getLsbD_append, getLsbD_ofBool_zero, -Nat.reduceAdd, -extractLsb'_toNat, -getLsbD_eq_getElem]

theorem tEor (rs rd : LowReg) :
    Statement (.tEor rs rd) := by
  intro _
  simp (disch := decide) [encode, Code.decode, decodeThumb, decodeThumbAlu, encodeThumbAlu, extractLsb'_append_eq_of_le,
    extractLsb'_append_eq_of_add_le, getLsbD_append, getLsbD_ofBool_zero, -Nat.reduceAdd, -extractLsb'_toNat, -getLsbD_eq_getElem]

theorem tLslReg (rs rd : LowReg) :
    Statement (.tLslReg rs rd) := by
  intro _
  simp (disch := decide) [encode, Code.decode, decodeThumb, decodeThumbAlu, encodeThumbAlu, extractLsb'_append_eq_of_le,
    extractLsb'_append_eq_of_add_le, getLsbD_append, getLsbD_ofBool_zero, -Nat.reduceAdd, -extractLsb'_toNat, -getLsbD_eq_getElem]

theorem tLsrReg (rs rd : LowReg) :
    Statement (.tLsrReg rs rd) := by
  intro _
  simp (disch := decide) [encode, Code.decode, decodeThumb, decodeThumbAlu, encodeThumbAlu, extractLsb'_append_eq_of_le,
    extractLsb'_append_eq_of_add_le, getLsbD_append, getLsbD_ofBool_zero, -Nat.reduceAdd, -extractLsb'_toNat, -getLsbD_eq_getElem]

theorem tAsrReg (rs rd : LowReg) :
    Statement (.tAsrReg rs rd) := by
  intro _
  simp (disch := decide) [encode, Code.decode, decodeThumb, decodeThumbAlu, encodeThumbAlu, extractLsb'_append_eq_of_le,
    extractLsb'_append_eq_of_add_le, getLsbD_append, getLsbD_ofBool_zero, -Nat.reduceAdd, -extractLsb'_toNat, -getLsbD_eq_getElem]

theorem tAdc (rs rd : LowReg) :
    Statement (.tAdc rs rd) := by
  intro _
  simp (disch := decide) [encode, Code.decode, decodeThumb, decodeThumbAlu, encodeThumbAlu, extractLsb'_append_eq_of_le,
    extractLsb'_append_eq_of_add_le, getLsbD_append, getLsbD_ofBool_zero, -Nat.reduceAdd, -extractLsb'_toNat, -getLsbD_eq_getElem]

theorem tSbc (rs rd : LowReg) :
    Statement (.tSbc rs rd) := by
  intro _
  simp (disch := decide) [encode, Code.decode, decodeThumb, decodeThumbAlu, encodeThumbAlu, extractLsb'_append_eq_of_le,
    extractLsb'_append_eq_of_add_le, getLsbD_append, getLsbD_ofBool_zero, -Nat.reduceAdd, -extractLsb'_toNat, -getLsbD_eq_getElem]

theorem tRorReg (rs rd : LowReg) :
    Statement (.tRorReg rs rd) := by
  intro _
  simp (disch := decide) [encode, Code.decode, decodeThumb, decodeThumbAlu, encodeThumbAlu, extractLsb'_append_eq_of_le,
    extractLsb'_append_eq_of_add_le, getLsbD_append, getLsbD_ofBool_zero, -Nat.reduceAdd, -extractLsb'_toNat, -getLsbD_eq_getElem]

theorem tTst (rs rd : LowReg) :
    Statement (.tTst rs rd) := by
  intro _
  simp (disch := decide) [encode, Code.decode, decodeThumb, decodeThumbAlu, encodeThumbAlu, extractLsb'_append_eq_of_le,
    extractLsb'_append_eq_of_add_le, getLsbD_append, getLsbD_ofBool_zero, -Nat.reduceAdd, -extractLsb'_toNat, -getLsbD_eq_getElem]

theorem tNeg (rs rd : LowReg) :
    Statement (.tNeg rs rd) := by
  intro _
  simp (disch := decide) [encode, Code.decode, decodeThumb, decodeThumbAlu, encodeThumbAlu, extractLsb'_append_eq_of_le,
    extractLsb'_append_eq_of_add_le, getLsbD_append, getLsbD_ofBool_zero, -Nat.reduceAdd, -extractLsb'_toNat, -getLsbD_eq_getElem]

theorem tCmpReg (rs rd : LowReg) :
    Statement (.tCmpReg rs rd) := by
  intro _
  simp (disch := decide) [encode, Code.decode, decodeThumb, decodeThumbAlu, encodeThumbAlu, extractLsb'_append_eq_of_le,
    extractLsb'_append_eq_of_add_le, getLsbD_append, getLsbD_ofBool_zero, -Nat.reduceAdd, -extractLsb'_toNat, -getLsbD_eq_getElem]

theorem tCmn (rs rd : LowReg) :
    Statement (.tCmn rs rd) := by
  intro _
  simp (disch := decide) [encode, Code.decode, decodeThumb, decodeThumbAlu, encodeThumbAlu, extractLsb'_append_eq_of_le,
    extractLsb'_append_eq_of_add_le, getLsbD_append, getLsbD_ofBool_zero, -Nat.reduceAdd, -extractLsb'_toNat, -getLsbD_eq_getElem]

theorem tOrr (rs rd : LowReg) :
    Statement (.tOrr rs rd) := by
  intro _
  simp (disch := decide) [encode, Code.decode, decodeThumb, decodeThumbAlu, encodeThumbAlu, extractLsb'_append_eq_of_le,
    extractLsb'_append_eq_of_add_le, getLsbD_append, getLsbD_ofBool_zero, -Nat.reduceAdd, -extractLsb'_toNat, -getLsbD_eq_getElem]

theorem tMul (rs rd : LowReg) :
    Statement (.tMul rs rd) := by
  intro _
  simp (disch := decide) [encode, Code.decode, decodeThumb, decodeThumbAlu, encodeThumbAlu, extractLsb'_append_eq_of_le,
    extractLsb'_append_eq_of_add_le, getLsbD_append, getLsbD_ofBool_zero, -Nat.reduceAdd, -extractLsb'_toNat, -getLsbD_eq_getElem]

theorem tBic (rs rd : LowReg) :
    Statement (.tBic rs rd) := by
  intro _
  simp (disch := decide) [encode, Code.decode, decodeThumb, decodeThumbAlu, encodeThumbAlu, extractLsb'_append_eq_of_le,
    extractLsb'_append_eq_of_add_le, getLsbD_append, getLsbD_ofBool_zero, -Nat.reduceAdd, -extractLsb'_toNat, -getLsbD_eq_getElem]

theorem tMvn (rs rd : LowReg) :
    Statement (.tMvn rs rd) := by
  intro _
  simp (disch := decide) [encode, Code.decode, decodeThumb, decodeThumbAlu, encodeThumbAlu, extractLsb'_append_eq_of_le,
    extractLsb'_append_eq_of_add_le, getLsbD_append, getLsbD_ofBool_zero, -Nat.reduceAdd, -extractLsb'_toNat, -getLsbD_eq_getElem]

theorem tAddHigh (rd rs : RegNum) :
    Statement (.tAddHigh rd rs) := by
  intro _
  simp (disch := decide) [encode, Code.decode, decodeThumb, decodeThumbHigh, encodeThumbHigh, extractLsb'_append_eq_of_le,
    extractLsb'_append_eq_of_add_le, getLsbD_append, getLsbD_ofBool_zero, -Nat.reduceAdd, -extractLsb'_toNat, -getLsbD_eq_getElem]

theorem tCmpHigh (rd rs : RegNum) :
    Statement (.tCmpHigh rd rs) := by
  intro _
  simp (disch := decide) [encode, Code.decode, decodeThumb, decodeThumbHigh, encodeThumbHigh, extractLsb'_append_eq_of_le,
    extractLsb'_append_eq_of_add_le, getLsbD_append, getLsbD_ofBool_zero, -Nat.reduceAdd, -extractLsb'_toNat, -getLsbD_eq_getElem]

theorem tMovHigh (rd rs : RegNum) :
    Statement (.tMovHigh rd rs) := by
  intro _
  simp (disch := decide) [encode, Code.decode, decodeThumb, decodeThumbHigh, encodeThumbHigh, extractLsb'_append_eq_of_le,
    extractLsb'_append_eq_of_add_le, getLsbD_append, getLsbD_ofBool_zero, -Nat.reduceAdd, -extractLsb'_toNat, -getLsbD_eq_getElem]

theorem tBx (rm : RegNum) (low : BitVec 3) :
    Statement (.tBx rm low) := by
  intro _
  simp (disch := decide) [encode, Code.decode, decodeThumb, decodeThumbHigh, encodeThumbHigh, extractLsb'_append_eq_of_le,
    extractLsb'_append_eq_of_add_le, getLsbD_append, getLsbD_ofBool_zero, -Nat.reduceAdd, -extractLsb'_toNat, -getLsbD_eq_getElem]

theorem tBxExt (rm : RegNum) (low : BitVec 3) :
    Statement (.tBxExt rm low) := by
  intro _
  simp (disch := decide) [encode, Code.decode, decodeThumb, decodeThumbHigh, encodeThumbHigh, extractLsb'_append_eq_of_le,
    extractLsb'_append_eq_of_add_le, getLsbD_append, getLsbD_ofBool_zero, -Nat.reduceAdd, -extractLsb'_toNat, -getLsbD_eq_getElem]

theorem tLdrPc (rd : LowReg) (imm8 : BitVec 8) :
    Statement (.tLdrPc rd imm8) := by
  intro _
  simp (disch := decide) [encode, Code.decode, decodeThumb, extractLsb'_append_eq_of_le,
    extractLsb'_append_eq_of_add_le, getLsbD_append, getLsbD_ofBool_zero, -Nat.reduceAdd, -extractLsb'_toNat, -getLsbD_eq_getElem]

theorem tStrReg (ro rb rd : LowReg) :
    Statement (.tStrReg ro rb rd) := by
  intro _
  simp (disch := decide) [encode, Code.decode, decodeThumb, decodeThumbRegOffset, extractLsb'_append_eq_of_le,
    extractLsb'_append_eq_of_add_le, getLsbD_append, getLsbD_ofBool_zero, -Nat.reduceAdd, -extractLsb'_toNat, -getLsbD_eq_getElem]

theorem tStrbReg (ro rb rd : LowReg) :
    Statement (.tStrbReg ro rb rd) := by
  intro _
  simp (disch := decide) [encode, Code.decode, decodeThumb, decodeThumbRegOffset, extractLsb'_append_eq_of_le,
    extractLsb'_append_eq_of_add_le, getLsbD_append, getLsbD_ofBool_zero, -Nat.reduceAdd, -extractLsb'_toNat, -getLsbD_eq_getElem]

theorem tLdrReg (ro rb rd : LowReg) :
    Statement (.tLdrReg ro rb rd) := by
  intro _
  simp (disch := decide) [encode, Code.decode, decodeThumb, decodeThumbRegOffset, extractLsb'_append_eq_of_le,
    extractLsb'_append_eq_of_add_le, getLsbD_append, getLsbD_ofBool_zero, -Nat.reduceAdd, -extractLsb'_toNat, -getLsbD_eq_getElem]

theorem tLdrbReg (ro rb rd : LowReg) :
    Statement (.tLdrbReg ro rb rd) := by
  intro _
  simp (disch := decide) [encode, Code.decode, decodeThumb, decodeThumbRegOffset, extractLsb'_append_eq_of_le,
    extractLsb'_append_eq_of_add_le, getLsbD_append, getLsbD_ofBool_zero, -Nat.reduceAdd, -extractLsb'_toNat, -getLsbD_eq_getElem]

theorem tExtHalf (sel : BitVec 2) (ro rb rd : LowReg) :
    Statement (.tExtHalf sel ro rb rd) := by
  intro _
  simp (disch := decide) [encode, Code.decode, decodeThumb, decodeThumbRegOffset, extractLsb'_append_eq_of_le,
    extractLsb'_append_eq_of_add_le, getLsbD_append, getLsbD_ofBool_zero, -Nat.reduceAdd, -extractLsb'_toNat, -getLsbD_eq_getElem]

theorem tStrImm (imm5 : BitVec 5) (rb rd : LowReg) :
    Statement (.tStrImm imm5 rb rd) := by
  intro _
  simp (disch := decide) [encode, Code.decode, decodeThumb, decodeThumbImmOffset, extractLsb'_append_eq_of_le,
    extractLsb'_append_eq_of_add_le, getLsbD_append, getLsbD_ofBool_zero, -Nat.reduceAdd, -extractLsb'_toNat, -getLsbD_eq_getElem]

theorem tLdrImm (imm5 : BitVec 5) (rb rd : LowReg) :
    Statement (.tLdrImm imm5 rb rd) := by
  intro _
  simp (disch := decide) [encode, Code.decode, decodeThumb, decodeThumbImmOffset, extractLsb'_append_eq_of_le,
    extractLsb'_append_eq_of_add_le, getLsbD_append, getLsbD_ofBool_zero, -Nat.reduceAdd, -extractLsb'_toNat, -getLsbD_eq_getElem]

theorem tStrbImm (imm5 : BitVec 5) (rb rd : LowReg) :
    Statement (.tStrbImm imm5 rb rd) := by
  intro _
  simp (disch := decide) [encode, Code.decode, decodeThumb, decodeThumbImmOffset, extractLsb'_append_eq_of_le,
    extractLsb'_append_eq_of_add_le, getLsbD_append, getLsbD_ofBool_zero, -Nat.reduceAdd, -extractLsb'_toNat, -getLsbD_eq_getElem]

theorem tLdrbImm (imm5 : BitVec 5) (rb rd : LowReg) :
    Statement (.tLdrbImm imm5 rb rd) := by
  intro _
  simp (disch := decide) [encode, Code.decode, decodeThumb, decodeThumbImmOffset, extractLsb'_append_eq_of_le,
    extractLsb'_append_eq_of_add_le, getLsbD_append, getLsbD_ofBool_zero, -Nat.reduceAdd, -extractLsb'_toNat, -getLsbD_eq_getElem]

theorem tStrhImm (imm5 : BitVec 5) (rb rd : LowReg) :
    Statement (.tStrhImm imm5 rb rd) := by
  intro _
  simp (disch := decide) [encode, Code.decode, decodeThumb, extractLsb'_append_eq_of_le,
    extractLsb'_append_eq_of_add_le, getLsbD_append, getLsbD_ofBool_zero, -Nat.reduceAdd, -extractLsb'_toNat, -getLsbD_eq_getElem]

theorem tLdrhImm (imm5 : BitVec 5) (rb rd : LowReg) :
    Statement (.tLdrhImm imm5 rb rd) := by
  intro _
  simp (disch := decide) [encode, Code.decode, decodeThumb, extractLsb'_append_eq_of_le,
    extractLsb'_append_eq_of_add_le, getLsbD_append, getLsbD_ofBool_zero, -Nat.reduceAdd, -extractLsb'_toNat, -getLsbD_eq_getElem]

theorem tStrSp (rd : LowReg) (imm8 : BitVec 8) :
    Statement (.tStrSp rd imm8) := by
  intro _
  simp (disch := decide) [encode, Code.decode, decodeThumb, extractLsb'_append_eq_of_le,
    extractLsb'_append_eq_of_add_le, getLsbD_append, getLsbD_ofBool_zero, -Nat.reduceAdd, -extractLsb'_toNat, -getLsbD_eq_getElem]

theorem tLdrSp (rd : LowReg) (imm8 : BitVec 8) :
    Statement (.tLdrSp rd imm8) := by
  intro _
  simp (disch := decide) [encode, Code.decode, decodeThumb, extractLsb'_append_eq_of_le,
    extractLsb'_append_eq_of_add_le, getLsbD_append, getLsbD_ofBool_zero, -Nat.reduceAdd, -extractLsb'_toNat, -getLsbD_eq_getElem]

theorem tAddPc (rd : LowReg) (imm8 : BitVec 8) :
    Statement (.tAddPc rd imm8) := by
  intro _
  simp (disch := decide) [encode, Code.decode, decodeThumb, extractLsb'_append_eq_of_le,
    extractLsb'_append_eq_of_add_le, getLsbD_append, getLsbD_ofBool_zero, -Nat.reduceAdd, -extractLsb'_toNat, -getLsbD_eq_getElem]

theorem tAddSp (rd : LowReg) (imm8 : BitVec 8) :
    Statement (.tAddSp rd imm8) := by
  intro _
  simp (disch := decide) [encode, Code.decode, decodeThumb, extractLsb'_append_eq_of_le,
    extractLsb'_append_eq_of_add_le, getLsbD_append, getLsbD_ofBool_zero, -Nat.reduceAdd, -extractLsb'_toNat, -getLsbD_eq_getElem]

theorem tSpAdd (imm7 : BitVec 7) :
    Statement (.tSpAdd imm7) := by
  intro _
  simp (disch := decide) [encode, Code.decode, decodeThumb, decodeThumbMisc, extractLsb'_append_eq_of_le,
    extractLsb'_append_eq_of_add_le, getLsbD_append, getLsbD_ofBool_zero, -Nat.reduceAdd, -extractLsb'_toNat, -getLsbD_eq_getElem]

theorem tSpSub (imm7 : BitVec 7) :
    Statement (.tSpSub imm7) := by
  intro _
  simp (disch := decide) [encode, Code.decode, decodeThumb, decodeThumbMisc, extractLsb'_append_eq_of_le,
    extractLsb'_append_eq_of_add_le, getLsbD_append, getLsbD_ofBool_zero, -Nat.reduceAdd, -extractLsb'_toNat, -getLsbD_eq_getElem]

theorem tPush (r : Bool) (rlist : BitVec 8) :
    Statement (.tPush r rlist) := by
  intro _
  cases r <;>
  simp (disch := decide) [encode, Code.decode, decodeThumb, decodeThumbMisc, extractLsb'_append_eq_of_le,
    extractLsb'_append_eq_of_add_le, getLsbD_append, getLsbD_ofBool_zero, -Nat.reduceAdd, -extractLsb'_toNat, -getLsbD_eq_getElem]

theorem tPop (r : Bool) (rlist : BitVec 8) :
    Statement (.tPop r rlist) := by
  intro _
  cases r <;>
  simp (disch := decide) [encode, Code.decode, decodeThumb, decodeThumbMisc, extractLsb'_append_eq_of_le,
    extractLsb'_append_eq_of_add_le, getLsbD_append, getLsbD_ofBool_zero, -Nat.reduceAdd, -extractLsb'_toNat, -getLsbD_eq_getElem]

theorem tUnknown1011 (low : BitVec 12) :
    Statement (.tUnknown1011 low) := by
  intro h
  simp [Instr.wf] at h
  simp (disch := decide) [h, encode, Code.decode, decodeThumb, decodeThumbMisc, extractLsb'_append_eq_of_le,
    extractLsb'_append_eq_of_add_le, getLsbD_append, getLsbD_ofBool_zero, -Nat.reduceAdd, -extractLsb'_toNat, -getLsbD_eq_getElem]

theorem tStmia (rb : LowReg) (rlist : BitVec 8) :
    Statement (.tStmia rb rlist) := by
  intro _
  simp (disch := decide) [encode, Code.decode, decodeThumb, extractLsb'_append_eq_of_le,
    extractLsb'_append_eq_of_add_le, getLsbD_append, getLsbD_ofBool_zero, -Nat.reduceAdd, -extractLsb'_toNat, -getLsbD_eq_getElem]

theorem tLdmia (rb : LowReg) (rlist : BitVec 8) :
    Statement (.tLdmia rb rlist) := by
  intro _
  simp (disch := decide) [encode, Code.decode, decodeThumb, extractLsb'_append_eq_of_le,
    extractLsb'_append_eq_of_add_le, getLsbD_append, getLsbD_ofBool_zero, -Nat.reduceAdd, -extractLsb'_toNat, -getLsbD_eq_getElem]

theorem tSwi (imm8 : BitVec 8) :
    Statement (.tSwi imm8) := by
  intro _
  simp (disch := decide) [encode, Code.decode, decodeThumb, decodeThumbBcond, extractLsb'_append_eq_of_le,
    extractLsb'_append_eq_of_add_le, getLsbD_append, getLsbD_ofBool_zero, -Nat.reduceAdd, -extractLsb'_toNat, -getLsbD_eq_getElem]
  rfl

theorem tBcond (c : Cond) (imm8 : BitVec 8) :
    Statement (.tBcond c imm8) := by
  intro _
  simp (disch := decide) [encode, Code.decode, decodeThumb, decodeThumbBcond, extractLsb'_append_eq_of_le,
    extractLsb'_append_eq_of_add_le, getLsbD_append, getLsbD_ofBool_zero, -Nat.reduceAdd, -extractLsb'_toNat, -getLsbD_eq_getElem]

theorem tB (imm11 : BitVec 11) :
    Statement (.tB imm11) := by
  intro _
  simp (disch := decide) [encode, Code.decode, decodeThumb, extractLsb'_append_eq_of_le,
    extractLsb'_append_eq_of_add_le, getLsbD_append, getLsbD_ofBool_zero, -Nat.reduceAdd, -extractLsb'_toNat, -getLsbD_eq_getElem]

theorem tBl (hi11 : BitVec 11) (top : BitVec 3) (b11 : BitVec 1) (lo11 : BitVec 11) :
    Statement (.tBl hi11 top b11 lo11) := by
  intro _
  simp (disch := decide) [encode, Code.decode, decodeThumb, decodeThumbPair, extractLsb'_append_eq_of_le,
    extractLsb'_append_eq_of_add_le, getLsbD_append, getLsbD_ofBool_zero, -Nat.reduceAdd, -extractLsb'_toNat, -getLsbD_eq_getElem]

theorem tBlx (hi11 : BitVec 11) (top : BitVec 3) (b11 : BitVec 1) (lo11 : BitVec 11) :
    Statement (.tBlx hi11 top b11 lo11) := by
  intro _
  simp (disch := decide) [encode, Code.decode, decodeThumb, decodeThumbPair, extractLsb'_append_eq_of_le,
    extractLsb'_append_eq_of_add_le, getLsbD_append, getLsbD_ofBool_zero, -Nat.reduceAdd, -extractLsb'_toNat, -getLsbD_eq_getElem]

theorem tUnknown11101 (low : BitVec 11) :
    Statement (.tUnknown11101 low) := by
  intro _
  simp (disch := decide) [encode, Code.decode, decodeThumb, extractLsb'_append_eq_of_le,
    extractLsb'_append_eq_of_add_le, getLsbD_append, getLsbD_ofBool_zero, -Nat.reduceAdd, -extractLsb'_toNat, -getLsbD_eq_getElem]

theorem tUnknown11111 (low : BitVec 11) :
    Statement (.tUnknown11111 low) := by
  intro _
  simp (disch := decide) [encode, Code.decode, decodeThumb, extractLsb'_append_eq_of_le,
    extractLsb'_append_eq_of_add_le, getLsbD_append, getLsbD_ofBool_zero, -Nat.reduceAdd, -extractLsb'_toNat, -getLsbD_eq_getElem]

end Sys2Proof.Laws.RoundTrip
end

