-- ==== Sys2Proof/Laws/State.lean ====
section
/-! SUPPORT. What each update of State leaves in each field, so that no proof unfolds a record update; and the small laws of the
register file and of the status register's bits. -/

namespace Sys2Proof.Machine

/-! ### setReg and setPc -/

@[simp] theorem setReg_cpsr (s : State) (r : RegNum) (v : Word) : (s.setReg r v).cpsr = s.cpsr := rfl
@[simp] theorem setReg_spsr (s : State) (r : RegNum) (v : Word) : (s.setReg r v).spsr = s.spsr := rfl
@[simp] theorem setReg_mem (s : State) (r : RegNum) (v : Word) : (s.setReg r v).mem = s.mem := rfl
@[simp] theorem setReg_breakpoints (s : State) (r : RegNum) (v : Word) : (s.setReg r v).breakpoints = s.breakpoints := rfl
@[simp] theorem setReg_stop (s : State) (r : RegNum) (v : Word) : (s.setReg r v).stop = s.stop := rfl
@[simp] theorem setReg_config (s : State) (r : RegNum) (v : Word) : (s.setReg r v).config = s.config := rfl

@[simp] theorem setPc_cpsr (s : State) (v : Word) : (s.setPc v).cpsr = s.cpsr := rfl
@[simp] theorem setPc_spsr (s : State) (v : Word) : (s.setPc v).spsr = s.spsr := rfl
@[simp] theorem setPc_mem (s : State) (v : Word) : (s.setPc v).mem = s.mem := rfl
@[simp] theorem setPc_breakpoints (s : State) (v : Word) : (s.setPc v).breakpoints = s.breakpoints := rfl
@[simp] theorem setPc_stop (s : State) (v : Word) : (s.setPc v).stop = s.stop := rfl
@[simp] theorem setPc_config (s : State) (v : Word) : (s.setPc v).config = s.config := rfl

/-- Reading a register after writing one. -/
theorem reg_setReg (s : State) (r q : RegNum) (v : Word) : (s.setReg r v).reg q = if q = r then v else s.reg q := by
  by_cases h : q = r
  · subst h; simp [State.reg, State.setReg]
  · have h' : r.toNat ≠ q.toNat := fun e => h (BitVec.eq_of_toNat_eq e.symm)
    simp [State.reg, State.setReg, h, h']

@[simp] theorem reg_setReg_same (s : State) (r : RegNum) (v : Word) : (s.setReg r v).reg r = v := by
  simp [reg_setReg]

theorem reg_setReg_ne (s : State) {r q : RegNum} (v : Word) (h : q ≠ r) : (s.setReg r v).reg q = s.reg q := by
  simp [reg_setReg, h]

theorem reg_setPc (s : State) (q : RegNum) (v : Word) : (s.setPc v).reg q = if q = 15#4 then v else s.reg q :=
  reg_setReg s 15#4 q v

@[simp] theorem pc_setPc (s : State) (v : Word) : (s.setPc v).pc = v := by
  simp [State.pc, State.setPc]

/-- Two states with the same registers and the same other fields are the same. -/
theorem state_ext {s t : State} (hr : ∀ r, s.reg r = t.reg r) (hc : s.cpsr = t.cpsr) (hs : s.spsr = t.spsr) (hm : s.mem = t.mem)
    (hb : s.breakpoints = t.breakpoints) (hp : s.stop = t.stop) (hg : s.config = t.config) : s = t := by
  have hregs : s.regs = t.regs := by
    ext i hi
    have h := hr (BitVec.ofNat 4 i)
    have hmod : (BitVec.ofNat 4 i).toNat = i := by simp [Nat.mod_eq_of_lt hi]
    simp only [State.reg, hmod] at h
    exact congrArg BitVec.toNat h |> BitVec.eq_of_toNat_eq |> fun e => by rw [e]
  cases s; cases t; simp_all

/-! ### The status register's updates -/

@[simp] theorem setC_regs (s : State) (b : Bool) : (s.setC b).regs = s.regs := rfl
@[simp] theorem setC_cpsr (s : State) (b : Bool) : (s.setC b).cpsr = putBit s.cpsr 29 b := rfl
@[simp] theorem setC_spsr (s : State) (b : Bool) : (s.setC b).spsr = s.spsr := rfl
@[simp] theorem setC_mem (s : State) (b : Bool) : (s.setC b).mem = s.mem := rfl
@[simp] theorem setC_breakpoints (s : State) (b : Bool) : (s.setC b).breakpoints = s.breakpoints := rfl
@[simp] theorem setC_stop (s : State) (b : Bool) : (s.setC b).stop = s.stop := rfl
@[simp] theorem setC_config (s : State) (b : Bool) : (s.setC b).config = s.config := rfl
@[simp] theorem reg_setC (s : State) (r : RegNum) (b : Bool) : (s.setC b).reg r = s.reg r := rfl

@[simp] theorem setT_regs (s : State) (b : Bool) : (s.setT b).regs = s.regs := rfl
@[simp] theorem setT_cpsr (s : State) (b : Bool) : (s.setT b).cpsr = putBit s.cpsr 5 b := rfl
@[simp] theorem setT_spsr (s : State) (b : Bool) : (s.setT b).spsr = s.spsr := rfl
@[simp] theorem setT_mem (s : State) (b : Bool) : (s.setT b).mem = s.mem := rfl
@[simp] theorem setT_breakpoints (s : State) (b : Bool) : (s.setT b).breakpoints = s.breakpoints := rfl
@[simp] theorem setT_stop (s : State) (b : Bool) : (s.setT b).stop = s.stop := rfl
@[simp] theorem setT_config (s : State) (b : Bool) : (s.setT b).config = s.config := rfl
@[simp] theorem reg_setT (s : State) (r : RegNum) (b : Bool) : (s.setT b).reg r = s.reg r := rfl

@[simp] theorem setNZ_regs (s : State) (v : Word) : (s.setNZ v).regs = s.regs := rfl
@[simp] theorem setNZ_cpsr (s : State) (v : Word) :
    (s.setNZ v).cpsr = putBit (putBit s.cpsr 31 (nOf v)) 30 (zOf v) := rfl
@[simp] theorem setNZ_spsr (s : State) (v : Word) : (s.setNZ v).spsr = s.spsr := rfl
@[simp] theorem setNZ_mem (s : State) (v : Word) : (s.setNZ v).mem = s.mem := rfl
@[simp] theorem setNZ_breakpoints (s : State) (v : Word) : (s.setNZ v).breakpoints = s.breakpoints := rfl
@[simp] theorem setNZ_stop (s : State) (v : Word) : (s.setNZ v).stop = s.stop := rfl
@[simp] theorem setNZ_config (s : State) (v : Word) : (s.setNZ v).config = s.config := rfl
@[simp] theorem reg_setNZ (s : State) (r : RegNum) (v : Word) : (s.setNZ v).reg r = s.reg r := rfl

@[simp] theorem setNZCV_regs (s : State) (f : Nzcv) : (s.setNZCV f).regs = s.regs := rfl
@[simp] theorem setNZCV_cpsr (s : State) (f : Nzcv) :
    (s.setNZCV f).cpsr = putBit (putBit (putBit (putBit s.cpsr 31 f.n) 30 f.z) 29 f.c) 28 f.v := rfl
@[simp] theorem setNZCV_spsr (s : State) (f : Nzcv) : (s.setNZCV f).spsr = s.spsr := rfl
@[simp] theorem setNZCV_mem (s : State) (f : Nzcv) : (s.setNZCV f).mem = s.mem := rfl
@[simp] theorem setNZCV_breakpoints (s : State) (f : Nzcv) : (s.setNZCV f).breakpoints = s.breakpoints := rfl
@[simp] theorem setNZCV_stop (s : State) (f : Nzcv) : (s.setNZCV f).stop = s.stop := rfl
@[simp] theorem setNZCV_config (s : State) (f : Nzcv) : (s.setNZCV f).config = s.config := rfl
@[simp] theorem reg_setNZCV (s : State) (r : RegNum) (f : Nzcv) : (s.setNZCV f).reg r = s.reg r := rfl

@[simp] theorem putC_spsr (s : State) (c : Option Bool) : (s.putC c).spsr = s.spsr := by cases c <;> rfl
@[simp] theorem putC_mem (s : State) (c : Option Bool) : (s.putC c).mem = s.mem := by cases c <;> rfl
@[simp] theorem putC_breakpoints (s : State) (c : Option Bool) : (s.putC c).breakpoints = s.breakpoints := by cases c <;> rfl
@[simp] theorem putC_stop (s : State) (c : Option Bool) : (s.putC c).stop = s.stop := by cases c <;> rfl
@[simp] theorem putC_config (s : State) (c : Option Bool) : (s.putC c).config = s.config := by cases c <;> rfl
@[simp] theorem reg_putC (s : State) (r : RegNum) (c : Option Bool) : (s.putC c).reg r = s.reg r := by cases c <;> rfl

/-! ### Bits of the status register -/

/-- One bit of a word after one bit is put. -/
@[simp] theorem getLsbD_putBit (w : Word) (k j : Nat) (b : Bool) (hk : k < 32) :
    (putBit w k b).getLsbD j = if j = k then b else w.getLsbD j := by
  by_cases hj : j < 32
  · cases b <;> by_cases h : j = k <;> simp [putBit, h, hj, hk]
  · have hne : j ≠ k := by omega
    rw [if_neg hne, BitVec.getLsbD_of_ge _ j (Nat.le_of_not_lt hj), BitVec.getLsbD_of_ge _ j (Nat.le_of_not_lt hj)]

theorem getLsbD_setNZ (s : State) (v : Word) (j : Nat) :
    (s.setNZ v).cpsr.getLsbD j = if j = 30 then zOf v else if j = 31 then nOf v else s.cpsr.getLsbD j := by
  simp [getLsbD_putBit]

theorem getLsbD_setNZCV (s : State) (f : Nzcv) (j : Nat) :
    (s.setNZCV f).cpsr.getLsbD j =
      if j = 28 then f.v else if j = 29 then f.c else if j = 30 then f.z else if j = 31 then f.n else s.cpsr.getLsbD j := by
  simp [getLsbD_putBit]

/-- C after the shifter's carry is put; every other bit stays. -/
theorem getLsbD_putC (s : State) (c : Option Bool) (j : Nat) :
    (s.putC c).cpsr.getLsbD j = if j = 29 then c.getD (s.cpsr.getLsbD 29) else s.cpsr.getLsbD j := by
  cases c <;> simp [State.putC]
  rintro rfl; rfl

/-! ### Named operations -/

@[simp] theorem low_ne_sp (r : LowReg) : low r ≠ 13#4 := by revert r; decide
@[simp] theorem low_ne_lr (r : LowReg) : low r ≠ 14#4 := by revert r; decide
@[simp] theorem low_ne_pc (r : LowReg) : low r ≠ 15#4 := by revert r; decide

@[simp] theorem whenPasses_pass {c : Cond} {s : State} (h : condHolds c s = true) (k : State → Result) :
    whenPasses c s k = k s := by simp [whenPasses, h]

@[simp] theorem whenPasses_fail {c : Cond} {s : State} (h : condHolds c s = false) (k : State → Result) :
    whenPasses c s k = .next s := by simp [whenPasses, h]

theorem refuseExtension_document {s : State} (h : s.config.extension = .document) (site : Site) (k : State → Result) :
    refuseExtension site s k = k s := by simp [refuseExtension, h]

theorem refuseExtension_refuse {s : State} (h : s.config.extension = .refuse) (site : Site) (k : State → Result) :
    refuseExtension site s k = .refused (.unmodelled site { s with stop := some (.refusal site) }) := by
  simp [refuseExtension, h]

theorem refuseWhen_true (site : Site) (s : State) (k : State → Result) : refuseWhen true site s k = refuseExtension site s k := rfl
@[simp] theorem refuseWhen_false (site : Site) (s : State) (k : State → Result) : refuseWhen false site s k = k s := rfl

/-- A word that is no extension encoding, or one under `document`, runs. -/
theorem refuseWhen_runs {ext : Bool} {s : State} (h : ext = true → s.config.extension = .document) (site : Site)
    (k : State → Result) : refuseWhen ext site s k = k s := by
  cases ext
  · rfl
  · exact refuseExtension_document (h rfl) site k

@[simp] theorem stopFault_left (k : AccessFault) (site : Site) (s : State) :
    (stopFault k site s).left = { s with stop := some (.fault k site) } := by cases k <;> rfl

/-- The state operand 2 leaves differs in C alone. -/
@[simp] theorem afterOperand2_reg (b : Bool) (o : Operand2) (s : State) (r : RegNum) :
    (afterOperand2 b o s).reg r = s.reg r := by cases b <;> simp [afterOperand2]
@[simp] theorem afterOperand2_spsr (b : Bool) (o : Operand2) (s : State) : (afterOperand2 b o s).spsr = s.spsr := by
  cases b <;> simp [afterOperand2]
@[simp] theorem afterOperand2_mem (b : Bool) (o : Operand2) (s : State) : (afterOperand2 b o s).mem = s.mem := by
  cases b <;> simp [afterOperand2]
@[simp] theorem afterOperand2_breakpoints (b : Bool) (o : Operand2) (s : State) :
    (afterOperand2 b o s).breakpoints = s.breakpoints := by cases b <;> simp [afterOperand2]
@[simp] theorem afterOperand2_stop (b : Bool) (o : Operand2) (s : State) : (afterOperand2 b o s).stop = s.stop := by
  cases b <;> simp [afterOperand2]
@[simp] theorem afterOperand2_config (b : Bool) (o : Operand2) (s : State) : (afterOperand2 b o s).config = s.config := by
  cases b <;> simp [afterOperand2]

theorem getLsbD_afterOperand2 (b : Bool) (o : Operand2) (s : State) (j : Nat) :
    (afterOperand2 b o s).cpsr.getLsbD j =
      if b = true ∧ j = 29 then (operand2Carry o s).getD (s.cpsr.getLsbD 29) else s.cpsr.getLsbD j := by
  cases b <;> simp [afterOperand2, getLsbD_putC]

@[simp] theorem afterOffset_reg (l : Bool) (off : Offset) (s : State) (r : RegNum) :
    (afterOffset l off s).reg r = s.reg r := by cases off <;> cases l <;> simp [afterOffset]
@[simp] theorem afterOffset_spsr (l : Bool) (off : Offset) (s : State) : (afterOffset l off s).spsr = s.spsr := by
  cases off <;> cases l <;> simp [afterOffset]
@[simp] theorem afterOffset_mem (l : Bool) (off : Offset) (s : State) : (afterOffset l off s).mem = s.mem := by
  cases off <;> cases l <;> simp [afterOffset]
@[simp] theorem afterOffset_breakpoints (l : Bool) (off : Offset) (s : State) :
    (afterOffset l off s).breakpoints = s.breakpoints := by cases off <;> cases l <;> simp [afterOffset]
@[simp] theorem afterOffset_stop (l : Bool) (off : Offset) (s : State) : (afterOffset l off s).stop = s.stop := by
  cases off <;> cases l <;> simp [afterOffset]
@[simp] theorem afterOffset_config (l : Bool) (off : Offset) (s : State) : (afterOffset l off s).config = s.config := by
  cases off <;> cases l <;> simp [afterOffset]
@[simp] theorem afterOffset_store (off : Offset) (s : State) : afterOffset false off s = s := by
  cases off <;> rfl

theorem reg_writeback (p w : Bool) (rn r : RegNum) (v : Word) (s : State) :
    (writeback p w rn v s).reg r = if (!p || w) = true ∧ r = rn then v else s.reg r := by
  unfold writeback; split <;> simp_all [reg_setReg]
@[simp] theorem writeback_cpsr (p w : Bool) (rn : RegNum) (v : Word) (s : State) : (writeback p w rn v s).cpsr = s.cpsr := by
  unfold writeback; split <;> rfl
@[simp] theorem writeback_spsr (p w : Bool) (rn : RegNum) (v : Word) (s : State) : (writeback p w rn v s).spsr = s.spsr := by
  unfold writeback; split <;> rfl
@[simp] theorem writeback_mem (p w : Bool) (rn : RegNum) (v : Word) (s : State) : (writeback p w rn v s).mem = s.mem := by
  unfold writeback; split <;> rfl
@[simp] theorem writeback_breakpoints (p w : Bool) (rn : RegNum) (v : Word) (s : State) :
    (writeback p w rn v s).breakpoints = s.breakpoints := by unfold writeback; split <;> rfl
@[simp] theorem writeback_stop (p w : Bool) (rn : RegNum) (v : Word) (s : State) : (writeback p w rn v s).stop = s.stop := by
  unfold writeback; split <;> rfl
@[simp] theorem writeback_config (p w : Bool) (rn : RegNum) (v : Word) (s : State) : (writeback p w rn v s).config = s.config := by
  unfold writeback; split <;> rfl

theorem branchExchange_reg (t : Word) (s : State) (r : RegNum) :
    (branchExchange t s).reg r = if r = 15#4 then t &&& 0xFFFFFFFE#32 else s.reg r := by
  simp [branchExchange, reg_setPc]
@[simp] theorem branchExchange_cpsr (t : Word) (s : State) : (branchExchange t s).cpsr = putBit s.cpsr 5 (t.getLsbD 0) := rfl
@[simp] theorem branchExchange_spsr (t : Word) (s : State) : (branchExchange t s).spsr = s.spsr := rfl
@[simp] theorem branchExchange_mem (t : Word) (s : State) : (branchExchange t s).mem = s.mem := rfl
@[simp] theorem branchExchange_breakpoints (t : Word) (s : State) : (branchExchange t s).breakpoints = s.breakpoints := rfl
@[simp] theorem branchExchange_stop (t : Word) (s : State) : (branchExchange t s).stop = s.stop := rfl
@[simp] theorem branchExchange_config (t : Word) (s : State) : (branchExchange t s).config = s.config := rfl

end Sys2Proof.Machine
end

