-- ==== Sys2Proof/Laws/Transfer.lean ====
section
/-! SUPPORT. What the loads and stores of Machine/Ops.lean do, one register and many: the state they leave, and where they stop. -/

namespace Sys2Proof.Machine

/-! ### One access -/

theorem word_ok {s : State} {a : Word} (h : s.accessOk a 4) : ∃ v, s.word a = .ok v := by
  unfold State.word Memory.read32
  rw [access_eq_ok h.1 h.2]
  cases s.mem.lookup a <;> exact ⟨_, rfl⟩

theorem half_ok {s : State} {a : Word} (h : s.accessOk a 2) : ∃ v, s.half a = .ok v := by
  unfold State.half Memory.read16
  rw [access_eq_ok h.1 h.2]
  cases s.mem.lookup a <;> exact ⟨_, rfl⟩

theorem accessOk_of_word {s : State} {a v : Word} (h : s.word a = .ok v) : s.accessOk a 4 := by
  unfold State.word Memory.read32 at h
  cases ha : s.mem.access s.config.misaligned a 4 with
  | error k => simp [ha] at h
  | ok o => exact (access_ok ha).2

theorem accessOk_of_half {s : State} {a : Word} {v : Half} (h : s.half a = .ok v) : s.accessOk a 2 := by
  unfold State.half Memory.read16 at h
  cases ha : s.mem.access s.config.misaligned a 2 with
  | error k => simp [ha] at h
  | ok o => exact (access_ok ha).2

/-- The fault of an access that cannot happen (R89, R90, R439). -/
theorem access_error {p : MisalignedPolicy} {m : Memory} {a : Word} {n : Nat} {k : AccessFault}
    (h : m.access p a n = .error k) :
    (k = .misaligned a n ∧ p = .fault ∧ a.toNat % n ≠ 0) ∨
      (k = .straddle a n ∧ (p = .fault → a.toNat % n = 0) ∧ ∃ sp, m.lookup a = some sp ∧ sp.top < a.toNat + n) := by
  unfold Memory.access at h
  split at h
  · rename_i hp; cases h; exact .inl ⟨rfl, hp⟩
  · rename_i hp
    have hp' : p = .fault → a.toNat % n = 0 := fun e => by
      by_contra hc; exact hp ⟨e, hc⟩
    cases hl : m.lookup a with
    | none => simp [hl] at h
    | some sp =>
      simp only [hl] at h
      split at h
      · cases h; exact .inr ⟨rfl, hp', sp, rfl, by assumption⟩
      · cases h

theorem access_misaligned {p : MisalignedPolicy} {m : Memory} {a : Word} {n : Nat} (hp : p = .fault) (ha : a.toNat % n ≠ 0) :
    m.access p a n = .error (.misaligned a n) := by
  unfold Memory.access; rw [if_pos ⟨hp, ha⟩]

theorem access_straddle {p : MisalignedPolicy} {m : Memory} {a : Word} {n : Nat} {sp : Space} (hp : p = .fault → a.toNat % n = 0)
    (hl : m.lookup a = some sp) (ht : sp.top < a.toNat + n) : m.access p a n = .error (.straddle a n) := by
  unfold Memory.access
  rw [if_neg (fun h => h.2 (hp h.1))]
  simp [hl, ht]

theorem loadWord_ok {s : State} {a v : Word} (h : s.word a = .ok v) (site : Site) (rd : RegNum) :
    loadWord site a rd s = .ok (s.setReg rd v) := by
  unfold loadWord; unfold State.word at h; rw [h]

theorem loadHalf_ok {s : State} {a : Word} {v : Half} (h : s.half a = .ok v) (site : Site) (rd : RegNum) :
    loadHalf site a rd s = .ok (s.setReg rd (v.setWidth 32)) := by
  unfold loadHalf; unfold State.half at h; rw [h]

/-- The bytes of a word and of a halfword, the most significant first (R75). -/
def wordBytes (v : Word) : List Byte := [v.extractLsb' 24 8, v.extractLsb' 16 8, v.extractLsb' 8 8, v.extractLsb' 0 8]
def halfBytes (v : Half) : List Byte := [v.extractLsb' 8 8, v.extractLsb' 0 8]

theorem storeWord_ok {s : State} {a : Word} (h : s.accessOk a 4) (site : Site) (v : Word) :
    storeWord site a v s = .ok { s with mem := s.mem.store a (wordBytes v) } := by
  unfold storeWord Memory.write32
  rw [access_eq_ok h.1 h.2]
  rfl

theorem storeHalf_ok {s : State} {a : Word} (h : s.accessOk a 2) (site : Site) (v : Word) :
    storeHalf site a v s = .ok { s with mem := s.mem.store a (halfBytes (v.extractLsb' 0 16)) } := by
  unfold storeHalf Memory.write16
  rw [access_eq_ok h.1 h.2]
  rfl

/-- An access check after a store answers as before it. -/
theorem accessOk_store {s : State} {a b : Word} {n : Nat} (bs : List Byte) :
    ({ s with mem := s.mem.store b bs } : State).accessOk a n ↔ s.accessOk a n := by
  unfold State.accessOk
  refine and_congr_right fun _ => ?_
  simp only [lookup_store]
  cases s.mem.lookup a with
  | none => simp
  | some sp =>
    by_cases h : s.mem.lookup b = some sp <;> simp [h]

/-- The word stored is read back. -/
theorem word_store_same {s : State} (hw : s.mem.wf = true) {a : Word} (h : s.accessOk a 4) (hm : s.mapped a) (v : Word) :
    ({ s with mem := s.mem.store a (wordBytes v) } : State).word a = .ok v := by
  obtain ⟨sp, hl⟩ := Option.isSome_iff_exists.1 hm
  have hin := h.2 sp hl
  have hlo := (lookup_some hl).1
  have hsp := lookup_wf hw hl
  unfold State.word Memory.read32
  rw [access_eq_ok h.1 ((accessOk_store (wordBytes v)).2 h).2]
  have hb : ∀ k (hk : k < (wordBytes v).length), (sp.setBytes a.toNat (wordBytes v)).byte (a.toNat + k) = (wordBytes v)[k] :=
    fun k hk => byte_setBytes_inside hsp hlo (by simpa [wordBytes] using hin) hk
  have h0 := hb 0 (by simp [wordBytes])
  have h1 := hb 1 (by simp [wordBytes])
  have h2 := hb 2 (by simp [wordBytes])
  have h3 := hb 3 (by simp [wordBytes])
  simp only [Nat.add_zero] at h0
  simp only [lookup_store_same hl, h0, h1, h2, h3]
  simp only [wordBytes, List.getElem_cons_zero, List.getElem_cons_succ]
  rw [append_bytes]

/-- The halfword stored is read back. -/
theorem half_store_same {s : State} (hw : s.mem.wf = true) {a : Word} (h : s.accessOk a 2) (hm : s.mapped a) (v : Half) :
    ({ s with mem := s.mem.store a (halfBytes v) } : State).half a = .ok v := by
  obtain ⟨sp, hl⟩ := Option.isSome_iff_exists.1 hm
  have hin := h.2 sp hl
  have hlo := (lookup_some hl).1
  have hsp := lookup_wf hw hl
  unfold State.half Memory.read16
  rw [access_eq_ok h.1 ((accessOk_store (halfBytes v)).2 h).2]
  have hb : ∀ k (hk : k < (halfBytes v).length), (sp.setBytes a.toNat (halfBytes v)).byte (a.toNat + k) = (halfBytes v)[k] :=
    fun k hk => byte_setBytes_inside hsp hlo (by simpa [halfBytes] using hin) hk
  have h0 := hb 0 (by simp [halfBytes])
  have h1 := hb 1 (by simp [halfBytes])
  simp only [Nat.add_zero] at h0
  simp only [lookup_store_same hl, h0, h1]
  simp only [halfBytes, List.getElem_cons_zero, List.getElem_cons_succ]
  rw [append_halves]

/-- The byte stored is read back. -/
theorem byte_store_same {s : State} (hw : s.mem.wf = true) {a : Word} (hm : s.mapped a) (v : Byte) :
    ({ s with mem := s.mem.store a [v] } : State).byte a = v := by
  obtain ⟨sp, hl⟩ := Option.isSome_iff_exists.1 hm
  have hlo := lookup_some hl
  unfold State.byte Memory.read8
  simp only [lookup_store_same hl]
  simpa using byte_setBytes_inside (bs := [v]) (lookup_wf hw hl) hlo.1 (by simp; omega) (k := 0) (by simp)

/-- A word whose bytes a store does not touch reads as before. -/
theorem word_store_apart {s : State} {a b : Word} {bs : List Byte}
    (h : a.toNat + 4 ≤ b.toNat ∨ b.toNat + bs.length ≤ a.toNat) :
    ({ s with mem := s.mem.store b bs } : State).word a = s.word a := by
  have hlook := lookup_store s.mem b a bs
  unfold State.word Memory.read32 Memory.access
  cases hl : s.mem.lookup a with
  | none => simp [hlook, hl]
  | some sp =>
    rw [hlook, hl]
    by_cases he : s.mem.lookup b = some sp
    · have hb : ∀ k, k < 4 → (sp.setBytes b.toNat bs).byte (a.toNat + k) = sp.byte (a.toNat + k) :=
        fun k hk => byte_setBytes_outside _ _ (by omega)
      have h0 := hb 0 (by omega)
      simp only [Nat.add_zero] at h0
      have h1 := hb 1 (by omega)
      have h2 := hb 2 (by omega)
      have h3 := hb 3 (by omega)
      simp only [he, if_true, setBytes_top]
      by_cases hm : s.config.misaligned = .fault ∧ a.toNat % 4 ≠ 0
      · simp [hm]
      · by_cases ht : sp.top < a.toNat + 4
        · simp [hm, ht]
        · simp only [hm, ht, if_false, h0, h1, h2, h3]
    · simp only [he, if_false]

/-- A byte outside a store reads as before. -/
theorem byte_store_outside {s : State} {a b : Word} {bs : List Byte} (h : ¬inBytes a bs.length b) :
    ({ s with mem := s.mem.store a bs } : State).byte b = s.byte b := by
  unfold inBytes at h
  exact read8_store_outside _ (by omega)

theorem mapped_store {s : State} {a b : Word} (bs : List Byte) :
    ({ s with mem := s.mem.store b bs } : State).mapped a ↔ s.mapped a := by
  unfold State.mapped
  simp only [lookup_store]
  cases s.mem.lookup a with
  | none => simp
  | some sp => by_cases h : s.mem.lookup b = some sp <;> simp [h]

theorem layout_store (m : Memory) (a : Word) (bs : List Byte) : (m.store a bs).layout = m.layout := by
  unfold Memory.layout Memory.store
  generalize m.spaces = l
  induction l with
  | nil => rfl
  | cons x rest ih =>
    simp only [updateFirst]
    split
    · simp
    · simpa using ih

/-! ### Register lists -/

theorem regList_eq (l : BitVec 16) : regList l = ((List.range 16).filter fun k => l.getLsbD k).map (BitVec.ofNat 4) := by
  have h : allRegs = (List.range 16).map (BitVec.ofNat 4) := by decide
  have hf : (List.range 16).filter ((fun r : RegNum => l.getLsbD r.toNat) ∘ BitVec.ofNat 4) =
      (List.range 16).filter fun k => l.getLsbD k := by
    apply List.filter_congr
    intro k hk
    have : k < 16 := by simpa using hk
    simp [Nat.mod_eq_of_lt this]
  rw [regList, h, List.filter_map, hf]

theorem mem_regList {l : BitVec 16} {r : RegNum} : r ∈ regList l ↔ l.getLsbD r.toNat = true := by
  have h : r ∈ allRegs := by revert r; decide
  simp [regList, h]

theorem regList_nodup (l : BitVec 16) : (regList l).Nodup := List.Nodup.filter _ (by decide)

/-- The place of a listed register: the number of listed registers below it. -/
theorem regList_place {l : BitVec 16} {r : RegNum} (h : l.getLsbD r.toNat = true) :
    (regList l)[((List.range r.toNat).filter fun k => l.getLsbD k).length]? = some r := by
  have hr := r.isLt
  have hsplit : List.range 16 = List.range r.toNat ++ (r.toNat :: (List.range (15 - r.toNat)).map (r.toNat + 1 + ·)) := by
    have h16 : (16 : Nat) = r.toNat + (15 - r.toNat + 1) := by omega
    rw [h16, List.range_add, List.range_succ_eq_map]
    simp [Nat.add_comm]
    omega
  rw [regList_eq, hsplit, List.filter_append, List.filter_cons_of_pos (by simpa using h), List.map_append, List.map_cons,
    List.getElem?_append_right (by simp)]
  simp

/-- The word after the first of a run is the first of the rest. -/
theorem slot_succ (a : Word) (k : Nat) : a + 4#32 + BitVec.ofNat 32 (4 * k) = a + BitVec.ofNat 32 (4 * (k + 1)) := by
  rw [BitVec.add_assoc]
  congr 1
  apply BitVec.eq_of_toNat_eq
  simp [BitVec.toNat_add]; omega

/-- `n` consecutive words, the first at `a`, are loaded into the registers of the list. -/
theorem loadMany_ok {site : Site} {L : List RegNum} {a : Word} {s : State} (hn : L.Nodup)
    (h : ∀ k, k < L.length → s.accessOk (a + BitVec.ofNat 32 (4 * k)) 4) :
    ∃ t, loadMany site L a s = .ok t ∧ (∀ k (hk : k < L.length), s.word (a + BitVec.ofNat 32 (4 * k)) = .ok (t.reg L[k])) ∧
      (∀ r, r ∉ L → t.reg r = s.reg r) ∧ t.cpsr = s.cpsr ∧ t.spsr = s.spsr ∧ t.mem = s.mem ∧
      t.breakpoints = s.breakpoints ∧ t.stop = s.stop ∧ t.config = s.config := by
  induction L generalizing a s with
  | nil => exact ⟨s, rfl, by simp, by simp, rfl, rfl, rfl, rfl, rfl, rfl⟩
  | cons r rest ih =>
    have h0 := h 0 (by simp)
    simp only [Nat.mul_zero, BitVec.add_zero] at h0
    obtain ⟨v, hv⟩ := word_ok h0
    have hshift := slot_succ a
    obtain ⟨t, ht, hw, hr, hrest⟩ := ih (a := a + 4#32) (s := s.setReg r v) hn.of_cons (fun k hk => by
      rw [hshift]; exact h (k + 1) (by simpa using hk))
    refine ⟨t, by rw [loadMany, loadWord_ok hv]; exact ht, ?_, ?_, by simpa using hrest⟩
    · intro k hk
      cases k with
      | zero =>
        have := hr r (List.nodup_cons.1 hn).1
        simp [hv, this]
      | succ k =>
        have := hw k (by simpa using hk)
        rw [hshift] at this
        exact this
    · intro q hq
      simp only [List.mem_cons, not_or] at hq
      rw [hr q hq.2, reg_setReg_ne _ _ hq.1]

/-- The same, to the first word that cannot be accessed. -/
theorem loadMany_fault {site : Site} {L : List RegNum} {a : Word} {s : State} {j : Nat} (hn : L.Nodup) (hj : j < L.length)
    (h : ∀ k, k < j → s.accessOk (a + BitVec.ofNat 32 (4 * k)) 4) {kd : AccessFault}
    (he : s.word (a + BitVec.ofNat 32 (4 * j)) = .error kd) :
    ∃ t, loadMany site L a s = .error (stopFault kd site t) ∧
      (∀ k (hk : k < L.length), k < j → s.word (a + BitVec.ofNat 32 (4 * k)) = .ok (t.reg L[k])) ∧
      (∀ r, (∀ k (hk : k < L.length), k < j → L[k] ≠ r) → t.reg r = s.reg r) ∧ t.cpsr = s.cpsr ∧ t.spsr = s.spsr ∧
      t.mem = s.mem ∧ t.breakpoints = s.breakpoints ∧ t.stop = s.stop ∧ t.config = s.config := by
  induction L generalizing a s j with
  | nil => simp at hj
  | cons r rest ih =>
    have hshift := slot_succ a
    cases j with
    | zero =>
      simp only [Nat.mul_zero, BitVec.add_zero] at he
      refine ⟨s, ?_, by simp, by simp, rfl, rfl, rfl, rfl, rfl, rfl⟩
      rw [loadMany, loadWord]
      unfold State.word at he
      rw [he]
    | succ j =>
      have h0 := h 0 (by simp)
      simp only [Nat.mul_zero, BitVec.add_zero] at h0
      obtain ⟨v, hv⟩ := word_ok h0
      obtain ⟨t, ht, hw, hr, hrest⟩ := ih (a := a + 4#32) (s := s.setReg r v) (j := j) hn.of_cons (by simpa using hj)
        (fun k hk => by rw [hshift]; exact h (k + 1) (by omega)) (by rw [hshift]; exact he)
      refine ⟨t, by rw [loadMany, loadWord_ok hv]; exact ht, ?_, ?_, by simpa using hrest⟩
      · intro k hk hkj
        cases k with
        | zero =>
          have := hr r (fun k hk' _ e => (List.nodup_cons.1 hn).1 (e ▸ List.getElem_mem hk'))
          simp [hv, this]
        | succ k =>
          have := hw k (by simpa using hk) (by omega)
          rw [hshift] at this
          exact this
      · intro q hq
        have h0q : r ≠ q := hq 0 (by simp) (by omega)
        rw [hr q (fun k hk hkj => hq (k + 1) (by simpa using hk) (by omega)), reg_setReg_ne _ _ (Ne.symm h0q)]

/-- Two words of one multiple transfer share no byte. -/
theorem slots_apart (a : Word) {j k : Nat} (hj : j < 17) (hk : k < 17) (h : j ≠ k) :
    (a + BitVec.ofNat 32 (4 * j)).toNat + 4 ≤ (a + BitVec.ofNat 32 (4 * k)).toNat ∨
      (a + BitVec.ofNat 32 (4 * k)).toNat + 4 ≤ (a + BitVec.ofNat 32 (4 * j)).toNat := by
  simp only [BitVec.toNat_add, BitVec.toNat_ofNat]
  have := a.isLt
  omega

/-- The registers of the list are stored to consecutive words from `a` on. -/
theorem storeMany_ok {site : Site} {L : List RegNum} {a : Word} {s : State} (hlen : L.length ≤ 17)
    (h : ∀ k, k < L.length → s.accessOk (a + BitVec.ofNat 32 (4 * k)) 4) :
    ∃ m, storeMany site L a s = .ok { s with mem := m } ∧ (s.mem.wf = true → m.wf = true) ∧ m.layout = s.mem.layout ∧
      (∀ b, (∀ k, k < L.length → ¬inBytes (a + BitVec.ofNat 32 (4 * k)) 4 b) → m.read8 b = s.mem.read8 b) ∧
      (∀ b : Word, (∀ k, k < L.length → b.toNat + 4 ≤ (a + BitVec.ofNat 32 (4 * k)).toNat ∨
          (a + BitVec.ofNat 32 (4 * k)).toNat + 4 ≤ b.toNat) → ({ s with mem := m } : State).word b = s.word b) ∧
      (s.mem.wf = true → ∀ k (hk : k < L.length), s.mapped (a + BitVec.ofNat 32 (4 * k)) →
        ({ s with mem := m } : State).word (a + BitVec.ofNat 32 (4 * k)) = .ok (s.reg L[k])) := by
  induction L generalizing a s with
  | nil => exact ⟨s.mem, rfl, id, rfl, fun _ _ => rfl, fun _ _ => rfl, fun _ k hk => by simp at hk⟩
  | cons r rest ih =>
    have h0 := h 0 (by simp)
    simp only [Nat.mul_zero, BitVec.add_zero] at h0
    have hshift := slot_succ a
    let s1 : State := { s with mem := s.mem.store a (wordBytes (s.reg r)) }
    have hw1 : s.mem.wf = true → s1.mem.wf = true := fun hw => store_wf hw (by simpa [wordBytes] using h0.2)
    obtain ⟨m, hm, hwf, hlay, hbytes, hwords, hback⟩ := ih (a := a + 4#32) (s := s1) (by simp at hlen; omega) (fun k hk => by
      rw [hshift]; exact (accessOk_store _).2 (h (k + 1) (by simpa using hk)))
    refine ⟨m, by rw [storeMany, storeWord_ok h0]; exact hm, fun hw => hwf (hw1 hw), hlay.trans (layout_store _ _ _), ?_, ?_, ?_⟩
    · intro b hb
      rw [hbytes b (fun k hk => by rw [hshift]; exact hb (k + 1) (by simpa using hk))]
      have := hb 0 (by simp)
      simp only [Nat.mul_zero, BitVec.add_zero] at this
      exact byte_store_outside (s := s) (by simpa [wordBytes] using this)
    · intro b hb
      have h1 := hwords b (fun k hk => by rw [hshift]; exact hb (k + 1) (by simpa using hk))
      have h2 := hb 0 (by simp)
      simp only [Nat.mul_zero, BitVec.add_zero] at h2
      exact h1.trans (word_store_apart (by simpa [wordBytes] using h2))
    · intro hw k hk hmap
      cases k with
      | zero =>
        simp only [Nat.mul_zero, BitVec.add_zero] at hmap ⊢
        have h1 := hwords a (fun k hk' => by
          have := slots_apart a (j := 0) (k := k + 1) (by omega) (by simp at hlen; omega) (by omega)
          rw [hshift]; simpa using this)
        exact h1.trans (word_store_same hw h0 hmap _)
      | succ k =>
        have := hback (hw1 hw) k (by simpa using hk) (by rw [hshift]; exact (mapped_store _).2 hmap)
        rw [hshift] at this
        exact this

/-- The same, to the first word that cannot be accessed. -/
theorem storeMany_fault {site : Site} {L : List RegNum} {a : Word} {s : State} {j : Nat} (hj : j < L.length)
    (h : ∀ k, k < j → s.accessOk (a + BitVec.ofNat 32 (4 * k)) 4) {kd : AccessFault}
    (he : s.mem.access s.config.misaligned (a + BitVec.ofNat 32 (4 * j)) 4 = .error kd) :
    ∃ t, storeMany site (L.take j) a s = .ok t ∧ storeMany site L a s = .error (stopFault kd site t) := by
  have herr : ∀ (m : Memory) (p : MisalignedPolicy) (x b : Word) (bs : List Byte), m.access p x 4 = .error kd →
      (m.store b bs).access p x 4 = .error kd := by
    intro m p x b bs hx
    rcases access_error hx with ⟨rfl, hp, ha⟩ | ⟨rfl, hp, sp, hl, ht⟩
    · exact access_misaligned hp ha
    · refine access_straddle (sp := if m.lookup b = some sp then sp.setBytes b.toNat bs else sp) hp ?_ ?_
      · rw [lookup_store, hl]
        by_cases hb : m.lookup b = some sp <;> simp [hb]
      · split <;> simpa using ht
  induction L generalizing a s j with
  | nil => simp at hj
  | cons r rest ih =>
    have hshift := slot_succ a
    cases j with
    | zero =>
      simp only [Nat.mul_zero, BitVec.add_zero] at he
      refine ⟨s, rfl, ?_⟩
      rw [storeMany, storeWord, Memory.write32, he]
    | succ j =>
      have h0 := h 0 (by simp)
      simp only [Nat.mul_zero, BitVec.add_zero] at h0
      obtain ⟨t, ht, hf⟩ := ih (a := a + 4#32) (s := { s with mem := s.mem.store a (wordBytes (s.reg r)) }) (j := j)
        (by simpa using hj) (fun k hk => by rw [hshift]; exact (accessOk_store _).2 (h (k + 1) (by omega)))
        (by rw [hshift]; exact herr _ _ _ _ _ he)
      exact ⟨t, by rw [List.take_succ_cons, storeMany, storeWord_ok h0]; exact ht,
        by rw [storeMany, storeWord_ok h0]; exact hf⟩

end Sys2Proof.Machine
end

