-- ==== Sys2Proof/Laws/Step.lean ====
section
/-! SUPPORT. What executing an instruction, fetching one, and a whole step can answer, said once: what a next state keeps, what a
fault records, and when a refusal comes. -/

namespace Sys2Proof.Machine

/-- What no instruction writes, with memory's canonical form kept. -/
structure Kept (s t : State) : Prop where
  spsr        : t.spsr = s.spsr
  breakpoints : t.breakpoints = s.breakpoints
  stop        : t.stop = s.stop
  config      : t.config = s.config
  layout      : t.mem.layout = s.mem.layout
  wf          : s.mem.wf = true → t.mem.wf = true

theorem Kept.refl (s : State) : Kept s s := ⟨rfl, rfl, rfl, rfl, rfl, id⟩

theorem Kept.trans {s t u : State} (h : Kept s t) (h' : Kept t u) : Kept s u :=
  ⟨h'.spsr.trans h.spsr, h'.breakpoints.trans h.breakpoints, h'.stop.trans h.stop, h'.config.trans h.config,
    h'.layout.trans h.layout, fun hw => h'.wf (h.wf hw)⟩

/-- The access that stopped an instruction in the state `u` cannot happen there. -/
def AccessFails (k : AccessFault) (u : State) : Prop :=
  ∃ a n, (n = 2 ∨ n = 4) ∧ u.mem.access u.config.misaligned a n = .error k

/-- What executing `i` in `s` can answer. -/
def ExecAnswers (i : Instr) (s : State) : Result → Prop
  | .next t => Kept s t
  | .fault f => accessesWide i = true ∧ ∃ k u, f = stopFault k (siteOf i s) u ∧ Kept s u ∧ AccessFails k u
  | .refused r => isExtension i = true ∧ s.config.extension = .refuse ∧
      r = .unmodelled (siteOf i s) { s with stop := some (.refusal (siteOf i s)) }

/-! ### The pieces -/

theorem kept_setReg (s : State) (r : RegNum) (v : Word) : Kept s (s.setReg r v) := ⟨rfl, rfl, rfl, rfl, rfl, id⟩
theorem kept_setPc (s : State) (v : Word) : Kept s (s.setPc v) := ⟨rfl, rfl, rfl, rfl, rfl, id⟩
theorem kept_cpsr (s : State) (v : Word) : Kept s { s with cpsr := v } := ⟨rfl, rfl, rfl, rfl, rfl, id⟩
theorem kept_setNZ (s : State) (v : Word) : Kept s (s.setNZ v) := kept_cpsr s _
theorem kept_setNZCV (s : State) (f : Nzcv) : Kept s (s.setNZCV f) := kept_cpsr s _
theorem kept_putC (s : State) (c : Option Bool) : Kept s (s.putC c) := by
  cases c
  · exact .refl s
  · exact kept_cpsr s _
theorem kept_afterOperand2 (b : Bool) (o : Operand2) (s : State) : Kept s (afterOperand2 b o s) := by
  cases b
  · exact .refl s
  · exact kept_putC s _
theorem kept_afterOffset (l : Bool) (off : Offset) (s : State) : Kept s (afterOffset l off s) := by
  cases off <;> cases l
  · exact .refl s
  · exact .refl s
  · exact .refl s
  · exact kept_putC s _
theorem kept_writeback (p w : Bool) (rn : RegNum) (v : Word) (s : State) : Kept s (writeback p w rn v s) := by
  unfold writeback; split
  · exact kept_setReg s rn v
  · exact .refl s
theorem kept_branchExchange (v : Word) (s : State) : Kept s (branchExchange v s) := ⟨rfl, rfl, rfl, rfl, rfl, id⟩
theorem kept_bxEffect (l : Bool) (rm : RegNum) (s : State) : Kept s (bxEffect l rm s) := by
  cases l
  · exact kept_branchExchange _ _
  · exact (kept_setReg s _ _).trans (kept_branchExchange _ _)
theorem kept_store (s : State) {a : Word} {bs : List Byte} (h : ∀ sp, s.mem.lookup a = some sp → a.toNat + bs.length ≤ sp.top) :
    Kept s { s with mem := s.mem.store a bs } := ⟨rfl, rfl, rfl, rfl, layout_store _ _ _, fun hw => store_wf hw h⟩
theorem kept_storeByte (a v : Word) (s : State) : Kept s (storeByte a v s) :=
  kept_store s fun sp hsp => by have := (lookup_some hsp).2; simp; omega

theorem kept_dpLogic (f b rn rd o s) : Kept s (dpLogic f b rn rd o s) := by
  unfold dpLogic
  cases b
  · exact kept_setReg s _ _
  · exact ((kept_afterOperand2 true o s).trans (kept_setReg _ _ _)).trans (kept_setNZ _ _)
theorem kept_dpArith (r f b rd o s) : Kept s (dpArith r f b rd o s) := by
  unfold dpArith
  cases b
  · exact kept_setReg s _ _
  · exact ((kept_afterOperand2 true o s).trans (kept_setReg _ _ _)).trans (kept_setNZCV _ _)
theorem kept_dpAdc (b rn rd o s) : Kept s (dpAdc b rn rd o s) := by
  unfold dpAdc
  cases b
  · exact kept_setReg s _ _
  · exact ((kept_afterOperand2 true o s).trans (kept_setReg _ _ _)).trans (kept_setNZ _ _)
theorem kept_dpTest (f rn o s) : Kept s (dpTest f rn o s) := (kept_afterOperand2 true o s).trans (kept_setNZ _ _)
theorem kept_dpCompare (f o s) : Kept s (dpCompare f o s) := (kept_afterOperand2 true o s).trans (kept_setNZCV _ _)

theorem kept_dataProcEffect (op b rn rd amount ty rm s) : Kept s (dataProcEffect op b rn rd amount ty rm s) := by
  unfold dataProcEffect
  split
  · exact kept_dpLogic _ _ _ _ _ _
  · exact kept_dpLogic _ _ _ _ _ _
  · exact kept_dpArith _ _ _ _ _ _
  · exact kept_dpArith _ _ _ _ _ _
  · exact kept_dpArith _ _ _ _ _ _
  · exact kept_dpAdc _ _ _ _ _
  · exact kept_dpArith _ _ _ _ _ _
  · exact kept_dpArith _ _ _ _ _ _
  · split
    · exact kept_dpTest _ _ _ _
    · exact kept_setReg _ _ _
  · split
    · exact kept_dpTest _ _ _ _
    · exact kept_cpsr _ _
  · split
    · exact kept_dpCompare _ _ _
    · exact .refl s
  · split
    · exact kept_dpCompare _ _ _
    · exact .refl s
  · exact kept_dpLogic _ _ _ _ _ _
  · exact kept_dpLogic _ _ _ _ _ _
  · exact kept_dpLogic _ _ _ _ _ _
  · exact kept_dpLogic _ _ _ _ _ _

/-! ### Threaded accesses -/

/-- What a threaded access can answer. -/
def ThreadAnswers (site : Site) (s : State) : Except Fault State → Prop
  | .ok t => Kept s t
  | .error f => ∃ k u, f = stopFault k site u ∧ Kept s u ∧ AccessFails k u

theorem access_of_read16_error {p m a k} (h : Memory.read16 p m a = .error k) : Memory.access p m a 2 = .error k := by
  unfold Memory.read16 at h
  split at h
  · rename_i hk; cases h; exact hk
  · cases h
  · cases h

theorem access_of_read32_error {p m a k} (h : Memory.read32 p m a = .error k) : Memory.access p m a 4 = .error k := by
  unfold Memory.read32 at h
  split at h
  · rename_i hk; cases h; exact hk
  · cases h
  · cases h

theorem access_of_write16_error {p m a v k} (h : Memory.write16 p m a v = .error k) : Memory.access p m a 2 = .error k := by
  unfold Memory.write16 at h
  split at h
  · rename_i hk; cases h; exact hk
  · cases h

theorem access_of_write32_error {p m a v k} (h : Memory.write32 p m a v = .error k) : Memory.access p m a 4 = .error k := by
  unfold Memory.write32 at h
  split at h
  · rename_i hk; cases h; exact hk
  · cases h

theorem loadWord_answers (site a rd s) : ThreadAnswers site s (loadWord site a rd s) := by
  unfold loadWord
  split
  · rename_i k hk; exact ⟨k, s, rfl, .refl s, a, 4, .inr rfl, access_of_read32_error hk⟩
  · exact kept_setReg _ _ _

theorem loadHalf_answers (site a rd s) : ThreadAnswers site s (loadHalf site a rd s) := by
  unfold loadHalf
  split
  · rename_i k hk; exact ⟨k, s, rfl, .refl s, a, 2, .inl rfl, access_of_read16_error hk⟩
  · exact kept_setReg _ _ _

theorem loadPc_answers (site a s) : ThreadAnswers site s (loadPc site a s) := by
  unfold loadPc
  split
  · rename_i k hk; exact ⟨k, s, rfl, .refl s, a, 4, .inr rfl, access_of_read32_error hk⟩
  · exact kept_branchExchange _ _

theorem storeWord_answers (site a v s) : ThreadAnswers site s (storeWord site a v s) := by
  unfold storeWord
  split
  · rename_i k hk; exact ⟨k, s, rfl, .refl s, a, 4, .inr rfl, access_of_write32_error hk⟩
  · rename_i m hm
    obtain ⟨rfl, -, h⟩ := write32_ok hm
    exact kept_store s (by simpa using h)

theorem storeHalf_answers (site a v s) : ThreadAnswers site s (storeHalf site a v s) := by
  unfold storeHalf
  split
  · rename_i k hk; exact ⟨k, s, rfl, .refl s, a, 2, .inl rfl, access_of_write16_error hk⟩
  · rename_i m hm
    obtain ⟨rfl, -, h⟩ := write16_ok hm
    exact kept_store s (by simpa using h)

theorem ThreadAnswers.of_kept {site s t} (h : Kept s t) {r : Except Fault State} (hr : ThreadAnswers site t r) :
    ThreadAnswers site s r := by
  cases r with
  | ok u => exact h.trans hr
  | error f => obtain ⟨k, u, hf, hk, ha⟩ := hr; exact ⟨k, u, hf, h.trans hk, ha⟩

theorem loadMany_answers (site L a s) : ThreadAnswers site s (loadMany site L a s) := by
  induction L generalizing a s with
  | nil => exact .refl s
  | cons r rest ih =>
    have h := loadWord_answers site a r s
    rw [loadMany]
    cases hl : loadWord site a r s with
    | error f => rw [hl] at h; exact h
    | ok t => rw [hl] at h; exact .of_kept h (ih _ _)

theorem storeMany_answers (site L a s) : ThreadAnswers site s (storeMany site L a s) := by
  induction L generalizing a s with
  | nil => exact .refl s
  | cons r rest ih =>
    have h := storeWord_answers site a (s.reg r) s
    rw [storeMany]
    cases hl : storeWord site a (s.reg r) s with
    | error f => rw [hl] at h; exact h
    | ok t => rw [hl] at h; exact .of_kept h (ih _ _)

/-- The rest of an instruction after its accesses. -/
theorem finish_answers {i : Instr} {s : State} {r : Except Fault State} {k : State → State} (hi : accessesWide i = true)
    (hr : ThreadAnswers (siteOf i s) s r) (hk : ∀ t, Kept t (k t)) : ExecAnswers i s (finish r k) := by
  cases r with
  | ok t => exact Kept.trans hr (hk t)
  | error f => exact ⟨hi, hr⟩

theorem whenPasses_answers {i : Instr} {c : Cond} {s : State} {k : State → Result} (h : ExecAnswers i s (k s)) :
    ExecAnswers i s (whenPasses c s k) := by
  unfold whenPasses; split
  · exact h
  · exact Kept.refl s

theorem whenPasses_next {i : Instr} {c : Cond} {s : State} {f : State → State} (h : Kept s (f s)) :
    ExecAnswers i s (whenPasses c s fun s => .next (f s)) := whenPasses_answers (k := fun s => .next (f s)) h

theorem refuseExtension_answers {i : Instr} {s : State} {k : State → Result} (hi : isExtension i = true)
    (h : ExecAnswers i s (k s)) : ExecAnswers i s (refuseExtension (siteOf i s) s k) := by
  unfold refuseExtension
  split
  · exact h
  · rename_i he; exact ⟨hi, he, rfl⟩

theorem refuseWhen_answers {ext : Bool} {i : Instr} {s : State} {k : State → Result} (hi : ext = true → isExtension i = true)
    (h : ExecAnswers i s (k s)) : ExecAnswers i s (refuseWhen ext (siteOf i s) s k) := by
  cases ext
  · exact h
  · exact refuseExtension_answers (hi rfl) h

theorem refuseExtension_next {i : Instr} {s : State} {f : State → State} (hi : isExtension i = true) (h : Kept s (f s)) :
    ExecAnswers i s (refuseExtension (siteOf i s) s fun s => .next (f s)) := refuseExtension_answers (k := fun s => .next (f s)) hi h

theorem ldrGeneral_answers {i : Instr} {s : State} (hi : accessesWide i = true) (p u w rn rd off) :
    ExecAnswers i s (ldrGeneral (siteOf i s) p u w rn rd off s) :=
  finish_answers hi (.of_kept (kept_afterOffset true off s) (loadWord_answers _ _ _ _)) fun _ => kept_writeback _ _ _ _ _

theorem strGeneral_answers {i : Instr} {s : State} (hi : accessesWide i = true) (p u w rn rd off) :
    ExecAnswers i s (strGeneral (siteOf i s) p u w rn rd off s) :=
  finish_answers hi (.of_kept (kept_afterOffset false off s) (storeWord_answers _ _ _ _)) fun _ => kept_writeback _ _ _ _ _

theorem ldrbGeneral_answers (i : Instr) (s : State) (p u w rn rd off) : ExecAnswers i s (ldrbGeneral p u w rn rd off s) :=
  ((kept_afterOffset true off s).trans (kept_setReg _ _ _)).trans (kept_writeback _ _ _ _ _)

theorem strbGeneral_answers (i : Instr) (s : State) (p u w rn rd off) : ExecAnswers i s (strbGeneral p u w rn rd off s) :=
  ((kept_afterOffset false off s).trans (kept_storeByte _ _ _)).trans (kept_writeback _ _ _ _ _)

theorem loadLiteral_answers {i : Instr} {s : State} {b : Bool} (hi : b = false → accessesWide i = true) (rd imm12) :
    ExecAnswers i s (loadLiteral (siteOf i s) b rd imm12 s) := by
  cases b
  · exact finish_answers (hi rfl) (loadWord_answers _ _ _ _) Kept.refl
  · exact kept_setReg _ _ _

theorem kept_thumbLogic (r rd s) : Kept s (thumbLogic r rd s) := (kept_setReg s rd r).trans (kept_setNZ _ _)
theorem kept_thumbArith (r f rd s) : Kept s (thumbArith r f rd s) := (kept_setReg s rd r).trans (kept_setNZCV _ _)
theorem kept_thumbShift (r c rd s) : Kept s (thumbShift r c rd s) :=
  ((kept_putC s c).trans (kept_setReg _ rd r)).trans (kept_setNZ _ _)

theorem execTPop_answers (r : Bool) (rlist : BitVec 8) (s : State) : ExecAnswers (.tPop r rlist) s (execTPop r rlist s) := by
  unfold execTPop
  have h := loadMany_answers (siteOf (.tPop r rlist) s) (lowRegList rlist) (s.reg 13#4) s
  simp only
  cases hl : loadMany (siteOf (.tPop r rlist) s) (lowRegList rlist) (s.reg 13#4) s with
  | error f => rw [hl] at h; exact ⟨rfl, h⟩
  | ok t =>
    rw [hl] at h
    refine finish_answers rfl (.of_kept h ?_) fun _ => kept_setReg _ _ _
    cases r
    · exact Kept.refl t
    · exact loadPc_answers _ _ _

/-! ### Every instruction -/

/-- What executing any instruction can answer. -/
theorem exec_answers (i : Instr) (s : State) : ExecAnswers i s (exec i s) := by
  cases i with
  | armCondNever _ => exact Kept.refl s
  | armBx c rm => refine whenPasses_next ?_; exact (kept_bxEffect _ _ _)
  | armBlxReg c rm => refine whenPasses_next ?_; exact (kept_bxEffect _ _ _)
  | armBxExt c sel rm => dsimp only [exec]; unfold execArmBxExt; refine whenPasses_answers ?_; refine refuseExtension_next rfl ?_; exact (kept_bxEffect _ _ _)
  | armSwi c _ => dsimp only [exec]; unfold execArmSwi; refine whenPasses_next ?_; exact (Kept.refl s)
  | armExtDp c op b rn rd amount ty rm =>
    dsimp only [exec]; unfold execArmExtDp
    refine whenPasses_answers ?_; refine refuseExtension_next rfl ?_; exact (kept_dataProcEffect _ _ _ _ _ _ _ _)
  | armMrs c i _ rd _ => refine whenPasses_next ?_; exact (kept_setReg _ _ _)
  | armMsr c _ _ src => refine whenPasses_next ?_; exact (kept_cpsr _ _)
  | armMrs2 c _ _ _ _ => dsimp only [exec]; unfold execArmMrs2; refine whenPasses_next ?_; exact (Kept.refl s)
  | armMsr2 c _ _ _ _ => dsimp only [exec]; unfold execArmMsr2; refine whenPasses_next ?_; exact (Kept.refl s)
  | armAnd c b rn rd o => refine whenPasses_next ?_; exact (kept_dpLogic _ _ _ _ _ _)
  | armEor c b rn rd o => refine whenPasses_next ?_; exact (kept_dpLogic _ _ _ _ _ _)
  | armSub c b rn rd o => refine whenPasses_next ?_; exact (kept_dpArith _ _ _ _ _ _)
  | armRsb c b rn rd o => refine whenPasses_next ?_; exact (kept_dpArith _ _ _ _ _ _)
  | armAdd c b rn rd o => refine whenPasses_next ?_; exact (kept_dpArith _ _ _ _ _ _)
  | armAdc c b rn rd o => refine whenPasses_next ?_; exact (kept_dpAdc _ _ _ _ _)
  | armSbc c b rn rd o => refine whenPasses_next ?_; exact (kept_dpArith _ _ _ _ _ _)
  | armRsc c b rn rd o => refine whenPasses_next ?_; exact (kept_dpArith _ _ _ _ _ _)
  | armTst c rn _ o => refine whenPasses_next ?_; exact (kept_dpTest _ _ _ _)
  | armTeq c rn _ o => refine whenPasses_next ?_; exact (kept_dpTest _ _ _ _)
  | armCmp c rn _ o => refine whenPasses_next ?_; exact (kept_dpCompare _ _ _)
  | armCmn c rn _ o => refine whenPasses_next ?_; exact (kept_dpCompare _ _ _)
  | armOrr c b rn rd o => refine whenPasses_next ?_; exact (kept_dpLogic _ _ _ _ _ _)
  | armMov c b _ rd o => refine whenPasses_next ?_; exact (kept_dpLogic _ _ _ _ _ _)
  | armBic c b rn rd o => refine whenPasses_next ?_; exact (kept_dpLogic _ _ _ _ _ _)
  | armMvn c b _ rd o => refine whenPasses_next ?_; exact (kept_dpLogic _ _ _ _ _ _)
  | armLdrLit c i p u b w rd imm12 =>
    dsimp only [exec]; unfold execArmLdrLit
    refine whenPasses_answers ?_
    exact refuseWhen_answers (fun h => h) (loadLiteral_answers (fun h => by simp [accessesWide, h]) _ _)
  | armExtTransfer c p u b w l rn rd amount ty rm =>
    dsimp only [exec]; unfold execArmExtTransfer
    refine whenPasses_answers ?_; refine refuseExtension_answers rfl ?_
    cases l <;> cases b
    · exact strGeneral_answers rfl _ _ _ _ _ _
    · exact strbGeneral_answers _ _ _ _ _ _ _ _
    · exact ldrGeneral_answers rfl _ _ _ _ _ _
    · exact ldrbGeneral_answers _ _ _ _ _ _ _ _
  | armStr c p u w rn rd off => refine whenPasses_answers ?_; exact (strGeneral_answers rfl _ _ _ _ _ _)
  | armLdr c p u w rn rd off => refine whenPasses_answers ?_; exact (ldrGeneral_answers rfl _ _ _ _ _ _)
  | armStrb c p u w rn rd off => refine whenPasses_answers ?_; exact (strbGeneral_answers _ _ _ _ _ _ _ _)
  | armLdrb c p u w rn rd off => refine whenPasses_answers ?_; exact (ldrbGeneral_answers _ _ _ _ _ _ _ _)
  | armStm c p u x w rn list =>
    dsimp only [exec]; unfold execArmStm
    refine whenPasses_answers ?_; refine (finish_answers rfl (storeMany_answers _ _ _ _) fun t => ?_)
    cases w
    · exact Kept.refl t
    · exact kept_setReg _ _ _
  | armLdm c p u x w rn list =>
    dsimp only [exec]; unfold execArmLdm
    refine whenPasses_answers ?_; refine (finish_answers rfl (loadMany_answers _ _ _ _) fun t => ?_)
    cases w
    · exact Kept.refl t
    · exact kept_setReg _ _ _
  | armB c imm24 => dsimp only [exec]; unfold execArmB; refine whenPasses_next ?_; exact (kept_setPc _ _)
  | armBl c imm24 => dsimp only [exec]; unfold execArmBl; refine whenPasses_next ?_; exact ((kept_setReg s _ _).trans (kept_setPc _ _))
  | armCoproc c _ => dsimp only [exec]; unfold execArmCoproc; refine whenPasses_next ?_; exact (Kept.refl s)
  | armUnknown c _ => dsimp only [exec]; unfold execArmUnknown; refine whenPasses_next ?_; exact (Kept.refl s)
  | tAddReg rn rs rd => exact kept_thumbArith _ _ _ _
  | tSubReg rn rs rd => exact kept_thumbArith _ _ _ _
  | tAddImm3 imm3 rs rd => exact kept_thumbArith _ _ _ _
  | tSubImm3 imm3 rs rd => exact kept_thumbArith _ _ _ _
  | tLslImm imm5 rs rd => exact kept_thumbShift _ _ _ _
  | tLsrImm imm5 rs rd => exact kept_thumbShift _ _ _ _
  | tAsrImm imm5 rs rd => exact kept_thumbShift _ _ _ _
  | tMovImm rd imm8 => exact kept_thumbLogic _ _ _
  | tCmpImm rd imm8 => exact kept_setNZCV _ _
  | tAddImm8 rd imm8 => exact kept_thumbArith _ _ _ _
  | tSubImm8 rd imm8 => exact kept_thumbArith _ _ _ _
  | tAnd rs rd => exact kept_thumbLogic _ _ _
  | tEor rs rd => exact kept_thumbLogic _ _ _
  | tLslReg rs rd => exact kept_thumbShift _ _ _ _
  | tLsrReg rs rd => exact kept_thumbShift _ _ _ _
  | tAsrReg rs rd => exact kept_thumbShift _ _ _ _
  | tAdc rs rd => exact kept_thumbLogic _ _ _
  | tSbc rs rd => exact kept_thumbArith _ _ _ _
  | tRorReg rs rd => exact kept_thumbShift _ _ _ _
  | tTst rs rd => exact kept_setNZ _ _
  | tNeg rs rd => exact kept_thumbArith _ _ _ _
  | tCmpReg rs rd => exact kept_setNZCV _ _
  | tCmn rs rd => exact kept_setNZCV _ _
  | tOrr rs rd => exact kept_thumbLogic _ _ _
  | tMul rs rd => exact kept_thumbLogic _ _ _
  | tBic rs rd => exact kept_thumbLogic _ _ _
  | tMvn rs rd => exact kept_thumbLogic _ _ _
  | tAddHigh rd rs => exact kept_setReg _ _ _
  | tCmpHigh rd rs => exact kept_setNZCV _ _
  | tMovHigh rd rs => exact kept_setReg _ _ _
  | tBx rm _ => exact kept_branchExchange _ _
  | tBxExt rm low => refine refuseExtension_next rfl ?_; exact (kept_branchExchange _ _)
  | tLdrPc rd imm8 => exact finish_answers rfl (loadWord_answers _ _ _ _) Kept.refl
  | tStrReg ro rb rd => exact finish_answers rfl (storeWord_answers _ _ _ _) Kept.refl
  | tStrbReg ro rb rd => exact kept_storeByte _ _ _
  | tLdrReg ro rb rd => exact finish_answers rfl (loadWord_answers _ _ _ _) Kept.refl
  | tLdrbReg ro rb rd => exact kept_setReg _ _ _
  | tExtHalf sel ro rb rd => dsimp only [exec]; unfold execTExtHalf; refine refuseExtension_next rfl ?_; exact (Kept.refl s)
  | tStrImm imm5 rb rd => exact finish_answers rfl (storeWord_answers _ _ _ _) Kept.refl
  | tLdrImm imm5 rb rd => exact finish_answers rfl (loadWord_answers _ _ _ _) Kept.refl
  | tStrbImm imm5 rb rd => exact kept_storeByte _ _ _
  | tLdrbImm imm5 rb rd => exact kept_setReg _ _ _
  | tStrhImm imm5 rb rd => exact finish_answers rfl (storeHalf_answers _ _ _ _) Kept.refl
  | tLdrhImm imm5 rb rd => exact finish_answers rfl (loadHalf_answers _ _ _ _) Kept.refl
  | tStrSp rd imm8 => exact finish_answers rfl (storeWord_answers _ _ _ _) Kept.refl
  | tLdrSp rd imm8 => exact finish_answers rfl (loadWord_answers _ _ _ _) Kept.refl
  | tAddPc rd imm8 => exact kept_setReg _ _ _
  | tAddSp rd imm8 => exact kept_setReg _ _ _
  | tSpAdd imm7 => exact kept_setReg _ _ _
  | tSpSub imm7 => exact kept_setReg _ _ _
  | tPush r rlist => exact finish_answers rfl (storeMany_answers _ _ _ _) fun _ => kept_setReg _ _ _
  | tPop r rlist => exact execTPop_answers r rlist s
  | tUnknown1011 _ => exact Kept.refl s
  | tStmia rb rlist => exact finish_answers rfl (storeMany_answers _ _ _ _) fun _ => kept_setReg _ _ _
  | tLdmia rb rlist => exact finish_answers rfl (loadMany_answers _ _ _ _) fun _ => kept_setReg _ _ _
  | tSwi _ => exact Kept.refl s
  | tBcond c imm8 =>
    show ExecAnswers _ s (execTBcond c imm8 s)
    unfold execTBcond; split
    · exact kept_setPc _ _
    · exact Kept.refl s
  | tB imm11 => exact kept_setPc _ _
  | tBl hi _ _ lo => exact ((kept_setPc s _).trans (kept_setReg _ _ _)).trans (kept_setPc _ _)
  | tBlx hi _ _ lo => exact (((kept_setPc s _).trans (kept_setReg _ _ _)).trans (kept_cpsr _ _)).trans (kept_setPc _ _)
  | tUnknown11101 _ => exact Kept.refl s
  | tUnknown11111 _ => exact Kept.refl s

/-! ### The fetch and the step -/

/-- What a fetch can answer: an instruction of the set CPSR.T selects with x[15] one width on, or the record of an access that
cannot happen. -/
def FetchAnswers (s : State) : Except Fault (Instr × State) → Prop
  | .ok (i, t) => i.isThumb = s.t ∧ t = s.setPc (s.pc + (if s.t then 2#32 else 4#32))
  | .error f => ∃ k bits u, f = stopFault k { ia := s.pc, bits := bits } u ∧ Kept s u ∧ AccessFails k u

theorem fetch_answers (s : State) : FetchAnswers s (fetch s) := by
  unfold fetch
  split
  · rename_i ht
    unfold fetchThumb
    split
    · rename_i k hk; exact ⟨k, none, s, rfl, .refl s, _, 2, .inl rfl, access_of_read16_error hk⟩
    · rename_i h hh
      simp only
      split
      · split
        · rename_i k hk
          exact ⟨k, some (.half h), _, rfl, kept_setPc _ _, _, 2, .inl rfl, access_of_read16_error hk⟩
        · exact ⟨(decodeThumb_isThumb _ _).trans ht.symm, by rw [if_pos ht]⟩
      · exact ⟨(decodeThumb_isThumb _ _).trans ht.symm, by rw [if_pos ht]⟩
  · rename_i ht
    unfold fetchArm
    split
    · rename_i k hk; exact ⟨k, none, s, rfl, .refl s, _, 4, .inr rfl, access_of_read32_error hk⟩
    · exact ⟨(decodeArm_isThumb _).trans (by simpa using ht), by rw [if_neg ht]⟩

/-- A step of a block that has not stopped: a breakpoint, a failed fetch, or the instruction fetched. -/
theorem step_cases {s : State} (hs : s.stop = none) :
    (step s = .fault (.breakpoint (clearPcTag s).pc (clearPcTag s))) ∨
    (∃ f, fetch (clearPcTag s) = .error f ∧ step s = .fault f) ∨
    (∃ i t, fetch (clearPcTag s) = .ok (i, t) ∧ step s = exec i t) := by
  unfold step
  rw [hs]
  simp only
  split
  · exact .inl rfl
  · cases hf : fetch (clearPcTag s) with
    | error f => exact .inr (.inl ⟨f, rfl, rfl⟩)
    | ok p => exact .inr (.inr ⟨p.1, p.2, rfl, rfl⟩)

/-- A block that has stopped answers no next state. -/
theorem stopAgain_next {r : Stop} {s t : State} : stopAgain r s ≠ .next t := by
  cases r <;> simp [stopAgain]

theorem step_next {s t : State} (h : step s = .next t) : s.stop = none ∧ Kept s t := by
  cases hs : s.stop with
  | some r => unfold step at h; rw [hs] at h; exact absurd h stopAgain_next
  | none =>
    refine ⟨rfl, ?_⟩
    rcases step_cases hs with h' | ⟨f, -, h'⟩ | ⟨i, u, hf, h'⟩
    · rw [h'] at h; cases h
    · rw [h'] at h; cases h
    · have hk := fetch_answers (clearPcTag s)
      rw [hf] at hk
      have he := exec_answers i u
      rw [← h', h] at he
      have h1 : Kept s (clearPcTag s) := kept_setPc _ _
      have h2 : Kept (clearPcTag s) u := by rw [hk.2]; exact kept_setPc _ _
      exact (h1.trans h2).trans he

end Sys2Proof.Machine
end

