-- ==== Sys2Proof/Tests/Slice0.lean ====
section
/-! SUPPORT. Tests: the checks of WellFormed, the decoding of words written out from the spec's encodings, one step per instruction
(the rows of spec/95_test_vectors.md, named in the comments; "hand" marks a value calculated from the rule named), and a witness for
the hypotheses of every obligation. -/

namespace Sys2Proof.Tests

open Sys2Proof Sys2Proof.Machine

/-! ### Helpers -/

/-- A state at `ia` with these registers and CPSR. -/
def start (ia cpsr : Word) (regs : List (RegNum × Word)) : State :=
  regs.foldl (fun s p => s.setReg p.1 p.2) (({ State.reset with cpsr := cpsr } : State).setPc ia)

/-- A space of `n` bytes at `v`, with these bytes from `a` on. -/
def space (v : Word) (n : Nat) (a : Word) (bs : List Byte) (s : State) : State :=
  { s with mem := (s.mem.create v n).writeBytes a bs }

/-- The space [0x1000, 0x1100), with these bytes from `a` on. -/
def ram (a : Word) (bs : List Byte) (s : State) : State := space 0x1000#32 0x100 a bs s

/-- One step on an instruction word. -/
def one (nbits w : Nat) (s : State) : Result := step (s.withFetchWord nbits w)

/-- The answer is a next state with these registers and this CPSR. -/
def gives (r : Result) (regs : List (RegNum × Word)) (cpsr : Word) : Bool :=
  match r with
  | .next t => regs.all (fun p => t.reg p.1 == p.2) && t.cpsr == cpsr
  | _ => false

/-- The answer is a next state with these bytes from `a` on. -/
def stores (r : Result) (a : Word) (bs : List Byte) : Bool :=
  match r with
  | .next t => t.mem.copyOut a (bs.map fun _ => 0#8) == bs
  | _ => false

/-- The answer is this access fault, with these registers left. -/
def faults (r : Result) (k : AccessFault) (site : Site) (regs : List (RegNum × Word)) : Bool :=
  match r with
  | .fault f => f.left.stop == some (.fault k site) && regs.all (fun p => f.left.reg p.1 == p.2)
  | _ => false

/-- The answer is a refusal at this site. -/
def refuses (r : Result) (site : Site) : Bool :=
  match r with
  | .refused (.unmodelled x _) => x == site
  | _ => false

/-- The state under ARCH_EXTENSION_POLICY = refuse. -/
def strict (s : State) : State := { s with config := { s.config with extension := .refuse } }

/-- The state under MISALIGNED_POLICY = bytewise. -/
def bytewise (s : State) : State := { s with config := { s.config with misaligned := .bytewise } }

/-! ### WellFormed refuses a term whose word an earlier row takes -/

theorem test_wf_bxExt_bx : (Instr.armBxExt .al 1#4 0#4).wf = false := by decide
theorem test_wf_bxExt_blx : (Instr.armBxExt .al 3#4 0#4).wf = false := by decide
theorem test_wf_extDp_bx : (Instr.armExtDp .al 9#4 false 15#4 15#4 0x1E#5 .lsl 0#4).wf = false := by decide
theorem test_wf_msr_bx : (Instr.armMsr .al 15#4 15#4 (.reg 0x78#7 0#4)).wf = false := by decide
theorem test_wf_mrs_ext : (Instr.armMrs .al false 15#4 0#4 0x010#12).wf = false := by decide
theorem test_wf_mrs2_ext : (Instr.armMrs2 .al false 15#4 0#4 0x010#12).wf = false := by decide
theorem test_wf_msr2_ext : (Instr.armMsr2 .al false 15#4 0#4 0x010#12).wf = false := by decide
theorem test_wf_ldr_pc : (Instr.armLdr .al true true false 15#4 0#4 (.imm 0#12)).wf = false := by decide
theorem test_wf_ldrb_pc : (Instr.armLdrb .al true true false 15#4 0#4 (.imm 0#12)).wf = false := by decide
theorem test_wf_extTransfer_pc :
    (Instr.armExtTransfer .al true true false false true 15#4 0#4 0#5 .lsl 0#4).wf = false := by decide
theorem test_wf_unknown1011_sp : (Instr.tUnknown1011 0x080#12).wf = false := by decide
theorem test_wf_unknown1011_push : (Instr.tUnknown1011 0x500#12).wf = false := by decide

/-! ### Decoding: words written out from the encodings of 30_encoding.md -/

-- R138
theorem test_decode_condNever : decodeArm 0b1111_0011_1010_0000_0000_0000_0000_0001#32 =
    .armCondNever 0x3A00001#28 := by decide
-- R126: 0x12FFF, 0001, Rm
theorem test_decode_bx : decodeArm 0b1110_00010010_1111_1111_1111_0001_0010#32 =
    .armBx .al 2#4 := by decide
-- R139
theorem test_decode_bxExt : decodeArm 0b1110_00010010_1111_1111_1111_0111_0010#32 =
    .armBxExt .al 7#4 2#4 := by decide
-- R125
theorem test_decode_swi : decodeArm 0b0000_1111_000000000000000000010001#32 =
    .armSwi .eq 0x11#24 := by decide
-- R122, R139
theorem test_decode_extDp : decodeArm 0b1110_00_0_0000_0_0000_0000_00101_00_1_0001#32 =
    .armExtDp .al 0#4 false 0#4 0#4 5#5 .lsl 1#4 := by decide
-- R122: cond 00 I op S Rn Rd rot imm8
theorem test_decode_dataProcImm : decodeArm 0b0001_00_1_0010_1_0011_0100_0101_11001010#32 =
    .armSub .ne true 3#4 4#4 (.imm 5#4 0xCA#8) := by decide
-- R122: amount, type, 0, Rm
theorem test_decode_dataProcReg : decodeArm 0b1110_00_0_1110_0_0001_0010_10001_10_0_1011#32 =
    .armBic .al false 1#4 2#4 (.reg 17#5 .asr 11#4) := by decide
-- R122, S3
theorem test_decode_compare : decodeArm 0b1110_00_0_1010_1_0011_0000_00000_00_0_0100#32 =
    .armCmp .al 3#4 0#4 (.reg 0#5 .lsl 4#4) := by decide
-- R127
theorem test_decode_mrs : decodeArm 0b1110_00_0_1000_0_1111_0111_000000000000#32 =
    .armMrs .al false 15#4 7#4 0#12 := by decide
-- R127
theorem test_decode_msr : decodeArm 0b1110_00_1_1001_0_1001_1111_0000_00100000#32 =
    .armMsr .al 9#4 15#4 (.imm 0#4 0x20#8) := by decide
-- R123: I P U B W L Rn Rd
theorem test_decode_ldrImm : decodeArm 0b1110_01_0_1_1_0_0_1_0001_0010_000000000100#32 =
    .armLdr .al true true false 1#4 2#4 (.imm 4#12) := by decide
-- R123
theorem test_decode_strbReg : decodeArm 0b1110_01_1_0_0_1_1_0_0001_0010_00011_01_0_0101#32 =
    .armStrb .al false false true 1#4 2#4 (.reg 3#5 .lsr 5#4) := by decide
-- R272
theorem test_decode_ldrLit : decodeArm 0b1110_01_0_1_0_0_0_1_1111_0010_000000000100#32 =
    .armLdrLit .al false true false false false 2#4 4#12 := by decide
-- R139
theorem test_decode_extTransfer : decodeArm 0b1110_01_1_1_1_0_0_0_0001_0010_00000_00_1_0011#32 =
    .armExtTransfer .al true true false false false 1#4 2#4 0#5 .lsl 3#4 := by decide
-- R124: P U S W L Rn list
theorem test_decode_ldm : decodeArm 0b1110_100_1_0_1_1_1_1101_1000000000000011#32 =
    .armLdm .al true false true true 13#4 0x8003#16 := by decide
-- R125
theorem test_decode_bl : decodeArm 0b1110_101_1_111111111111111111111110#32 =
    .armBl .al 0xFFFFFE#24 := by decide
-- R310
theorem test_decode_coproc : decodeArm 0b1110_1110_000100000000111100010000#32 =
    .armCoproc .al 0x100F10#24 := by decide
-- R303
theorem test_decode_unknown : decodeArm 0b1110_110_0_000000000000000000000011#32 =
    .armUnknown .al 3#25 := by decide
-- R128 family 1b
theorem test_decode_tAddReg : decodeThumb 0b000_11_00_001_010_011#16 0#16 =
    .tAddReg 1#3 2#3 3#3 := by decide
-- R128 family 1a
theorem test_decode_tShift : decodeThumb 0b000_01_10001_010_011#16 0#16 =
    .tLsrImm 17#5 2#3 3#3 := by decide
-- R128 family 2
theorem test_decode_tImm8 : decodeThumb 0b001_01_101_11001010#16 0#16 =
    .tCmpImm 5#3 0xCA#8 := by decide
-- R129
theorem test_decode_tAlu : decodeThumb 0b010000_0101_001_010#16 0#16 =
    .tAdc 1#3 2#3 := by decide
-- R128 family 4, R136
theorem test_decode_tHigh : decodeThumb 0b010001_01_1_0_010_011#16 0#16 =
    .tCmpHigh 11#4 2#4 := by decide
-- R128 family 4
theorem test_decode_tBx : decodeThumb 0b010001_11_0_1_110_000#16 0#16 =
    .tBx 14#4 0#3 := by decide
-- R128 family 5
theorem test_decode_tLdrPc : decodeThumb 0b01001_011_00000101#16 0#16 =
    .tLdrPc 3#3 5#8 := by decide
-- R128 family 6
theorem test_decode_tRegOffset : decodeThumb 0b0101_11_0_001_010_011#16 0#16 =
    .tLdrbReg 1#3 2#3 3#3 := by decide
-- R375
theorem test_decode_tExtHalf : decodeThumb 0b0101_10_1_001_010_011#16 0#16 =
    .tExtHalf 2#2 1#3 2#3 3#3 := by decide
-- R128 family 7
theorem test_decode_tImmOffset : decodeThumb 0b011_1_0_10001_010_011#16 0#16 =
    .tStrbImm 17#5 2#3 3#3 := by decide
-- R128 family 8
theorem test_decode_tHalf : decodeThumb 0b1000_1_10001_010_011#16 0#16 =
    .tLdrhImm 17#5 2#3 3#3 := by decide
-- R128 family 9
theorem test_decode_tSpRel : decodeThumb 0b1001_0_101_00000010#16 0#16 =
    .tStrSp 5#3 2#8 := by decide
-- R128 family 10
theorem test_decode_tAddSp : decodeThumb 0b1010_1_001_00000100#16 0#16 =
    .tAddSp 1#3 4#8 := by decide
-- R128 family 11a
theorem test_decode_tSpSub : decodeThumb 0b10110000_1_0000100#16 0#16 =
    .tSpSub 4#7 := by decide
-- R128 family 11b
theorem test_decode_tPush : decodeThumb 0b1011_0_10_1_00000011#16 0#16 =
    .tPush true 3#8 := by decide
-- R408
theorem test_decode_tUnknown1011 : decodeThumb 0b1011_1110_00000000#16 0#16 =
    .tUnknown1011 0xE00#12 := by decide
-- R128 family 12
theorem test_decode_tLdmia : decodeThumb 0b1100_1_101_00000110#16 0#16 =
    .tLdmia 5#3 6#8 := by decide
-- R128 family 13
theorem test_decode_tBcond : decodeThumb 0b1101_0000_11111110#16 0#16 =
    .tBcond .eq 0xFE#8 := by decide
-- R130 line 16
theorem test_decode_tSwi : decodeThumb 0b1101_1111_00010001#16 0#16 =
    .tSwi 0x11#8 := by decide
-- R128 family 14
theorem test_decode_tB : decodeThumb 0b11100_11111111110#16 0#16 =
    .tB 0x7FE#11 := by decide
-- R404
theorem test_decode_tBl : decodeThumb 0b11110_00000000001#16 0b111_1_1_00001111110#16 =
    .tBl 1#11 7#3 1#1 0x7E#11 := by decide
-- R407
theorem test_decode_tUnknown11111 : decodeThumb 0b11111_00000000000#16 0#16 =
    .tUnknown11111 0#11 := by decide
-- R408
theorem test_decode_tUnknown11101 : decodeThumb 0b11101_00000000001#16 0#16 =
    .tUnknown11101 1#11 := by decide

theorem test_tableWord_arm : decodeTableWord 32 0xE3A01064 = some (.armMov .al false 0#4 1#4 (.imm 0#4 0x64#8)) := by decide
theorem test_tableWord_thumb : decodeTableWord 16 0x202A = some (.tMovImm 0#3 0x2A#8) := by decide
theorem test_tableWord_pair : decodeTableWord 32 0xF000F87E = some (.tBl 0#11 7#3 1#1 0x7E#11) := by decide

/-! ### ARM data processing, one step each -/

-- S1
theorem test_armMov : gives (one 32 0xE3A01064 (start 0x0 0x0 []))
    [(1, 0x64), (15, 0x4)] 0x0 = true := by decide
-- S2
theorem test_armAdd : gives (one 32 0xE0902001 (start 0x0 0x0 [(0, 0xFFFFFFFE), (1, 0x5)]))
    [(2, 0x3)] 0x20000000 = true := by decide
-- S3
theorem test_armCmp : gives (one 32 0xE1530004 (start 0x0 0x0 [(3, 0x7), (4, 0x7)]))
    [(3, 0x7), (4, 0x7), (15, 0x4)] 0x60000000 = true := by decide
-- A1
theorem test_armAnd : gives (one 32 0xE0010002 (start 0x0 0x10000000 [(1, 0xF0F0F0F0), (2, 0xFF00FF00)]))
    [(0, 0xF000F000)] 0x10000000 = true := by decide
-- A2
theorem test_armAnd_2 : gives (one 32 0xE0110082 (start 0x0 0x10000000 [(1, 0xFFFFFFFF), (2, 0x80000000)]))
    [(0, 0x0)] 0x70000000 = true := by decide
-- A3
theorem test_armEor : gives (one 32 0xE0333003 (start 0x0 0x0 [(3, 0x1234)]))
    [(3, 0x0)] 0x40000000 = true := by decide
-- A4
theorem test_armSub : gives (one 32 0xE2500001 (start 0x0 0x0 [(0, 0x0)]))
    [(0, 0xFFFFFFFF)] 0x80000000 = true := by decide
-- A5
theorem test_armRsb : gives (one 32 0xE2700000 (start 0x0 0x0 [(0, 0x80000000)]))
    [(0, 0x80000000)] 0x80000000 = true := by decide
-- A7: Rn = 15 gets 4 more, the flags do not
theorem test_armAdd_2 : gives (one 32 0xE29F0000 (start 0x100 0xF0000000 []))
    [(0, 0x108), (15, 0x104)] 0x0 = true := by decide
-- A10: the shifter sets C before the carry-in is read
theorem test_armAdcs : gives (one 32 0xE0B10082 (start 0x0 0x0 [(1, 0x0), (2, 0x80000000)]))
    [(0, 0x1)] 0x20000000 = true := by decide
-- A11
theorem test_armAdc : gives (one 32 0xE0A10002 (start 0x0 0x20000000 [(1, 0xFFFFFFFF), (2, 0x0)]))
    [(0, 0x0)] 0x20000000 = true := by decide
-- A12
theorem test_armSbc : gives (one 32 0xE0D10002 (start 0x0 0x0 [(1, 0x5), (2, 0x3)]))
    [(0, 0x1)] 0x20000000 = true := by decide
-- A13
theorem test_armSbc_2 : gives (one 32 0xE0D10002 (start 0x0 0x0 [(1, 0x5), (2, 0xFFFFFFFF)]))
    [(0, 0x5)] 0x20000000 = true := by decide
-- A14
theorem test_armRsc : gives (one 32 0xE0E10002 (start 0x0 0x20000000 [(1, 0x3), (2, 0x5)]))
    [(0, 0x2)] 0x20000000 = true := by decide
-- A16: the rotation writes no C
theorem test_armTst : gives (one 32 0xE3100102 (start 0x0 0x0 [(0, 0x80000000)]))
    [(0, 0x80000000)] 0x80000000 = true := by decide
-- A17
theorem test_armTeq : gives (one 32 0xE1300001 (start 0x0 0x0 [(0, 0x7), (1, 0x7)]))
    [(15, 0x4)] 0x40000000 = true := by decide
-- A18
theorem test_armCmn : gives (one 32 0xE3700001 (start 0x0 0x0 [(0, 0xFFFFFFFF)]))
    [(15, 0x4)] 0x60000000 = true := by decide
-- A19
theorem test_armOrr : gives (one 32 0xE3800CFF (start 0x0 0x0 [(0, 0x11)]))
    [(0, 0xFF11)] 0x0 = true := by decide
-- A21: LSR #0 is no shift
theorem test_armMovs : gives (one 32 0xE1B00021 (start 0x0 0x0 [(1, 0x80000000)]))
    [(0, 0x80000000)] 0x80000000 = true := by decide
-- A22
theorem test_armBic : gives (one 32 0xE3C0000F (start 0x0 0x0 [(0, 0x1234)]))
    [(0, 0x1230)] 0x0 = true := by decide
-- A23
theorem test_armMvn : gives (one 32 0xE3E00000 (start 0x0 0x0 []))
    [(0, 0xFFFFFFFF)] 0x0 = true := by decide
-- A24: T is not inferred
theorem test_armMov_pc : gives (one 32 0xE1A0F00E (start 0x0 0x0 [(14, 0x201)]))
    [(15, 0x201)] 0x0 = true := by decide
-- A25
theorem test_armCondFails : gives (one 32 0x12800001 (start 0x0 0x40000000 [(0, 0x5)]))
    [(0, 0x5), (15, 0x4)] 0x40000000 = true := by decide
-- A26
theorem test_armCondNever : gives (exec (decodeArm 0xF3A00001#32) (start 4 0 [(0, 5)])) [(0, 5), (15, 4)] 0 = true := by decide
-- A27 under document
theorem test_armExtDp : gives (one 32 0xE0000291 (start 0x0 0x0 [(0, 0xFF), (1, 0x3)]))
    [(0, 0x60)] 0x0 = true := by decide
-- A27 under refuse
theorem test_armExtDp_2 : refuses (one 32 0xE0000291 (strict (start 0 0 [])))
    ⟨0x0, some (.word 0xE0000291)⟩ = true := by decide

/-! ### ARM status register, SWI, coprocessor, unknown -/

-- M1
theorem test_armMrs : gives (one 32 0xE10F0000 (start 0x0 0x60000010 []))
    [(0, 0x60000010)] 0x60000010 = true := by decide
-- M2
theorem test_armMsr : gives (one 32 0xE129F000 (start 0x0 0x0 [(0, 0xF0000013)]))
    [(15, 0x4)] 0xF0000013 = true := by decide
-- M3
theorem test_armMsr_2 : gives (one 32 0xE329F020 (start 0x100 0xF0000000 []))
    [(15, 0x104)] 0x20 = true := by decide
-- M4
theorem test_armMrs2 : gives (one 32 0xE14F0000 (start 0x0 0x0 [(0, 0x5)]))
    [(0, 0x5), (15, 0x4)] 0x0 = true := by decide
-- hand, R307
theorem test_armMsr2 : gives (one 32 0xE169F000 (start 0x0 0x0 [(0, 0x5)]))
    [(0, 0x5), (15, 0x4)] 0x0 = true := by decide
-- M5
theorem test_armSwi : gives (one 32 0xEF000011 (start 0x0 0x20000000 [(14, 0x9)]))
    [(14, 0x9), (15, 0x4)] 0x20000000 = true := by decide
-- M6
theorem test_armCoproc : gives (one 32 0xEE100F10 (start 0x0 0x0 [(0, 0x5)]))
    [(0, 0x5), (15, 0x4)] 0x0 = true := by decide
-- M7
theorem test_armUnknown : gives (one 32 0xEC000000 (start 0x0 0x0 [(0, 0x5)]))
    [(0, 0x5), (15, 0x4)] 0x0 = true := by decide

/-! ### ARM branches -/

-- J1, S4
theorem test_armBl : gives (one 32 0xEB000002 (start 0x0 0x0 []))
    [(14, 0x4), (15, 0x10)] 0x0 = true := by decide
-- J2
theorem test_armB : gives (one 32 0xEAFFFFFE (start 0x100 0x0 []))
    [(15, 0x100)] 0x0 = true := by decide
-- J4
theorem test_armB_2 : gives (one 32 0xAFFFFFE (start 0x100 0x0 []))
    [(15, 0x104)] 0x0 = true := by decide
-- J5
theorem test_armBx : gives (one 32 0xE12FFF11 (start 0x0 0x0 [(1, 0x8001)]))
    [(15, 0x8000)] 0x20 = true := by decide
-- J8
theorem test_armBx_2 : gives (one 32 0xE12FFF1F (start 0x100 0x0 []))
    [(15, 0x104)] 0x0 = true := by decide
-- J6
theorem test_armBlxReg : gives (one 32 0xE12FFF31 (start 0x100 0x0 [(1, 0x201)]))
    [(14, 0x104), (15, 0x200)] 0x20 = true := by decide
-- J7
theorem test_armBlxReg_2 : gives (one 32 0xE12FFF3E (start 0x100 0x0 [(14, 0x500)]))
    [(14, 0x104), (15, 0x104)] 0x0 = true := by decide
-- hand, R139: w[5] = 1 links
theorem test_armBxExt : gives (one 32 0xE12FFF72 (start 0x100 0x0 [(2, 0x201)]))
    [(14, 0x104), (15, 0x200)] 0x20 = true := by decide
-- J9, the step after
theorem test_armFetchMisaligned : faults (step (start 0x202 0 [])) (.misaligned 0x202 4) ⟨0x202, none⟩ [(15, 0x202)] = true := by decide
-- J10
theorem test_armFetchBlank : gives (step (space 0xFFFFE000 0x2000 0 [] (start 0xFFFFFFFC 0 []))) [(15, 0)] 0 = true := by decide

/-! ### ARM transfers -/

-- T1
theorem test_armLdr : gives (one 32 0xE5910004 (ram 0x1004 [0xCA, 0xFE, 0xBA, 0xBE] (start 0x0 0x0 [(1, 0x1000)])))
    [(0, 0xCAFEBABE), (1, 0x1000)] 0x0 = true := by decide
-- T9: the writeback is last
theorem test_armLdr_2 : gives (one 32 0xE5B11004 (ram 0x1004 [0x00, 0x00, 0x00, 0x55] (start 0x0 0x0 [(1, 0x1000)])))
    [(1, 0x1004)] 0x0 = true := by decide
-- T4: U is not examined
theorem test_armLdrLit : gives (one 32 0xE51F0004 (space 0 0x20 0xC [0x00, 0x00, 0x00, 0x99] (start 0x0 0x0 [])))
    [(0, 0x99)] 0x0 = true := by decide
-- T5
theorem test_armLdr_rotated : gives (one 32 0xE5910208 (ram 0x1000 [] (start 0x0 0x0 [(1, 0x1000)])))
    [(0, 0xFFFFFFFF)] 0x0 = true := by decide
-- T6
theorem test_armLdr_misaligned : faults (one 32 0xE5910104 (ram 0x1000 [] (start 0x0 0x0 [(1, 0x1000)])))
    (.misaligned 0x1001 4) ⟨0x0, some (.word 0xE5910104)⟩ [(0, 0x0), (15, 0x4)] = true := by decide
-- T7
theorem test_armStr : stores (one 32 0xE5010004 (ram 0x1000 [] (start 0x0 0x0 [(0, 0x11223344), (1, 0x1004)])))
    0x1000 [0x11, 0x22, 0x33, 0x44] = true := by decide
-- T8: the old x1 is stored
theorem test_armStr_2 : stores (one 32 0xE5A11004 (ram 0x1000 [] (start 0x0 0x0 [(1, 0x1000)])))
    0x1004 [0x00, 0x00, 0x10, 0x00] = true := by decide
-- T10
theorem test_armLdrb : gives (one 32 0xE7D10002 (ram 0x1000 [0x11, 0x22, 0x33, 0x44] (start 0x0 0x0 [(1, 0x1000), (2, 0x3)])))
    [(0, 0x44)] 0x0 = true := by decide
-- T11
theorem test_armStrb : stores (one 32 0xE4C10001 (ram 0x1000 [] (start 0x0 0x0 [(0, 0x1AB), (1, 0x1000)])))
    0x1000 [0xAB, 0xFF] = true := by decide
-- T11
theorem test_armStrb_2 : gives (one 32 0xE4C10001 (ram 0x1000 [] (start 0x0 0x0 [(0, 0x1AB), (1, 0x1000)])))
    [(1, 0x1001)] 0x0 = true := by decide
-- T12: the offset shifter writes C
theorem test_armLdr_shifted : gives (one 32 0xE7910102 (ram 0x1004 [0x00, 0x00, 0x00, 0x77] (start 0x0 0x0 [(1, 0x1000), (2, 0x40000001)])))
    [(0, 0x77)] 0x20000000 = true := by decide
-- T13
theorem test_armLdrb_unmapped : gives (one 32 0xE5D10000 (start 0x0 0x0 [(1, 0x9000)]))
    [(0, 0xFF)] 0x0 = true := by decide
-- T14
theorem test_armStr_unmapped : stores (one 32 0xE5810000 (ram 0x1000 [] (start 0x0 0x0 [(0, 0x1), (1, 0x9000)])))
    0x1000 [0xFF] = true := by decide
-- T15: no exchange
theorem test_armLdm : gives (one 32 0xE8BD8003 (space 0xFFFFFFF0 0x10 0xFFFFFFF0 [0x00, 0x00, 0x00, 0x01, 0x00, 0x00, 0x00, 0x02, 0x00, 0x00, 0x01, 0x01] (start 0x0 0x0 [(13, 0xFFFFFFF0)])))
    [(0, 0x1), (1, 0x2), (15, 0x101), (13, 0xFFFFFFFC)] 0x0 = true := by decide
-- T16
theorem test_armStm : stores (one 32 0xE92D4003 (ram 0x1000 [] (start 0x0 0x0 [(13, 0x1100), (0, 0x1), (1, 0x2), (14, 0x3)])))
    0x10F4 [0x00, 0x00, 0x00, 0x01, 0x00, 0x00, 0x00, 0x02, 0x00, 0x00, 0x00, 0x03] = true := by decide
-- T16
theorem test_armStm_base : gives (one 32 0xE92D4003 (ram 0x1000 [] (start 0x0 0x0 [(13, 0x1100)])))
    [(13, 0x10F4)] 0x0 = true := by decide
-- T18
theorem test_armLdm_2 : gives (one 32 0xE8300006 (ram 0x1004 [0x00, 0x00, 0x00, 0x05, 0x00, 0x00, 0x00, 0x06] (start 0x0 0x0 [(0, 0x1008)])))
    [(1, 0x5), (2, 0x6), (0, 0x1000)] 0x0 = true := by decide
-- T22
theorem test_armStm_straddle : faults (one 32 0xE8800003 (space 0x1000 6 0 [] (start 0x0 0x0 [(0, 0x1000), (1, 0x7)])))
    (.straddle 0x1004 4) ⟨0x0, some (.word 0xE8800003)⟩ [(0, 0x1000), (15, 0x4)] = true := by decide
-- hand, R279: w[4] is not examined
theorem test_armExtTransfer : gives (one 32 0xE7910112 (ram 0x1004 [0x00, 0x00, 0x00, 0x77] (start 0x0 0x0 [(1, 0x1000), (2, 0x1)])))
    [(0, 0x77)] 0x0 = true := by decide

/-! ### Thumb arithmetic -/

-- H1
theorem test_tLslImm : gives (one 16 0x88 (start 0x100 0x20 [(1, 0x40000001)]))
    [(0, 0x4)] 0x20000020 = true := by decide
-- H3
theorem test_tLsrImm : gives (one 16 0x808 (start 0x100 0x20 [(1, 0x80000000)]))
    [(0, 0x80000000)] 0x80000020 = true := by decide
-- H4
theorem test_tAsrImm : gives (one 16 0x17C8 (start 0x100 0x20000020 [(1, 0x80000000)]))
    [(0, 0xFFFFFFFF)] 0x80000020 = true := by decide
-- H5
theorem test_tAddReg : gives (one 16 0x1888 (start 0x100 0x20 [(1, 0x7FFFFFFF), (2, 0x1)]))
    [(0, 0x80000000), (15, 0x102)] 0x90000020 = true := by decide
-- H6
theorem test_tSubReg : gives (one 16 0x1A88 (start 0x100 0x20 [(1, 0x0), (2, 0x80000000)]))
    [(0, 0x80000000)] 0x80000020 = true := by decide
-- H7
theorem test_tAddImm3 : gives (one 16 0x1C08 (start 0x100 0x30000020 [(1, 0x5)]))
    [(0, 0x5)] 0x20 = true := by decide
-- H8
theorem test_tSubImm3 : gives (one 16 0x1E48 (start 0x100 0x20 [(1, 0x1)]))
    [(0, 0x0)] 0x60000020 = true := by decide
-- H9
theorem test_tMovImm : gives (one 16 0x202A (start 0x100 0x80000020 []))
    [(0, 0x2A)] 0x20 = true := by decide
-- H10
theorem test_tCmpImm : gives (one 16 0x2905 (start 0x100 0x20 [(1, 0x5)]))
    [(1, 0x5)] 0x60000020 = true := by decide
-- H11
theorem test_tAddImm8 : gives (one 16 0x32C8 (start 0x100 0x20 [(2, 0xFFFFFF38)]))
    [(2, 0x0)] 0x60000020 = true := by decide
-- H12
theorem test_tSubImm8 : gives (one 16 0x3B01 (start 0x100 0x20 [(3, 0x0)]))
    [(3, 0xFFFFFFFF)] 0x80000020 = true := by decide
-- hand, R342
theorem test_tAnd : gives (one 16 0x4008 (start 0x100 0x30000020 [(0, 0xF0F0F0F0), (1, 0x8F00FF00)]))
    [(0, 0x8000F000)] 0xB0000020 = true := by decide
-- hand, R343
theorem test_tEor : gives (one 16 0x4048 (start 0x100 0x20000020 [(0, 0x1234), (1, 0x1234)]))
    [(0, 0x0)] 0x60000020 = true := by decide
-- H13
theorem test_tLslReg : gives (one 16 0x4088 (start 0x100 0x20 [(0, 0x1), (1, 0x20)]))
    [(0, 0x0)] 0x60000020 = true := by decide
-- H14
theorem test_tLslReg_2 : gives (one 16 0x4088 (start 0x100 0x20000020 [(0, 0xFFFFFFFF), (1, 0x21)]))
    [(0, 0x0)] 0x40000020 = true := by decide
-- H16
theorem test_tLsrReg : gives (one 16 0x40C8 (start 0x100 0x20 [(0, 0x80000000), (1, 0x20)]))
    [(0, 0x0)] 0x60000020 = true := by decide
-- H17
theorem test_tAsrReg : gives (one 16 0x4108 (start 0x100 0x20 [(0, 0x80000000), (1, 0x28)]))
    [(0, 0xFFFFFFFF)] 0xA0000020 = true := by decide
-- H18
theorem test_tAdc : gives (one 16 0x4148 (start 0x100 0x30000020 [(0, 0xFFFFFFFF), (1, 0x0)]))
    [(0, 0x0)] 0x70000020 = true := by decide
-- H19
theorem test_tSbc : gives (one 16 0x4188 (start 0x100 0x20000020 [(0, 0x5), (1, 0x5)]))
    [(0, 0x0)] 0x60000020 = true := by decide
-- H20
theorem test_tRorReg : gives (one 16 0x41C8 (start 0x100 0x20 [(0, 0x1), (1, 0x24)]))
    [(0, 0x10000000)] 0x20 = true := by decide
-- H21
theorem test_tTst : gives (one 16 0x4208 (start 0x100 0x20 [(0, 0x1), (1, 0x2)]))
    [(0, 0x1)] 0x40000020 = true := by decide
-- H22
theorem test_tNeg : gives (one 16 0x4248 (start 0x100 0x20 [(1, 0x0)]))
    [(0, 0x0)] 0x60000020 = true := by decide
-- H23
theorem test_tCmpReg : gives (one 16 0x4288 (start 0x100 0x20000020 [(0, 0x1), (1, 0x2)]))
    [(0, 0x1)] 0x80000020 = true := by decide
-- H24
theorem test_tCmn : gives (one 16 0x42C8 (start 0x100 0x20 [(0, 0x1), (1, 0xFFFFFFFF)]))
    [(0, 0x1)] 0x60000020 = true := by decide
-- hand, R354
theorem test_tOrr : gives (one 16 0x4308 (start 0x100 0x20000020 [(0, 0x80000001), (1, 0x10)]))
    [(0, 0x80000011)] 0xA0000020 = true := by decide
-- H25
theorem test_tMul : gives (one 16 0x4348 (start 0x100 0x30000020 [(0, 0xFFFFFFFF), (1, 0xFFFFFFFF)]))
    [(0, 0x1)] 0x30000020 = true := by decide
-- hand, R356
theorem test_tBic : gives (one 16 0x4388 (start 0x100 0x10000020 [(0, 0xFF), (1, 0xF)]))
    [(0, 0xF0)] 0x10000020 = true := by decide
-- H26
theorem test_tMvn : gives (one 16 0x43C8 (start 0x100 0x20 [(1, 0x0)]))
    [(0, 0xFFFFFFFF)] 0x80000020 = true := by decide
-- H27
theorem test_tAddHigh : gives (one 16 0x4478 (start 0x100 0x40000020 [(0, 0x0)]))
    [(0, 0x102)] 0x40000020 = true := by decide
-- H28
theorem test_tCmpHigh : gives (one 16 0x45C8 (start 0x100 0x20 [(8, 0x3), (9, 0x3)]))
    [(8, 0x3)] 0x60000020 = true := by decide
-- H29
theorem test_tMovHigh : gives (one 16 0x46F7 (start 0x100 0x20 [(14, 0x301)]))
    [(15, 0x301)] 0x20 = true := by decide
-- H30
theorem test_tAddPc : gives (one 16 0xA002 (start 0x102 0x20 []))
    [(0, 0x10C)] 0x20 = true := by decide
-- H31
theorem test_tAddSp : gives (one 16 0xA904 (start 0x100 0x20 [(13, 0xFFFFF000)]))
    [(1, 0xFFFFF010)] 0x20 = true := by decide
-- hand, R363
theorem test_tSpAdd : gives (one 16 0xB004 (start 0x100 0x20 [(13, 0xFFFFFFF0)]))
    [(13, 0x0)] 0x20 = true := by decide
-- H32
theorem test_tSpSub : gives (one 16 0xB084 (start 0x100 0x20 [(13, 0x0)]))
    [(13, 0xFFFFFFF0)] 0x20 = true := by decide

/-! ### Thumb transfers -/

-- K2
theorem test_tLdrPc : gives (one 16 0x4801 (space 0x108 4 0x108 [0x12, 0x34, 0x56, 0x78] (start 0x102 0x20 [])))
    [(0, 0x12345678)] 0x20 = true := by decide
-- K3
theorem test_tStrReg : stores (one 16 0x5088 (ram 0x1000 [] (start 0x100 0x20 [(0, 0xDEADBEEF), (1, 0x1000), (2, 0x8)])))
    0x1008 [0xDE, 0xAD, 0xBE, 0xEF] = true := by decide
-- hand, R372
theorem test_tStrbReg : stores (one 16 0x5488 (ram 0x1000 [] (start 0x100 0x20 [(0, 0x1AB), (1, 0x1000), (2, 0x9)])))
    0x1008 [0xFF, 0xAB, 0xFF] = true := by decide
-- K4
theorem test_tLdrbReg : gives (one 16 0x5C88 (ram 0x1008 [0xDE, 0xAD, 0xBE, 0xEF] (start 0x100 0x20 [(1, 0x1000), (2, 0x9)])))
    [(0, 0xAD)] 0x20 = true := by decide
-- hand, R373
theorem test_tLdrReg : gives (one 16 0x5888 (ram 0x1008 [0xDE, 0xAD, 0xBE, 0xEF] (start 0x100 0x20 [(1, 0x1000), (2, 0x8)])))
    [(0, 0xDEADBEEF)] 0x20 = true := by decide
-- K5
theorem test_tLdrReg_misaligned : faults (one 16 0x5888 (ram 0x1000 [] (start 0x100 0x20 [(0, 0x3), (1, 0x1000), (2, 0x2)])))
    (.misaligned 0x1002 4) ⟨0x100, some (.half 0x5888)⟩ [(0, 0x3), (15, 0x102)] = true := by decide
-- K6 under document
theorem test_tExtHalf : gives (one 16 0x5A88 (start 0x100 0x20 [(0, 0x9)]))
    [(0, 0x9), (15, 0x102)] 0x20 = true := by decide
-- K6 under refuse
theorem test_tExtHalf_2 : refuses (one 16 0x5A88 (strict (start 0x100 0x20 [])))
    ⟨0x100, some (.half 0x5A88)⟩ = true := by decide
-- K7
theorem test_tLdrImm : gives (one 16 0x6FCA (ram 0x107C [0x00, 0x00, 0x00, 0x05] (start 0x100 0x20 [(1, 0x1000)])))
    [(2, 0x5)] 0x20 = true := by decide
-- hand, R376
theorem test_tStrImm : stores (one 16 0x604A (ram 0x1000 [] (start 0x100 0x20 [(1, 0x1000), (2, 0x11223344)])))
    0x1004 [0x11, 0x22, 0x33, 0x44] = true := by decide
-- K8
theorem test_tStrbImm : stores (one 16 0x7048 (ram 0x1000 [] (start 0x100 0x20 [(0, 0x155), (1, 0x1000)])))
    0x1000 [0xFF, 0x55] = true := by decide
-- hand, R379
theorem test_tLdrbImm : gives (one 16 0x7848 (ram 0x1000 [0x11, 0x22, 0x33, 0x44] (start 0x100 0x20 [(1, 0x1000)])))
    [(0, 0x22)] 0x20 = true := by decide
-- hand, R380
theorem test_tStrhImm : stores (one 16 0x8048 (ram 0x1000 [] (start 0x100 0x20 [(0, 0x11223344), (1, 0x1000)])))
    0x1002 [0x33, 0x44, 0xFF] = true := by decide
-- K9: zero-extended
theorem test_tLdrhImm : gives (one 16 0x8848 (ram 0x1000 [0x11, 0x22, 0x83, 0x44] (start 0x100 0x20 [(1, 0x1000)])))
    [(0, 0x8344)] 0x20 = true := by decide
-- K10
theorem test_tLdrhImm_misaligned : faults (one 16 0x8848 (ram 0x1000 [] (start 0x100 0x20 [(1, 0x1001)])))
    (.misaligned 0x1003 2) ⟨0x100, some (.half 0x8848)⟩ [(0, 0x0)] = true := by decide
-- K12
theorem test_tStrSp : stores (one 16 0x9002 (ram 0x1000 [] (start 0x100 0x20 [(0, 0x7), (13, 0x1000)])))
    0x1008 [0x00, 0x00, 0x00, 0x07] = true := by decide
-- K13
theorem test_tLdrSp : gives (one 16 0x9800 (start 0x100 0x20 [(13, 0x0)]))
    [(0, 0xFFFFFFFF)] 0x20 = true := by decide
-- K14
theorem test_tPush : stores (one 16 0xB503 (space 0xFFFFE000 0x2000 0 [] (start 0x100 0x20 [(13, 0x0), (0, 0x1), (1, 0x2), (14, 0x3)])))
    0xFFFFFFF4 [0x00, 0x00, 0x00, 0x01, 0x00, 0x00, 0x00, 0x02, 0x00, 0x00, 0x00, 0x03] = true := by decide
-- K14
theorem test_tPush_2 : gives (one 16 0xB503 (start 0x100 0x20 [(13, 0x0)]))
    [(13, 0xFFFFFFF4)] 0x20 = true := by decide
-- K16
theorem test_tPop : gives (one 16 0xBD00 (space 0xFFFFE000 0x2000 0xFFFFFFFC [0, 0, 2, 0] (start 0x100 0x20 [(13, 0xFFFFFFFC)])))
    [(15, 0x200), (13, 0)] 0 = true := by decide
-- K17
theorem test_tPop_2 : gives (one 16 0xBD00 (start 0x100 0x20 [(13, 0x9000)]))
    [(15, 0xFFFFFFFE), (13, 0x9004)] 0x20 = true := by decide
-- K20: the old base is stored
theorem test_tStmia : stores (one 16 0xC003 (ram 0x1000 [] (start 0x100 0x20 [(0, 0x1000), (1, 0x9)])))
    0x1000 [0x00, 0x00, 0x10, 0x00, 0x00, 0x00, 0x00, 0x09] = true := by decide
-- K18
theorem test_tStmia_2 : gives (one 16 0xC006 (ram 0x1000 [] (start 0x100 0x20 [(0, 0x1000)])))
    [(0, 0x1008)] 0x20 = true := by decide
-- K19: the writeback is last
theorem test_tLdmia : gives (one 16 0xC801 (ram 0x1000 [0x00, 0x00, 0x00, 0x77] (start 0x100 0x20 [(0, 0x1000)])))
    [(0, 0x1004)] 0x20 = true := by decide

/-! ### Thumb branches -/

-- Q1
theorem test_tBx : gives (one 16 0x4700 (start 0x100 0x20 [(0, 0x200)]))
    [(15, 0x200)] 0x0 = true := by decide
-- Q2
theorem test_tBx_2 : gives (one 16 0x4708 (start 0x100 0x20 [(1, 0x301)]))
    [(15, 0x300)] 0x20 = true := by decide
-- Q4 under document
theorem test_tBxExt : gives (one 16 0x4788 (start 0x100 0x20 [(1, 0x301)]))
    [(15, 0x300), (14, 0x0)] 0x20 = true := by decide
-- Q4 under refuse
theorem test_tBxExt_2 : refuses (one 16 0x4788 (strict (start 0x100 0x20 [])))
    ⟨0x100, some (.half 0x4788)⟩ = true := by decide
-- Q5
theorem test_tBcond : gives (one 16 0xD0FE (start 0x100 0x40000020 []))
    [(15, 0x100)] 0x40000020 = true := by decide
-- Q8
theorem test_tBcond_2 : gives (one 16 0xDE00 (start 0x100 0x20 []))
    [(15, 0x104)] 0x20 = true := by decide
-- Q10
theorem test_tB : gives (one 16 0xE002 (start 0x100 0x20 []))
    [(15, 0x108)] 0x20 = true := by decide
-- Q14
theorem test_tBl : gives (one 32 0xF7FFFF7E (start 0x200 0x20 []))
    [(14, 0x205), (15, 0x100)] 0x20 = true := by decide
-- Q15
theorem test_tBl_2 : gives (step (space 0x1FFE 2 0x1FFE [0xF0, 0x00] (start 0x1FFE 0x20 [])))
    [(14, 0x2003), (15, 0x3000)] 0x20 = true := by decide
-- Q13
theorem test_tBlx : gives (one 32 0xF000E87E (start 0x102 0x20 []))
    [(14, 0x107), (15, 0x200)] 0x0 = true := by decide
-- Q16
theorem test_tUnknown11111 : gives (one 16 0xF800 (start 0x100 0x20 [(14, 0x9)]))
    [(14, 0x9), (15, 0x102)] 0x20 = true := by decide
-- hand, R408
theorem test_tUnknown11101 : gives (one 16 0xE801 (start 0x100 0x20 [(14, 0x9)]))
    [(14, 0x9), (15, 0x102)] 0x20 = true := by decide
-- Q17
theorem test_tSwi : gives (one 16 0xDF11 (start 0x100 0x20 [(14, 0x9)]))
    [(14, 0x9), (15, 0x102)] 0x20 = true := by decide
-- Q18
theorem test_tUnknown1011 : gives (one 16 0xBE00 (start 0x100 0x20 [(14, 0x9)]))
    [(14, 0x9), (15, 0x102)] 0x20 = true := by decide

/-! ### Memory, breakpoints, the loader -/

-- Y2
theorem test_memory_bigEndian :
    ((ram 0x1000#32 [0x11, 0x22, 0x33, 0x44] State.reset).half 0x1002#32) = .ok 0x3344#16 := by decide
-- Y3
theorem test_memory_straddle : ((State.reset.create 0x1000#32 6).word 0x1004#32) = .error (.straddle 0x1004#32 4) := by decide
-- Y4, bytewise
theorem test_memory_bytewise :
    ((bytewise (ram 0x1000#32 [0x11, 0x22, 0x33, 0x44] State.reset)).half 0x1001#32) = .ok 0x2233#16 := by decide
-- Y5
theorem test_memory_misaligned : (State.reset.word 0x20000002#32) = .error (.misaligned 0x20000002#32 4) := by decide
-- Y8
theorem test_memory_coveredCreate :
    ((State.reset.create 0x1000#32 0x10).create 0x1008#32 0x100).mem = (State.reset.create 0x1000#32 0x10).mem := by decide
-- Y9
theorem test_memory_overlap :
    (((State.reset.create 0x2000#32 0x10).create 0x1000#32 0x1008).mem.lookup 0x2000#32).map (fun sp => sp.vaddr) =
      some 0x1000#32 := by decide
-- Y10
theorem test_memory_emptySpace : ((State.reset.create 0x3000#32 0).mem.lookup 0x3000#32) = none := by decide
-- hand, R95: no space owns the target address, though one owns the second byte
theorem test_memcpy_unowned :
    ((State.reset.create 0x1000#32 4).copyIn 0xFFF#32 [1, 2]).mem = (State.reset.create 0x1000#32 4).mem ∧
    (State.reset.create 0x1000#32 4).mem.copyOut 0xFFF#32 [1, 2] = [1, 2] := by decide
-- hand, R95: a copy inside its space, out of it and back
theorem test_memcpy_owned :
    ((State.reset.create 0x1000#32 4).copyIn 0x1001#32 [1, 2, 3]).mem.copyOut 0x1000#32 [0, 0, 0, 0] = [0xFF, 1, 2, 3] := by decide
-- R174: the step at a breakpoint halts before the fetch
theorem test_breakpoint : step (State.reset.addBreakpoint 0#32) =
    .fault (.breakpoint 0#32 (State.reset.addBreakpoint 0#32)) := rfl

-- hand, R139 and R272: LDR r0 with Rn = 15, I = 1, w[4] = 1 at ia = 0 loads from 0 + 8 + 0x10 under document
theorem test_armLdrLit_ext : gives (one 32 0xE71F0010 (space 0 0x20 0x18 [0x00, 0x00, 0x00, 0x99] (start 0x0 0x0 [])))
    [(0, 0x99), (15, 4)] 0x0 = true := by decide
-- hand, R139 and R434: under refuse it is refused
theorem test_armLdrLit_refuse : refuses (one 32 0xE71F0010 (strict (start 0 0 []))) ⟨0, some (.word 0xE71F0010)⟩ = true := by decide

/-- The file of S6. -/
def elfFile : List Byte :=
  [0x7F, 0x45, 0x4C, 0x46, 1, 2, 1, 0, 0, 0, 0, 0, 0, 0, 0, 0] ++ [0, 2, 0, 0x28, 0, 0, 0, 1] ++ [0, 0, 1, 0] ++
  [0, 0, 0, 0x34] ++ [0, 0, 0, 0, 0, 0, 0, 0] ++ [0, 0x34, 0, 0x20, 0, 1, 0, 0x28, 0, 0, 0, 0] ++
  [0, 0, 0, 1] ++ [0, 0, 0, 0x54] ++ [0, 0, 1, 0] ++ [0, 0, 1, 0] ++ [0, 0, 0, 8] ++ [0, 0, 0, 8] ++
  [0, 0, 0, 5, 0, 0, 0, 4] ++ [0x12, 0x34, 0x56, 0x78, 0x9A, 0xBC, 0xDE, 0xF0]

-- S6
theorem test_elf_entry : (State.reset.mem.loadElf elfFile).2 = some 0x100#32 := by decide
-- S6
theorem test_elf_word : (State.reset.mem.loadElf elfFile).1.read32 .fault 0x104#32 = .ok 0x9ABCDEF0#32 := by decide
-- hand, R11: a file offset wraps
theorem test_elf_wrap : fileBytes [0x12, 0x34] 0xFFFFFFFF#32 3 = [0x00, 0x12, 0x34] ∧ insideImage [0x12, 0x34] 0xFFFFFFFF#32 3 = false ∧
    insideImage [0x12, 0x34] 0#32 2 = true := by decide

/-- Two segments side by side: 4 file bytes and 4 more at 0x100, 4 file bytes at 0x108. -/
def elfTwo : List Byte :=
  [0x7F, 0x45, 0x4C, 0x46, 1, 2, 1, 0, 0, 0, 0, 0, 0, 0, 0, 0] ++ [0, 2, 0, 0x28, 0, 0, 0, 1] ++ [0, 0, 1, 0] ++
  [0, 0, 0, 0x34] ++ [0, 0, 0, 0, 0, 0, 0, 0] ++ [0, 0x34, 0, 0x20, 0, 2, 0, 0x28, 0, 0, 0, 0] ++
  ([0, 0, 0, 1] ++ [0, 0, 0, 0x74] ++ [0, 0, 1, 0] ++ [0, 0, 1, 0] ++ [0, 0, 0, 4] ++ [0, 0, 0, 8] ++ [0, 0, 0, 5, 0, 0, 0, 4]) ++
  ([0, 0, 0, 1] ++ [0, 0, 0, 0x78] ++ [0, 0, 1, 8] ++ [0, 0, 1, 8] ++ [0, 0, 0, 4] ++ [0, 0, 0, 4] ++ [0, 0, 0, 5, 0, 0, 0, 4]) ++
  [0x12, 0x34, 0x56, 0x78] ++ [0x9A, 0xBC, 0xDE, 0xF0]

-- hand, R97: the second segment is loaded after the first, and a byte past a segment's file bytes keeps the creation value
set_option maxRecDepth 2048 in
theorem test_elf_second : (State.reset.mem.loadElf elfTwo).1.read8 0x108#32 = 0x9A#8 := by decide
set_option maxRecDepth 2048 in
theorem test_elf_blank : (State.reset.mem.loadElf elfTwo).1.read8 0x104#32 = 0xFF#8 := by decide
-- S6, the image cut to 90 bytes
theorem test_elf_short : (State.reset.mem.loadElf (elfFile.take 90)).2 = none := by decide

/-! ### Witnesses: states and operands that meet the hypotheses of each obligation -/

/-- The space [0x1000, 0x1100), the first word 0x11223344, x1 at its start and x2 at its end. -/
def wState : State := ram 0x1000#32 [0x11, 0x22, 0x33, 0x44] (start 4#32 0#32 [(1, 0x1000), (2, 0x10FC), (13, 0x1000)])

theorem slotsOk_of_words {list : BitVec 16} {a : Word} {s : State}
    (h : ∀ r ∈ allRegs, list.getLsbD r.toNat = true → (s.word (slot list a r)).toBool = true) : slotsOk list a s := by
  intro r hr
  have := h r (by clear hr; revert r; decide) hr
  cases hw : s.word (slot list a r) with
  | error k => rw [hw] at this; cases this
  | ok v => exact accessOk_of_word hw

-- DecodeOfEncodeIsTheInstruction: a term of each row that has a check
theorem witness_DecodeOfEncodeIsTheInstruction :
    (Instr.armBxExt .al 0#4 15#4).wf = true ∧ (Instr.armBxExt .al 15#4 0#4).wf = true ∧
    (Instr.armExtDp .al 9#4 false 15#4 15#4 0x1D#5 .ror 15#4).wf = true ∧ (Instr.armMsr .al 15#4 15#4 (.reg 0x77#7 0#4)).wf = true ∧
    (Instr.armMrs .al true 15#4 0#4 0xFFF#12).wf = true ∧ (Instr.armMrs .al false 15#4 0#4 0xFEF#12).wf = true ∧
    (Instr.armLdr .al true true true 14#4 15#4 (.imm 0xFFF#12)).wf = true ∧
    (Instr.armExtTransfer .al true true true true false 15#4 15#4 31#5 .ror 15#4).wf = true ∧
    (Instr.tUnknown1011 0x300#12).wf = true ∧ (Instr.tUnknown1011 0xFFF#12).wf = true := by decide

theorem witness_EncodeOfDecodeIsTheWord : isPairFirst 0xF000#16 = true ∧ isPairFirst 0xF7FF#16 = true ∧
    isPairFirst 0xF800#16 = false ∧ isPairFirst 0xEFFF#16 = false := by decide

theorem witness_BytesDecodeAsTheirWords : isPairFirst 0xEFFF#16 = false ∧ isPairFirst 0xF000#16 = true ∧
    ([0, 0, 0] : List Byte).length < 4 ∧ ([0] : List Byte).length < 2 := by decide

theorem witness_ArmStepRunsTheFetchedWord :
    let s := ram 0x1000#32 [0x11, 0x22, 0x33, 0x44] (start 0x1001#32 0#32 [])
    s.stop = none ∧ s.t = false ∧ (s.pc &&& 0xFFFFFFFE#32) ∉ s.breakpoints ∧ s.word (s.pc &&& 0xFFFFFFFE#32) = .ok 0x11223344#32 := by
  decide

theorem witness_ThumbStepRunsTheFetchedHalfwords_one :
    let s := ram 0x1000#32 [0x11, 0x22, 0x33, 0x44] (start 0x1003#32 0x20#32 [])
    s.stop = none ∧ s.t = true ∧ (s.pc &&& 0xFFFFFFFE#32) ∉ s.breakpoints ∧ s.half (s.pc &&& 0xFFFFFFFE#32) = .ok 0x3344#16 ∧
    isPairFirst 0x3344#16 = false := by decide

theorem witness_ThumbStepRunsTheFetchedHalfwords_pair :
    let s := ram 0x10FE#32 [0xF7, 0xFF] (start 0x10FE#32 0x20#32 [])
    s.stop = none ∧ s.t = true ∧ (s.pc &&& 0xFFFFFFFE#32) ∉ s.breakpoints ∧ s.half (s.pc &&& 0xFFFFFFFE#32) = .ok 0xF7FF#16 ∧
    isPairFirst 0xF7FF#16 = true ∧ s.half ((s.pc &&& 0xFFFFFFFE#32) + 2#32) = .ok 0xFFFF#16 := by decide

theorem witness_BreakpointHaltsBeforeTheFetch :
    let s := (start 0x1001#32 0#32 []).addBreakpoint 0x1000#32
    s.stop = none ∧ (s.pc &&& 0xFFFFFFFE#32) ∈ s.breakpoints := by decide

theorem witness_FailedFetchStopsTheStep_arm :
    let s := start 0x202#32 0#32 []
    s.stop = none ∧ (s.pc &&& 0xFFFFFFFE#32) ∉ s.breakpoints ∧ s.t = false ∧
    s.word (s.pc &&& 0xFFFFFFFE#32) = .error (.misaligned 0x202#32 4) ∧ s.config.misaligned = .fault ∧
    (s.pc &&& 0xFFFFFFFE#32).toNat % 4 = 2 := by decide

theorem witness_FailedFetchStopsTheStep_thumb :
    let s := space 0x1000#32 5 0x1000#32 [] (start 0x1004#32 0x20#32 [])
    s.stop = none ∧ (s.pc &&& 0xFFFFFFFE#32) ∉ s.breakpoints ∧ s.t = true ∧
    s.half (s.pc &&& 0xFFFFFFFE#32) = .error (.straddle 0x1004#32 2) := by decide

theorem witness_FailedFetchStopsTheStep_pair :
    let s := space 0x1000#32 5 0x1000#32 [0, 0, 0xF0, 0] (start 0x1002#32 0x20#32 [])
    s.stop = none ∧ (s.pc &&& 0xFFFFFFFE#32) ∉ s.breakpoints ∧ s.t = true ∧ s.half (s.pc &&& 0xFFFFFFFE#32) = .ok 0xF000#16 ∧
    isPairFirst 0xF000#16 = true ∧ s.half ((s.pc &&& 0xFFFFFFFE#32) + 2#32) = .error (.straddle 0x1004#32 2) := by decide

theorem witness_StoppedBlockTakesNoStep :
    ({ State.reset with stop := some (.fault (.misaligned 1#32 4) ⟨0#32, none⟩) } : State).stop =
      some (.fault (.misaligned 1#32 4) ⟨0#32, none⟩) ∧
    ({ State.reset with stop := some (.fault (.straddle 2#32 4) ⟨0#32, none⟩) } : State).stop =
      some (.fault (.straddle 2#32 4) ⟨0#32, none⟩) ∧
    ({ State.reset with stop := some (.refusal ⟨0#32, none⟩) } : State).stop = some (.refusal ⟨0#32, none⟩) ∧
    ∃ t, step State.reset = .next t := ⟨rfl, rfl, rfl, _, rfl⟩

theorem witness_StoppedBlockTakesNoStep_runs :
    (∃ t, StepsTo 1 State.reset t) ∧
    (0 < 1 ∧ StepsTo 0 (start 0x202#32 0#32 []) (start 0x202#32 0#32 []) ∧ ∃ f, step (start 0x202#32 0#32 []) = .fault f) ∧
    (0 < 1 ∧ ∃ t r, StepsTo 0 ((strict (start 0x100 0x20 [])).withFetchWord 16 0x4788) t ∧ step t = .refused r) :=
  ⟨⟨_, _, rfl, rfl⟩, ⟨by decide, rfl, _, rfl⟩, ⟨by decide, _, _, rfl, rfl⟩⟩

theorem witness_FailedConditionChangesNothing :
    condOf (.armB .eq 0#24) = some .eq ∧ condHolds .eq State.reset = false := by decide

theorem witness_ConditionTable : Cond.ofBits 0#4 = some .eq ∧ Cond.ofBits 1#4 = some .ne ∧ Cond.ofBits 2#4 = some .cs ∧
    Cond.ofBits 3#4 = some .cc ∧ Cond.ofBits 4#4 = some .mi ∧ Cond.ofBits 5#4 = some .pl ∧ Cond.ofBits 6#4 = some .vs ∧
    Cond.ofBits 7#4 = some .vc ∧ Cond.ofBits 8#4 = some .hi ∧ Cond.ofBits 9#4 = some .ls ∧ Cond.ofBits 10#4 = some .ge ∧
    Cond.ofBits 11#4 = some .lt ∧ Cond.ofBits 12#4 = some .gt ∧ Cond.ofBits 13#4 = some .le ∧ Cond.ofBits 14#4 = some .al ∧
    (0#4 : BitVec 4) ≠ 15#4 := by decide

theorem witness_StepKeepsTheInvariant : wState.Inv ∧ ∃ t, step wState = .next t := ⟨by unfold State.Inv; decide, _, rfl⟩

theorem witness_HostOperationsKeepTheInvariant : (wState.addBreakpoint 0x10#32).Inv ∧
    (∃ m, wState.mem.write16 wState.config.misaligned 0x10FE#32 7#16 = .ok m) ∧
    ∃ m, wState.mem.write32 wState.config.misaligned 0x10FC#32 7#32 = .ok m := ⟨by unfold State.Inv; decide, ⟨_, rfl⟩, ⟨_, rfl⟩⟩

theorem witness_NoStepWritesSpsrBreakpointsOrMap : ∃ t, step wState = .next t := ⟨_, rfl⟩

theorem witness_OnlyTheListedInstructionsChangeT :
    ∃ t, exec (.armBx .al 1#4) (start 4#32 0#32 [(1, 0x1001)]) = .next t ∧ t.t ≠ (start 4#32 0#32 [(1, 0x1001)]).t :=
  ⟨_, rfl, by decide⟩

theorem witness_OnlyMsrChangesTheModeAndReservedBits :
    (∃ t, exec (.armBx .al 1#4) wState = .next t) ∧ replacesCpsr (.armBx .al 1#4) = false := ⟨⟨_, rfl⟩, rfl⟩

theorem witness_OnlyTheListedInstructionsFault :
    ∃ f, exec (.tLdrImm 0#5 1#3 0#3) (start 4#32 0x20#32 [(1, 0x1001)]) = .fault f := ⟨_, rfl⟩

theorem witness_RefusalsAreTheExtensionEncodings :
    (∃ r, exec (.tBxExt 1#4 0#3) (strict wState) = .refused r) ∧ isExtension (.armBxExt .ne 0#4 1#4) = true ∧
    isExtension (.armLdrLit .al true true false false false 0#4 0x010#12) = true ∧
    (strict wState).config.extension = .refuse ∧ condOf (.armBxExt .ne 0#4 1#4) = some .ne ∧ condHolds .ne (strict wState) = true :=
  ⟨⟨_, rfl⟩, by decide⟩

theorem witness_StepFaultIsAFailedAccess :
    (start 0x202#32 0#32 []).stop = none ∧
    (∃ left, step (start 0x202#32 0#32 []) = .fault (.misaligned 0x202#32 4 ⟨0x202#32, none⟩ left)) ∧
    (space 0x1000#32 5 0x1000#32 [] (start 0x1004#32 0x20#32 [])).stop = none ∧
    ∃ left, step (space 0x1000#32 5 0x1000#32 [] (start 0x1004#32 0x20#32 [])) =
      .fault (.straddle 0x1004#32 2 ⟨0x1004#32, none⟩ left) := ⟨rfl, ⟨_, rfl⟩, rfl, ⟨_, rfl⟩⟩

theorem alike_example : alikeUpToMode wState { wState with cpsr := 0x0FFFFFDF#32, spsr := 7#32 } :=
  ⟨rfl, rfl, rfl, rfl, rfl, by rintro k (rfl | rfl | rfl | rfl | rfl) <;> decide⟩

theorem witness_ModeBitsAndSpsrChangeNoBehaviour : readsCpsr (.armMsr .al 0#4 0#4 (.reg 0#7 1#4)) = false ∧
    alikeUpToMode wState { wState with cpsr := 0x0FFFFFDF#32, spsr := 7#32 } := ⟨rfl, alike_example⟩

theorem witness_BootStateOfABinaryImage : ([0xE3, 0xA0] : List Byte).length ≤ 0xFFFFE000 ∧
    (1#32 : Word).toNat < ([0xE3, 0xA0] : List Byte).length ∧ ([0xE3, 0xA0] : List Byte).length ≤ (2#32 : Word).toNat ∧
    (2#32 : Word).toNat < 0xFFFFE000 ∧ 0xFFFFE000 ≤ (0xFFFFE000#32 : Word).toNat ∧ (0xFFFFDFFF#32 : Word).toNat < 0xFFFFE000 := by
  decide

theorem witness_BootStateOfABinaryImage_run :
    (∃ s, boot Config.default (.binary [0xE3, 0xA0]) (some 8#32) = .ready s) ∧ (7 : Nat) < 8 := ⟨⟨_, rfl⟩, by decide⟩

theorem witness_UnmappedAccesses : wState.mem.lookup 0x1100#32 = none ∧ wState.mem.lookup 0xFFC#32 = none ∧
    (0x1100#32 : Word).toNat % 4 = 0 ∧ (0x1100#32 : Word).toNat % 2 = 0 := by decide

theorem witness_WordsAreBigEndian : wState.mem.wf = true ∧ (0x10FC#32 : Word).toNat % 4 = 0 ∧
    ∃ sp, wState.mem.lookup 0x10FC#32 = some sp ∧ (0x10FC#32 : Word).toNat + 4 ≤ sp.top := ⟨by decide, by decide, _, rfl, by decide⟩

theorem witness_WriteThenReadGivesTheValue : wState.mem.wf = true ∧
    (∃ sp, wState.mem.lookup 0x10FC#32 = some sp ∧ (0x10FC#32 : Word).toNat + 4 ≤ sp.top ∧ sp.wf = true) ∧
    (∃ sp, wState.mem.lookup 0x10FE#32 = some sp ∧ (0x10FE#32 : Word).toNat + 2 ≤ sp.top) ∧
    ([1, 2, 3] : List Byte).length = ([0, 0, 0] : List Byte).length ∧ wState.mem.lookup 0xFFF#32 = none :=
  ⟨by decide, ⟨_, rfl, by decide, by decide⟩, ⟨_, rfl, by decide⟩, rfl, by decide⟩

theorem witness_WritesLeaveOtherBytes :
    ¬inBytes 0x1004#32 ([1, 2, 3] : List Byte).length 0x1007#32 ∧ ¬inBytes 0x1004#32 1 0x1005#32 ∧ ¬inBytes 0x1004#32 2 0x1006#32 ∧ ¬inBytes 0x1004#32 4 0x1003#32 ∧ ¬inBytes 0x1004#32 4 0x1008#32 ∧
    (∃ m, wState.mem.write16 .fault 0x1004#32 7#16 = .ok m) ∧ (∃ m, wState.mem.write32 .fault 0x1004#32 7#32 = .ok m) :=
  ⟨by unfold inBytes; decide, by unfold inBytes; decide, by unfold inBytes; decide, by unfold inBytes; decide,
    by unfold inBytes; decide, ⟨_, rfl⟩, ⟨_, rfl⟩⟩

theorem witness_AccessChecks :
    (0x1003#32 : Word).toNat % 2 ≠ 0 ∧ (0x10FC#32 : Word).toNat % 4 = 0 ∧ wState.mem.lookup 0x1100#32 = none ∧
    (∃ sp, wState.mem.lookup 0x10FC#32 = some sp ∧ (0x10FC#32 : Word).toNat + 4 ≤ sp.top) ∧
    (∃ sp, wState.mem.lookup 0x10FD#32 = some sp ∧ sp.top < (0x10FD#32 : Word).toNat + 4) :=
  ⟨by decide, by decide, by decide, ⟨_, rfl, by decide⟩, ⟨_, rfl, by decide⟩⟩

theorem witness_LookupCreateDestroy : wState.mem.wf = true ∧ wState.mem.lookup 0x1100#32 = none ∧
    (wState.mem.lookup 0x10FF#32).isSome = true ∧ (∃ sp, wState.mem.lookup 0x1000#32 = some sp) ∧ 0 < 1 :=
  ⟨by decide, by decide, by decide, ⟨_, rfl⟩, by decide⟩

theorem pair_of_snd {x : Memory × Option Word} {o : Option Word} (h : x.2 = o) : ∃ m, x = (m, o) := ⟨x.1, by rw [← h]⟩

theorem witness_LoadElfFailsExactlyOnShortImages : (∃ e, (State.reset.mem.loadElf elfFile).2 = some e) ∧
    (∃ m, State.reset.mem.loadElf elfTwo = (m, some 0x100#32)) ∧ ∃ m, State.reset.mem.loadElf (elfFile.take 90) = (m, none) :=
  ⟨⟨0x100#32, by decide⟩, pair_of_snd (by decide), pair_of_snd (by decide)⟩

theorem witness_LoadElfFailsExactlyOnShortImages_segments : (be16 elfTwo 44#32).toNat = 2 ∧
    (∀ k, k < 2 → segFilesz elfTwo k ≤ segMemsz elfTwo k ∧ segVaddr elfTwo k + segMemsz elfTwo k ≤ 0x100000000) ∧
    (∀ j k, j < k → k < 2 → segVaddr elfTwo j + segMemsz elfTwo j ≤ segVaddr elfTwo k ∨
      segVaddr elfTwo k + segMemsz elfTwo k ≤ segVaddr elfTwo j) ∧
    segVaddr elfTwo 0 = 0x100 ∧ segFilesz elfTwo 0 = 4 ∧ segMemsz elfTwo 0 = 8 ∧ segVaddr elfTwo 1 = 0x108 ∧ segMemsz elfTwo 1 = 4 := by
  have h0 : segVaddr elfTwo 0 = 0x100 ∧ segFilesz elfTwo 0 = 4 ∧ segMemsz elfTwo 0 = 8 := by decide
  have h1 : segVaddr elfTwo 1 = 0x108 ∧ segFilesz elfTwo 1 = 4 ∧ segMemsz elfTwo 1 = 4 := by decide
  refine ⟨by decide, fun k hk => ?_, fun j k hj hk => ?_, h0.1, h0.2.1, h0.2.2, h1.1, h1.2.2⟩
  · obtain rfl | rfl : k = 0 ∨ k = 1 := by omega
    · omega
    · omega
  · obtain rfl : j = 0 := by omega
    obtain rfl : k = 1 := by omega
    omega

theorem witness_AdditionAndSubtractFlags : (0x7FFFFFFF#32 : Word) ≠ 0x80000000#32 ∧ (0x80000000#32 : Word) = 0x80000000#32 := by decide

theorem witness_CarryChainFlags : ¬((0xFFFFFFFF#32 : Word) = 0xFFFFFFFF#32 ∧ true = false) := by decide

theorem witness_BarrelShifterBits : 0 < 32 ∧ 31 < 32 ∧ 31 ≠ 0 := by decide

theorem witness_RegisterShiftBits : 1 ≤ 1 ∧ 32 ≤ 32 ∧ 32 < 33 ∧ 31 < 32 := by decide

theorem witness_ImmediatesOffsetsAndBlockAddresses : 31 < 32 ∧ (255#12 : BitVec 12).toNat < 256 ∧ 2 ≤ 2 := by decide

theorem witness_ArmLogicalOperations : condHolds .al wState = true ∧ condHolds .ne wState = true := by decide
theorem witness_ArmArithmetic : condHolds .al wState = true ∧ condHolds .cc wState = true := by decide
theorem witness_ArmCompares : condHolds .al wState = true ∧ condHolds .pl wState = true := by decide
theorem witness_ArmStatusTransfers : condHolds .al wState = true ∧ condHolds .vc wState = true := by decide
theorem witness_InstructionsWithoutEffect : wState.config.extension = .document := by decide
theorem witness_ArmBranches : condHolds .al wState = true ∧ condHolds .ge wState = true := by decide
theorem witness_BranchAndExchange : condHolds .al wState = true ∧ wState.config.extension = .document ∧
    (0#4 : BitVec 4).getLsbD 1 = false ∧ (2#4 : BitVec 4).getLsbD 1 = true := by decide
theorem witness_ThumbBranches : condHolds .gt wState = true ∧ condHolds .eq wState = false := by decide

theorem witness_ArmLoads : condHolds .al wState = true ∧
    wState.accessOk (transferAddr true true 1#4 (.imm 0#12) wState) 4 ∧
    wState.accessOk (transferAddr false false 2#4 (.imm 4#12) wState) 4 ∧
    (0x010#12 : BitVec 12).getLsbD 4 = true ∧ wState.config.extension = .document ∧
    wState.accessOk (wState.pc + (0x010#12 : BitVec 12).setWidth 32 + 4#32) 4 :=
  ⟨by decide, accessOk_of_word (v := 0x11223344#32) (by decide), accessOk_of_word (v := 0xFFFFFFFF#32) (by decide), by decide,
    by decide, accessOk_of_word (v := 0xFFFFFFFF#32) (by decide)⟩

theorem witness_ArmStores : wState.mem.wf = true ∧ condHolds .al wState = true ∧
    wState.accessOk (transferAddr false true 2#4 (.imm 0#12) wState) 4 ∧ wState.mapped (transferAddr false true 2#4 (.imm 0#12) wState) :=
  ⟨by decide, by decide, accessOk_of_word (v := 0xFFFFFFFF#32) (by decide), by unfold State.mapped; decide⟩

theorem witness_ArmExtensionWordsRunAsDecoded : condHolds .al wState = true ∧ wState.config.extension = .document ∧
    (Instr.armExtDp .al 9#4 false 1#4 2#4 0#5 .lsl 3#4).wf = true ∧
    (Instr.armExtTransfer .al true true false false true 1#4 2#4 0#5 .lsl 3#4).wf = true ∧
    wState.accessOk (transferAddr true true 1#4 (.reg 0#5 .lsl 3#4) wState) 4 :=
  ⟨by decide, by decide, by decide, by decide, accessOk_of_word (v := 0x11223344#32) (by decide)⟩

theorem witness_ArmLoadMultiple : condHolds .al wState = true ∧
    slotsOk 0x8003#16 (blockStart false true 0x8003#16 (wState.reg 1#4)) wState :=
  ⟨by decide, slotsOk_of_words (by decide)⟩

theorem witness_ArmStoreMultiple : wState.mem.wf = true ∧ condHolds .al wState = true ∧
    slotsOk 0xFFFF#16 (blockStart true false 0xFFFF#16 (wState.reg 2#4)) wState :=
  ⟨by decide, by decide, slotsOk_of_words (by decide)⟩

theorem witness_ThumbLoads :
    wState.accessOk (((wState.pc + 2#32) &&& 0xFFFFFFFC#32) + (0#8 : BitVec 8).setWidth 32 <<< 2) 4 ∧
    wState.accessOk (wState.reg (low 1#3) + wState.reg (low 0#3)) 4 ∧
    wState.accessOk (wState.reg (low 1#3) + (31#5 : BitVec 5).setWidth 32 <<< 2) 4 ∧
    wState.accessOk (wState.reg 13#4 + (63#8 : BitVec 8).setWidth 32 <<< 2) 4 ∧
    wState.accessOk (wState.reg (low 1#3) + (31#5 : BitVec 5).setWidth 32 <<< 1) 2 :=
  ⟨accessOk_of_word (v := 0xFFFFFFFF#32) (by decide), accessOk_of_word (v := 0x11223344#32) (by decide),
    accessOk_of_word (v := 0xFFFFFFFF#32) (by decide), accessOk_of_word (v := 0xFFFFFFFF#32) (by decide),
    accessOk_of_half (v := 0xFFFF#16) (by decide)⟩

theorem witness_ThumbStores : wState.mem.wf = true ∧ wState.accessOk (thumbRegAddr 0#3 1#3 wState) 4 ∧
    wState.accessOk (thumbImmAddr 2 31#5 1#3 wState) 4 ∧ wState.accessOk (thumbSpAddr 63#8 wState) 4 ∧
    wState.accessOk (thumbImmAddr 1 31#5 1#3 wState) 2 :=
  ⟨by decide, accessOk_of_word (v := 0x11223344#32) (by decide), accessOk_of_word (v := 0xFFFFFFFF#32) (by decide),
    accessOk_of_word (v := 0xFFFFFFFF#32) (by decide), accessOk_of_half (v := 0xFFFF#16) (by decide)⟩

theorem witness_ThumbStoreMultiple : wState.mem.wf = true ∧
    slotsOk (pushMask true 3#8) (wState.reg 13#4 - BitVec.ofNat 32 (4 * bitCount (pushMask true 3#8))) wState ∧
    slotsOk ((0xFF#8 : BitVec 8).setWidth 16) (wState.reg (low 1#3)) wState :=
  ⟨by decide, slotsOk_of_words (by decide), slotsOk_of_words (by decide)⟩

theorem witness_ThumbLoadMultiple :
    slotsOk ((3#8 : BitVec 8).setWidth 16) (wState.reg (low 1#3)) wState ∧
    slotsOk ((0xFF#8 : BitVec 8).setWidth 16) (wState.reg 13#4) wState ∧
    wState.accessOk (wState.reg 13#4 + BitVec.ofNat 32 (4 * bitCount ((0xFF#8 : BitVec 8).setWidth 16))) 4 :=
  ⟨slotsOk_of_words (by decide), slotsOk_of_words (by decide), accessOk_of_word (v := 0xFFFFFFFF#32) (by decide)⟩

theorem witness_SingleTransfersStopOnFailedAccess :
    condHolds .al wState = true ∧ wState.config.misaligned = .fault ∧
    (transferAddr true true 1#4 (.imm 1#12) wState).toNat % 4 ≠ 0 ∧
    (transferAddr true true 13#4 (.imm 4#12) (space 0x1000#32 6 0x1000#32 [] (start 4#32 0#32 [(13, 0x1000)]))).toNat % 4 = 0 ∧
    ∃ sp, (space 0x1000#32 6 0x1000#32 [] (start 4#32 0#32 [(13, 0x1000)])).mem.lookup 0x1004#32 = some sp ∧
      sp.top < (0x1004#32 : Word).toNat + 4 :=
  ⟨by decide, by decide, by decide, by decide, _, rfl, by decide⟩

/-- T22: x0 = 0x1000 in the space [0x1000, 0x1006), SP two words above it. -/
def wShort : State := space 0x1000#32 6 0x1000#32 [] (start 4#32 0#32 [(0, 0x1000), (13, 0x1008)])

/-- The same with SP at the start of the space. -/
def wShortPop : State := space 0x1000#32 6 0x1000#32 [] (start 4#32 0#32 [(13, 0x1000)])

theorem witness_SingleTransfersStopOnFailedAccess_ext : condHolds .al wShort = true ∧ wShort.config.extension = .document ∧
    wShort.config.misaligned = .fault ∧ (transferAddr true true 0#4 (.reg 31#5 .lsr 13#4) wShort).toNat % 4 = 0 ∧
    (transferAddr true true 0#4 (.reg 11#5 .lsr 13#4) wShort).toNat % 4 ≠ 0 ∧
    (∃ sp, wShort.mem.lookup (transferAddr true true 0#4 (.reg 10#5 .lsr 13#4) wShort) = some sp ∧
      sp.top < (transferAddr true true 0#4 (.reg 10#5 .lsr 13#4) wShort).toNat + 4) :=
  ⟨by decide, by decide, by decide, by decide, by decide, _, rfl, by decide⟩

/-- Below r1 in the list of r0 and r1 stands r0 alone. -/
theorem below_one {s : State} {start v : Word} (h : s.word (slot 3#16 start 0#4) = .ok v) :
    listed 3#16 1#4 ∧ ∀ q, listed 3#16 q → q.toNat < (1#4 : RegNum).toNat → s.accessOk (slot 3#16 start q) 4 := by
  refine ⟨by unfold listed; decide, fun q _ hlt => ?_⟩
  obtain rfl : q = 0#4 := BitVec.eq_of_toNat_eq (by simpa using hlt)
  exact accessOk_of_word h

/-- The word of r1 starts inside the space [0x1000, 0x1006) and ends outside. -/
theorem witness_MultipleTransfersStopInTheMiddle : condHolds .al wShort = true ∧
    (listed 3#16 1#4 ∧ ∀ q, listed 3#16 q → q.toNat < (1#4 : RegNum).toNat →
      wShort.accessOk (slot 3#16 (blockStart false true 3#16 (wShort.reg 0#4)) q) 4) ∧
    ∃ sp, wShort.mem.lookup (slot 3#16 (blockStart false true 3#16 (wShort.reg 0#4)) 1#4) = some sp ∧
      sp.top < (slot 3#16 (blockStart false true 3#16 (wShort.reg 0#4)) 1#4).toNat + 4 :=
  ⟨by decide, below_one (v := 0xFFFFFFFF#32) (by decide), _, rfl, by decide⟩

theorem witness_MultipleTransfersStopInTheMiddle_push : pushMask false 3#8 = 3#16 ∧
    (listed 3#16 1#4 ∧ ∀ q, listed 3#16 q → q.toNat < (1#4 : RegNum).toNat →
      wShort.accessOk (slot 3#16 (wShort.reg 13#4 - BitVec.ofNat 32 (4 * bitCount 3#16)) q) 4) ∧
    ∃ sp, wShort.mem.lookup (slot 3#16 (wShort.reg 13#4 - BitVec.ofNat 32 (4 * bitCount 3#16)) 1#4) = some sp ∧
      sp.top < (slot 3#16 (wShort.reg 13#4 - BitVec.ofNat 32 (4 * bitCount 3#16)) 1#4).toNat + 4 :=
  ⟨by decide, below_one (v := 0xFFFFFFFF#32) (by decide), _, rfl, by decide⟩

theorem witness_MultipleTransfersStopInTheMiddle_thumb : (3#8 : BitVec 8).setWidth 16 = 3#16 ∧
    (listed 3#16 1#4 ∧ ∀ q, listed 3#16 q → q.toNat < (1#4 : RegNum).toNat →
      wShortPop.accessOk (slot 3#16 (wShortPop.reg 13#4) q) 4) ∧
    (∃ sp, wShortPop.mem.lookup (slot 3#16 (wShortPop.reg 13#4) 1#4) = some sp ∧
      sp.top < (slot 3#16 (wShortPop.reg 13#4) 1#4).toNat + 4) ∧
    slotsOk ((1#8 : BitVec 8).setWidth 16) (wShortPop.reg 13#4) wShortPop ∧
    ∃ sp, wShortPop.mem.lookup (wShortPop.reg 13#4 + BitVec.ofNat 32 (4 * bitCount ((1#8 : BitVec 8).setWidth 16))) = some sp ∧
      sp.top < (wShortPop.reg 13#4 + BitVec.ofNat 32 (4 * bitCount ((1#8 : BitVec 8).setWidth 16))).toNat + 4 :=
  ⟨by decide, below_one (v := 0xFFFFFFFF#32) (by decide), ⟨_, rfl, by decide⟩, slotsOk_of_words (by decide), _, rfl, by decide⟩

end Sys2Proof.Tests
end

section
/-! PROOFS. LoadELF (R97, R98) and the boot it leads to (R460, R463): the header check as one Boolean per header, the bytes one
segment's load changes, and by induction on the number of segments what a whole load leaves. -/

namespace Sys2Proof.Machine

/-! ### Program headers -/

/-- The fields read at file offset `h`, inside the image or not. -/
def readHeader (image : List Byte) (h : Word) : ProgramHeader :=
  { offset := be32 image (h + 4#32), vaddr := be32 image (h + 8#32),
    filesz := be32 image (h + 16#32), memsz := be32 image (h + 20#32) }

/-- The header at file offset `h` and the file bytes of its segment lie inside the image (R98). -/
def headerFits (image : List Byte) (h : Word) : Bool :=
  insideImage image h programHeaderLength && (readHeader image h).inside image

theorem headerOffset_eq_headerAt (image : List Byte) (k : Nat) : headerOffset image k = headerAt image k := by
  unfold headerOffset headerAt
  congr 1
  apply BitVec.eq_of_toNat_eq
  simp [BitVec.toNat_mul]

theorem loadHeaders_cons (image : List Byte) (h : Word) (rest : List Word) (m : Memory) :
    loadHeaders image (h :: rest) m =
      if headerFits image h then loadHeaders image rest ((readHeader image h).load image m) else (m, false) := by
  unfold headerFits
  by_cases hin : insideImage image h programHeaderLength = true
  · have hp : programHeader image h = some (readHeader image h) := if_pos hin
    simp [loadHeaders, hp, hin]
  · have hp : programHeader image h = none := if_neg hin
    simp [loadHeaders, hp, hin]

/-- The headers load exactly where each of them fits, whatever memory holds. -/
theorem loadHeaders_snd (image : List Byte) (hs : List Word) (m : Memory) :
    (loadHeaders image hs m).2 = hs.all (headerFits image) := by
  induction hs generalizing m with
  | nil => rfl
  | cons h rest ih =>
    rw [loadHeaders_cons]
    split
    next hf => simp [ih, hf]
    next hf => simp [hf]

theorem loadHeaders_fst_of_fit {image : List Byte} {hs : List Word} (hfit : hs.all (headerFits image) = true) (m : Memory) :
    (loadHeaders image hs m).1 = hs.foldl (fun m h => (readHeader image h).load image m) m := by
  induction hs generalizing m with
  | nil => rfl
  | cons h rest ih =>
    obtain ⟨hh, hrest⟩ : headerFits image h = true ∧ rest.all (headerFits image) = true := by simpa using hfit
    rw [loadHeaders_cons, if_pos hh, ih hrest, List.foldl_cons]

theorem headerOffsets_all {image : List Byte} : (headerOffsets image).all (headerFits image) = true ↔
    ∀ k, k < (be16 image 44#32).toNat → headerFits image (headerAt image k) = true := by
  simp [headerOffsets, headerOffset_eq_headerAt]

/-! ### When a load fails -/

theorem not_insideImage_iff {image : List Byte} {o : Word} {n : Nat} :
    ¬insideImage image o n = true ↔ ∃ i, i < n ∧ image.length ≤ (o + BitVec.ofNat 32 i).toNat := by
  simp [insideImage_iff]

theorem not_headerFits_iff {image : List Byte} {k : Nat} : ¬headerFits image (headerAt image k) = true ↔
    (∃ i, i < 32 ∧ image.length ≤ (headerAt image k + BitVec.ofNat 32 i).toNat) ∨
      ∃ i, i < segFilesz image k ∧ image.length ≤ (segOffset image k + BitVec.ofNat 32 i).toNat := by
  rw [headerFits, Bool.and_eq_true, not_and_or, ProgramHeader.inside, not_insideImage_iff, not_insideImage_iff]
  rfl

/-- The image holds an ELF header, and every program header of it fits. -/
def elfFits (image : List Byte) : Bool :=
  decide (elfHeaderLength ≤ image.length) && (headerOffsets image).all (headerFits image)

theorem elfFits_iff {image : List Byte} : elfFits image = true ↔
    52 ≤ image.length ∧ ∀ k, k < (be16 image 44#32).toNat → headerFits image (headerAt image k) = true := by
  rw [elfFits, Bool.and_eq_true, decide_eq_true_iff, headerOffsets_all, elfHeaderLength]

theorem not_elfFits_iff {image : List Byte} : ¬elfFits image = true ↔
    image.length < 52 ∨ ∃ k, k < (be16 image 44#32).toNat ∧ ¬headerFits image (headerAt image k) = true := by
  simp only [elfFits_iff, not_and_or, not_forall, not_le, exists_prop]

theorem loadElf_of_long {image : List Byte} (h : elfHeaderLength ≤ image.length) (m : Memory) : m.loadElf image =
    ((loadHeaders image (headerOffsets image) m).1,
      if (loadHeaders image (headerOffsets image) m).2 then some (be32 image 24#32) else none) := by
  rw [Memory.loadElf, if_neg (Nat.not_lt.2 h)]
  rcases loadHeaders image (headerOffsets image) m with ⟨m', _ | _⟩ <;> rfl

/-- R98: LoadELF answers e_entry where the image fits, and fails where it does not. -/
theorem loadElf_snd (m : Memory) (image : List Byte) :
    (m.loadElf image).2 = if elfFits image then some (be32 image 24#32) else none := by
  by_cases h : elfHeaderLength ≤ image.length
  · simp [loadElf_of_long h, loadHeaders_snd, elfFits, h]
  · simp [Memory.loadElf, elfFits, h, Nat.lt_of_not_le h]

theorem loadElf_none_iff {m : Memory} {image : List Byte} : (m.loadElf image).2 = none ↔ ¬elfFits image = true := by
  simp [loadElf_snd]

theorem loadElf_some_iff {m : Memory} {image : List Byte} {entry : Word} :
    (m.loadElf image).2 = some entry ↔ elfFits image = true ∧ be32 image 24#32 = entry := by
  simp [loadElf_snd]

/-! ### One segment's load -/

/-- Create maps the new space's addresses, where no space contained one of them, and no other address (R72). -/
theorem mapped_create_iff {m : Memory} {v : Word} {n : Nat}
    (hfree : ∀ a : Word, v.toNat ≤ a.toNat → a.toNat < v.toNat + n → m.lookup a = none) (a : Word) :
    ((m.create v n).lookup a).isSome = true ↔
      (m.lookup a).isSome = true ∨ v.toNat ≤ a.toNat ∧ a.toNat < v.toNat + n := by
  by_cases ha : v.toNat ≤ a.toNat ∧ a.toNat < v.toNat + n
  · simp [lookup_create_inside (hfree v le_rfl (by omega)) (hfree a ha.1 ha.2) ha, ha]
  · rw [lookup_create_outside m (by omega)]
    simp [ha]

/-- A byte of the new space reads as an unmapped byte did (R72, R83). -/
theorem read8_create {m : Memory} {v : Word} {n : Nat}
    (hfree : ∀ a : Word, v.toNat ≤ a.toNat → a.toNat < v.toNat + n → m.lookup a = none) (a : Word) :
    (m.create v n).read8 a = m.read8 a := by
  unfold Memory.read8
  by_cases ha : v.toNat ≤ a.toNat ∧ a.toNat < v.toNat + n
  · rw [lookup_create_inside (hfree v le_rfl (by omega)) (hfree a ha.1 ha.2) ha, hfree a ha.1 ha.2]
    rfl
  · rw [lookup_create_outside m (by omega)]

@[simp] theorem programHeader_bytes_length (p : ProgramHeader) (image : List Byte) :
    (p.bytes image).length = p.filesz.toNat := fileBytes_length _ _ _

/-- `a` is one of the addresses of segment `k`. -/
def inSegment (image : List Byte) (k : Nat) (a : Word) : Prop :=
  segVaddr image k ≤ a.toNat ∧ a.toNat < segVaddr image k + segMemsz image k

/-- `a` is one of the addresses the file bytes of segment `k` go to. -/
def inFilePart (image : List Byte) (k : Nat) (a : Word) : Prop :=
  segVaddr image k ≤ a.toNat ∧ a.toNat < segVaddr image k + segFilesz image k

/-- Segment `k` loaded: its space created, its file bytes copied (R97). -/
def loadSegment (image : List Byte) (k : Nat) (m : Memory) : Memory := (readHeader image (headerAt image k)).load image m

/-- The file bytes of segment `k` fit into it, and it ends at or below 2^32. -/
def segmentFits (image : List Byte) (k : Nat) : Prop :=
  segFilesz image k ≤ segMemsz image k ∧ segVaddr image k + segMemsz image k ≤ 0x100000000

theorem inSegment_of_inFilePart {image : List Byte} {k : Nat} (hk : segmentFits image k) {a : Word}
    (h : inFilePart image k a) : inSegment image k a := by
  obtain ⟨hfile, -⟩ := hk
  exact ⟨h.1, by have := h.2; omega⟩

section
variable {image : List Byte} {k : Nat} {m : Memory} (hfree : ∀ a : Word, inSegment image k a → m.lookup a = none)
include hfree

theorem mapped_loadSegment_iff (a : Word) :
    ((loadSegment image k m).lookup a).isSome = true ↔ (m.lookup a).isSome = true ∨ inSegment image k a := by
  rw [loadSegment, ProgramHeader.load, mapped_writeBytes]
  exact mapped_create_iff (fun b h1 h2 => hfree b ⟨h1, h2⟩) a

theorem read8_loadSegment_filePart (hw : m.wf = true) (hk : segmentFits image k) {a : Word} (ha : inFilePart image k a) :
    (loadSegment image k m).read8 a = imageByte image (segOffset image k + BitVec.ofNat 32 (a.toNat - segVaddr image k)) := by
  have hmem := inSegment_of_inFilePart hk ha
  obtain ⟨hfile, htop⟩ := hk
  obtain ⟨hlo, hhi⟩ := ha
  have hlen : (readHeader image (headerAt image k)).filesz.toNat = segFilesz image k := rfl
  have hv : (readHeader image (headerAt image k)).vaddr.toNat = segVaddr image k := rfl
  rw [loadSegment, ProgramHeader.load, read8_writeBytes_inside (create_wf hw _ _)]
  · exact fileBytes_get ..
  · rw [programHeader_bytes_length]; omega
  · exact hlo
  · rw [programHeader_bytes_length]; omega
  · exact (mapped_create_iff (fun b h1 h2 => hfree b ⟨h1, h2⟩) a).2 (.inr hmem)

theorem read8_loadSegment_other (hk : segmentFits image k) {a : Word} (ha : ¬inFilePart image k a) :
    (loadSegment image k m).read8 a = m.read8 a := by
  obtain ⟨hfile, htop⟩ := hk
  have hlen : (readHeader image (headerAt image k)).filesz.toNat = segFilesz image k := rfl
  have hv : (readHeader image (headerAt image k)).vaddr.toNat = segVaddr image k := rfl
  unfold inFilePart at ha
  rw [loadSegment, ProgramHeader.load, read8_writeBytes_outside]
  · exact read8_create (fun b h1 h2 => hfree b ⟨h1, h2⟩) a
  · rw [programHeader_bytes_length]; omega
  · rw [programHeader_bytes_length]; omega

end

/-! ### What the first segments leave in an empty registry -/

/-- Memory after the first `n` segments: their addresses are mapped, the file bytes stand in them, and every other byte reads 0xFF. -/
structure SegmentsLoaded (image : List Byte) (n : Nat) (m : Memory) : Prop where
  wf : m.wf = true
  mapped_iff : ∀ a, (m.lookup a).isSome = true ↔ ∃ k, k < n ∧ inSegment image k a
  file : ∀ k a, k < n → inFilePart image k a →
    m.read8 a = imageByte image (segOffset image k + BitVec.ofNat 32 (a.toNat - segVaddr image k))
  blank : ∀ a, (∀ k, k < n → ¬inFilePart image k a) → m.read8 a = 0xFF#8

theorem segmentsLoaded_reset (image : List Byte) : SegmentsLoaded image 0 State.reset.mem where
  wf := reset_mem_wf
  mapped_iff a := by simp [State.reset, Memory.lookup]
  file k a hk := by omega
  blank a _ := rfl

/-- One more segment, apart from those before it. -/
theorem segmentsLoaded_succ {image : List Byte} {n : Nat} {m : Memory} (h : SegmentsLoaded image n m)
    (hfit : ∀ k, k ≤ n → segmentFits image k) (hdisj : ∀ k a, k < n → inSegment image k a → ¬inSegment image n a) :
    SegmentsLoaded image (n + 1) (loadSegment image n m) := by
  have hfree : ∀ a : Word, inSegment image n a → m.lookup a = none := fun a ha => by
    rw [← Option.not_isSome_iff_eq_none, h.mapped_iff]
    rintro ⟨k, hk, hka⟩
    exact hdisj k a hk hka ha
  refine ⟨writeBytes_wf (create_wf h.wf _ _) _ _, fun a => ?_, fun k a hk ha => ?_, fun a ha => ?_⟩
  · rw [mapped_loadSegment_iff hfree, h.mapped_iff, Nat.exists_lt_succ_right]
  · obtain rfl | hlt : k = n ∨ k < n := by omega
    · exact read8_loadSegment_filePart hfree h.wf (hfit k le_rfl) ha
    · have hn : ¬inFilePart image n a := fun hna =>
        hdisj k a hlt (inSegment_of_inFilePart (hfit k hlt.le) ha) (inSegment_of_inFilePart (hfit n le_rfl) hna)
      rw [read8_loadSegment_other hfree (hfit n le_rfl) hn]
      exact h.file k a hlt ha
  · rw [read8_loadSegment_other hfree (hfit n le_rfl) (ha n n.lt_succ_self)]
    exact h.blank a fun k hk => ha k (by omega)

theorem segmentsLoaded_foldl {image : List Byte} {n : Nat} (hfit : ∀ k, k < n → segmentFits image k)
    (hdisj : ∀ j k a, j < k → k < n → inSegment image j a → ¬inSegment image k a) :
    SegmentsLoaded image n ((List.range n).foldl (fun m k => loadSegment image k m) State.reset.mem) := by
  induction n with
  | zero => exact segmentsLoaded_reset image
  | succ n ih =>
    rw [List.range_succ, List.foldl_append]
    exact segmentsLoaded_succ (ih (fun k hk => hfit k (by omega)) fun j k a hjk hk => hdisj j k a hjk (by omega))
      (fun k hk => hfit k (by omega)) fun k a hk => hdisj k n a hk (by omega)

theorem loadElf_eq_foldl {m m' : Memory} {image : List Byte} {entry : Word} (h : m.loadElf image = (m', some entry)) :
    m' = (List.range (be16 image 44#32).toNat).foldl (fun m k => loadSegment image k m) m := by
  obtain ⟨hfits, -⟩ := loadElf_some_iff.1 (congrArg Prod.snd h)
  obtain ⟨hlen, hheaders⟩ := elfFits_iff.1 hfits
  calc m' = (m.loadElf image).1 := (congrArg Prod.fst h).symm
    _ = (loadHeaders image (headerOffsets image) m).1 := congrArg Prod.fst (loadElf_of_long hlen m)
    _ = (headerOffsets image).foldl (fun m h => (readHeader image h).load image m) m :=
      loadHeaders_fst_of_fit (headerOffsets_all.2 hheaders) m
    _ = _ := by
      rw [headerOffsets, List.foldl_map]
      simp only [headerOffset_eq_headerAt, loadSegment]

/-- R97: what a load of segments that fit and share no address leaves in an empty registry. -/
theorem segmentsLoaded_loadElf {m : Memory} {image : List Byte} {entry : Word}
    (h : State.reset.mem.loadElf image = (m, some entry)) (hfit : ∀ k, k < (be16 image 44#32).toNat → segmentFits image k)
    (hdisj : ∀ j k a, j < k → k < (be16 image 44#32).toNat → inSegment image j a → ¬inSegment image k a) :
    SegmentsLoaded image (be16 image 44#32).toNat m := by
  rw [loadElf_eq_foldl h]
  exact segmentsLoaded_foldl hfit hdisj

/-! ### Boot -/

@[simp] theorem reg_reset (r : RegNum) : State.reset.reg r = 0#32 := by
  simp [State.reg, State.reset]

/-- R460 step 2: a load that fails ends the run. -/
theorem boot_elf_failed (cfg : Config) {image : List Byte} {m : Memory} (h : State.reset.mem.loadElf image = (m, none))
    (bp : Option Word) : boot cfg (.elf image) bp = .failed { State.reset with config := cfg, mem := m } := by
  simp [boot, Memory.loadImage, h]

/-- The state at the start of the first step (R463), without its breakpoint. -/
def bootState (cfg : Config) (m : Memory) (entry : Word) : State :=
  ({ State.reset with config := cfg, mem := m.createStack } : State).setEntry entry

theorem boot_elf_ready (cfg : Config) {image : List Byte} {m : Memory} {entry : Word}
    (h : State.reset.mem.loadElf image = (m, some entry)) (bp : Option Word) :
    boot cfg (.elf image) bp = .ready { bootState cfg m entry with breakpoints := bp.toList } := by
  cases bp <;> simp [boot, Memory.loadImage, h] <;> rfl

/-- x[15] = e_entry, and every other register as reset left it. -/
theorem reg_bootState (cfg : Config) (m : Memory) (entry : Word) (r : RegNum) :
    (bootState cfg m entry).reg r = if r = 15#4 then entry else 0#32 := by
  rw [bootState, State.setEntry, reg_setPc]
  exact if_congr Iff.rfl rfl (reg_reset r)

/-- Settles O30: a header fails alone and whatever memory holds, so failure is a statement about the headers; the segments' bytes by
induction on the number of segments loaded; boot by what it does after either result. -/
theorem loadElfFailsExactlyOnShortImages : Obligations.LoadElfFailsExactlyOnShortImages := by
  refine ⟨fun m image => ⟨?_, fun entry h => (loadElf_some_iff.1 h).2.symm⟩, fun image m entry h hfit hdisj a => ?_,
    fun cfg image maxSteps bp m => ⟨fun h => ?_, fun entry h => ?_⟩⟩
  · simp only [loadElf_none_iff, not_elfFits_iff, not_headerFits_iff]
  · have apart : ∀ j k (a : Word), j < k → k < (be16 image 44#32).toNat → inSegment image j a → ¬inSegment image k a := by
      intro j k a hjk hk hj hka
      have := hdisj j k hjk hk
      unfold inSegment at hj hka
      omega
    obtain ⟨-, hmapped, hfile, hblank⟩ := segmentsLoaded_loadElf h hfit apart
    refine ⟨fun k hk hlo hhi => ⟨(hmapped a).2 ⟨k, hk, hlo, hhi⟩, fun hf => hfile k a hk ⟨hlo, hf⟩, fun hf => ?_⟩, fun hnone => ?_⟩
    · refine hblank a fun j hj hja => ?_
      have hja' := inSegment_of_inFilePart (hfit j hj) hja
      rcases Nat.lt_trichotomy j k with hlt | rfl | hlt
      · exact apart j k a hlt hk hja' ⟨hlo, hhi⟩
      · exact absurd hja.2 (by omega)
      · exact apart k j a hlt hj ⟨hlo, hhi⟩ hja'
    · rw [← Option.not_isSome_iff_eq_none, hmapped]
      rintro ⟨k, hk, hka⟩
      exact hnone k hk hka
  · exact ⟨boot_elf_failed cfg h bp, by rw [runProgram, boot_elf_failed cfg h bp]⟩
  · refine ⟨_, boot_elf_ready cfg h bp, ?_, fun r hr => ?_, rfl, rfl, rfl, rfl, rfl, rfl⟩
    · exact (reg_bootState cfg m entry 15#4).trans (if_pos rfl)
    · exact (reg_bootState cfg m entry r).trans (if_neg hr)

end Sys2Proof.Machine
end

section
/-! PROOFS. The state's statements (10_state.md). One symmetry says what the SPSR and the CPSR bits outside the flags are good for:
an instruction that neither reads nor replaces the whole CPSR commutes with putting other values into them. With the state's own
values put in, this says the instruction leaves them alone (R39 to R43, R181); with other values, that they change no behaviour
(R435). -/

namespace Sys2Proof.Machine

/-! ### Other values in the status registers -/

/-- Values to put into the CPSR, where `mask` has a 1, and into the SPSR. -/
structure Overlay where
  mask : Word
  cpsr : Word
  spsr : Word

namespace Overlay
variable {g : Overlay} {s : State}

/-- The CPSR with the masked bits replaced. -/
def word (g : Overlay) (x : Word) : Word := (x &&& ~~~g.mask) ||| (g.cpsr &&& g.mask)

/-- The state with the masked CPSR bits and the SPSR replaced. -/
def on (g : Overlay) (s : State) : State := { s with cpsr := g.word s.cpsr, spsr := g.spsr }

/-- A fault with its state so changed. -/
def onFault (g : Overlay) : Fault → Fault
  | .breakpoint ia left => .breakpoint ia (g.on left)
  | .misaligned a n site left => .misaligned a n site (g.on left)
  | .straddle a n site left => .straddle a n site (g.on left)

/-- An answer with its state so changed. -/
def onResult (g : Overlay) : Result → Result
  | .next s => .next (g.on s)
  | .fault f => .fault (g.onFault f)
  | .refused (.unmodelled site left) => .refused (.unmodelled site (g.on left))
  | .refused (.notModelled mnemonic) => .refused (.notModelled mnemonic)

/-- The result of a threaded access with its state so changed. -/
def onThread (g : Overlay) : Except Fault State → Except Fault State
  | .ok s => .ok (g.on s)
  | .error f => .error (g.onFault f)

/-- The mask leaves the four flags alone. -/
def FlagFree (mask : Word) : Prop := ∀ k, 28 ≤ k → mask.getLsbD k = false

/-- The mask leaves T alone. -/
def TFree (mask : Word) : Prop := mask.getLsbD 5 = false

/-! ### What the overlay leaves and what it commutes with -/

theorem getLsbD_word (g : Overlay) (x : Word) (k : Nat) :
    (g.word x).getLsbD k = if g.mask.getLsbD k then g.cpsr.getLsbD k else x.getLsbD k := by
  by_cases hk : k < 32
  · simp only [word, BitVec.getLsbD_or, BitVec.getLsbD_and, BitVec.getLsbD_not, hk, decide_true, Bool.true_and]
    cases g.mask.getLsbD k <;> simp
  · simp [BitVec.getLsbD_of_ge _ k (Nat.le_of_not_lt hk)]

theorem getLsbD_word_unmasked {k : Nat} (h : g.mask.getLsbD k = false) (x : Word) : (g.word x).getLsbD k = x.getLsbD k := by
  simp [getLsbD_word, h]

theorem putBit_word {k : Nat} (hk : k < 32) (h : g.mask.getLsbD k = false) (x : Word) (b : Bool) :
    putBit (g.word x) k b = g.word (putBit x k b) := by
  refine BitVec.eq_of_getLsbD_eq fun j _ => ?_
  rw [getLsbD_putBit _ _ _ _ hk, getLsbD_word, getLsbD_word, getLsbD_putBit _ _ _ _ hk]
  by_cases hj : j = k
  · subst hj; simp [h]
  · simp [hj]

@[simp] theorem on_reg (r : RegNum) : (g.on s).reg r = s.reg r := rfl
@[simp] theorem on_mem : (g.on s).mem = s.mem := rfl
@[simp] theorem on_config : (g.on s).config = s.config := rfl

theorem operand2Value_on (o : Operand2) : operand2Value o (g.on s) = operand2Value o s := by cases o <;> rfl
theorem operand2Carry_on (o : Operand2) : operand2Carry o (g.on s) = operand2Carry o s := by cases o <;> rfl
theorem offsetValue_on (off : Offset) : offsetValue off (g.on s) = offsetValue off s := by cases off <;> rfl

theorem transferTarget_on (u : Bool) (rn : RegNum) (off : Offset) :
    transferTarget u rn off (g.on s) = transferTarget u rn off s := by
  simp only [transferTarget, on_reg, offsetValue_on]

theorem transferAddr_on (p u : Bool) (rn : RegNum) (off : Offset) :
    transferAddr p u rn off (g.on s) = transferAddr p u rn off s := by
  simp only [transferAddr, on_reg, transferTarget_on]

theorem setReg_on (r : RegNum) (x : Word) : (g.on s).setReg r x = g.on (s.setReg r x) := rfl
theorem storeByte_on (a x : Word) : storeByte a x (g.on s) = g.on (storeByte a x s) := rfl
theorem loadByte_on (a : Word) (rd : RegNum) : loadByte a rd (g.on s) = g.on (loadByte a rd s) := rfl

theorem writeback_on (p w : Bool) (rn : RegNum) (x : Word) : writeback p w rn x (g.on s) = g.on (writeback p w rn x s) := by
  unfold writeback; split <;> rfl

theorem setT_on (ht : TFree g.mask) (b : Bool) : (g.on s).setT b = g.on (s.setT b) := by
  rw [State.setT, on, putBit_word (by decide) ht]; rfl

theorem branchExchange_on (ht : TFree g.mask) (x : Word) : branchExchange x (g.on s) = g.on (branchExchange x s) := by
  rw [branchExchange, setT_on ht]; rfl

theorem bxEffect_on (ht : TFree g.mask) (link : Bool) (rm : RegNum) : bxEffect link rm (g.on s) = g.on (bxEffect link rm s) := by
  cases link
  · exact branchExchange_on ht _
  · exact branchExchange_on (s := s.setReg 14#4 s.pc) ht _

section
variable (hg : FlagFree g.mask)
include hg

theorem on_n : (g.on s).n = s.n := getLsbD_word_unmasked (hg 31 (by decide)) _
theorem on_z : (g.on s).z = s.z := getLsbD_word_unmasked (hg 30 (by decide)) _
theorem on_c : (g.on s).c = s.c := getLsbD_word_unmasked (hg 29 (by decide)) _
theorem on_v : (g.on s).v = s.v := getLsbD_word_unmasked (hg 28 (by decide)) _

theorem condHolds_on (c : Cond) : condHolds c (g.on s) = condHolds c s := by
  cases c <;> simp only [condHolds, on_n hg, on_z hg, on_c hg, on_v hg]

theorem putFlag_word {k : Nat} (h : 28 ≤ k) (hk : k < 32) (x : Word) (b : Bool) :
    putBit (g.word x) k b = g.word (putBit x k b) := putBit_word hk (hg k h) x b

theorem setC_on (b : Bool) : (g.on s).setC b = g.on (s.setC b) := by
  rw [State.setC, on, putFlag_word hg (by decide) (by decide)]; rfl

theorem setNZ_on (r : Word) : (g.on s).setNZ r = g.on (s.setNZ r) := by
  simp (disch := decide) only [State.setNZ, on, putFlag_word hg]

theorem setNZCV_on (f : Nzcv) : (g.on s).setNZCV f = g.on (s.setNZCV f) := by
  simp (disch := decide) only [State.setNZCV, on, putFlag_word hg]

theorem putC_on (c : Option Bool) : (g.on s).putC c = g.on (s.putC c) := by
  cases c
  · rfl
  · exact setC_on hg _

theorem afterOperand2_on (sbit : Bool) (o : Operand2) : afterOperand2 sbit o (g.on s) = g.on (afterOperand2 sbit o s) := by
  cases sbit
  · rfl
  · simp only [afterOperand2, operand2Carry_on, putC_on hg, ite_true]

theorem afterOffset_on (l : Bool) (off : Offset) : afterOffset l off (g.on s) = g.on (afterOffset l off s) := by
  cases off
  · rfl
  · cases l
    · rfl
    · exact putC_on hg _

/-! ### Data processing -/

theorem dpLogic_on (f sbit rn rd o) : dpLogic f sbit rn rd o (g.on s) = g.on (dpLogic f sbit rn rd o s) := by
  cases sbit <;> simp [dpLogic, operand2Value_on, afterOperand2_on hg, setReg_on, setNZ_on hg]

theorem dpArith_on (r f sbit rd o) : dpArith r f sbit rd o (g.on s) = g.on (dpArith r f sbit rd o s) := by
  cases sbit <;> simp [dpArith, afterOperand2_on hg, setReg_on, setNZCV_on hg]

theorem dpTest_on (f rn o) : dpTest f rn o (g.on s) = g.on (dpTest f rn o s) := by
  simp [dpTest, operand2Value_on, afterOperand2_on hg, setNZ_on hg]

theorem dpCompare_on (f o) : dpCompare f o (g.on s) = g.on (dpCompare f o s) := by
  simp [dpCompare, afterOperand2_on hg, setNZCV_on hg]

theorem dpSub_on (sbit rn rd o) : dpSub sbit rn rd o (g.on s) = g.on (dpSub sbit rn rd o s) := by
  simp [dpSub, operand2Value_on, dpArith_on hg]

theorem dpRsb_on (sbit rn rd o) : dpRsb sbit rn rd o (g.on s) = g.on (dpRsb sbit rn rd o s) := by
  simp [dpRsb, operand2Value_on, dpArith_on hg]

theorem dpAdd_on (sbit rn rd o) : dpAdd sbit rn rd o (g.on s) = g.on (dpAdd sbit rn rd o s) := by
  simp [dpAdd, operand2Value_on, dpArith_on hg]

theorem dpAdc_on (sbit rn rd o) : dpAdc sbit rn rd o (g.on s) = g.on (dpAdc sbit rn rd o s) := by
  cases sbit <;> simp [dpAdc, operand2Value_on, afterOperand2_on hg, on_c hg, setReg_on, setNZ_on hg]

theorem dpSbc_on (sbit rn rd o) : dpSbc sbit rn rd o (g.on s) = g.on (dpSbc sbit rn rd o s) := by
  simp [dpSbc, operand2Value_on, afterOperand2_on hg, on_c hg, dpArith_on hg]

theorem dpRsc_on (sbit rn rd o) : dpRsc sbit rn rd o (g.on s) = g.on (dpRsc sbit rn rd o s) := by
  simp [dpRsc, operand2Value_on, afterOperand2_on hg, on_c hg, dpArith_on hg]

theorem dpCmp_on (rn o) : dpCmp rn o (g.on s) = g.on (dpCmp rn o s) := by
  simp [dpCmp, operand2Value_on, dpCompare_on hg]

theorem dpCmn_on (rn o) : dpCmn rn o (g.on s) = g.on (dpCmn rn o s) := by
  simp [dpCmn, operand2Value_on, dpCompare_on hg]

/-- The class-00 word of op and S, MRS and MSR apart (op = 8 and 9 with S = 0). -/
theorem dataProcEffect_on {op : BitVec 4} {sbit : Bool} (h8 : (op == 8#4 && !sbit) = false) (h9 : (op == 9#4 && !sbit) = false)
    (rn rd amount ty rm) :
    dataProcEffect op sbit rn rd amount ty rm (g.on s) = g.on (dataProcEffect op sbit rn rd amount ty rm s) := by
  unfold dataProcEffect
  split
  · exact dpLogic_on hg _ _ _ _ _
  · exact dpLogic_on hg _ _ _ _ _
  · exact dpSub_on hg _ _ _ _
  · exact dpRsb_on hg _ _ _ _
  · exact dpAdd_on hg _ _ _ _
  · exact dpAdc_on hg _ _ _ _
  · exact dpSbc_on hg _ _ _ _
  · exact dpRsc_on hg _ _ _ _
  next hop =>
    have hs : sbit = true := by simpa [BitVec.eq_of_toNat_eq (y := 8#4) hop] using h8
    subst hs
    exact dpTest_on hg _ _ _
  next hop =>
    have hs : sbit = true := by simpa [BitVec.eq_of_toNat_eq (y := 9#4) hop] using h9
    subst hs
    exact dpTest_on hg _ _ _
  · split
    · exact dpCmp_on hg _ _
    · rfl
  · split
    · exact dpCmn_on hg _ _
    · rfl
  · exact dpLogic_on hg _ _ _ _ _
  · exact dpLogic_on hg _ _ _ _ _
  · exact dpLogic_on hg _ _ _ _ _
  · exact dpLogic_on hg _ _ _ _ _

theorem thumbLogic_on (r rd) : thumbLogic r rd (g.on s) = g.on (thumbLogic r rd s) := by
  simp [thumbLogic, setReg_on, setNZ_on hg]
theorem thumbArith_on (r f rd) : thumbArith r f rd (g.on s) = g.on (thumbArith r f rd s) := by
  simp [thumbArith, setReg_on, setNZCV_on hg]
theorem thumbShift_on (r c rd) : thumbShift r c rd (g.on s) = g.on (thumbShift r c rd s) := by
  simp [thumbShift, putC_on hg, setReg_on, setNZ_on hg]

end

/-! ### Stops and threaded accesses -/

theorem stopFault_on (k : AccessFault) (site : Site) : stopFault k site (g.on s) = g.onFault (stopFault k site s) := by
  cases k <;> rfl

theorem loadWord_on (site a rd) : loadWord site a rd (g.on s) = g.onThread (loadWord site a rd s) := by
  simp only [loadWord, on_mem, on_config]
  cases s.mem.read32 s.config.misaligned a with
  | error k => exact congrArg Except.error (stopFault_on k site)
  | ok _ => rfl

theorem loadHalf_on (site a rd) : loadHalf site a rd (g.on s) = g.onThread (loadHalf site a rd s) := by
  simp only [loadHalf, on_mem, on_config]
  cases s.mem.read16 s.config.misaligned a with
  | error k => exact congrArg Except.error (stopFault_on k site)
  | ok _ => rfl

theorem loadPc_on (ht : TFree g.mask) (site a) : loadPc site a (g.on s) = g.onThread (loadPc site a s) := by
  simp only [loadPc, on_mem, on_config]
  cases s.mem.read32 s.config.misaligned a with
  | error k => exact congrArg Except.error (stopFault_on k site)
  | ok _ => exact congrArg Except.ok (branchExchange_on ht _)

theorem storeWord_on (site a x) : storeWord site a x (g.on s) = g.onThread (storeWord site a x s) := by
  simp only [storeWord, on_mem, on_config]
  cases s.mem.write32 s.config.misaligned a x with
  | error k => exact congrArg Except.error (stopFault_on k site)
  | ok _ => rfl

theorem storeHalf_on (site a x) : storeHalf site a x (g.on s) = g.onThread (storeHalf site a x s) := by
  simp only [storeHalf, on_mem, on_config]
  cases s.mem.write16 s.config.misaligned a (x.extractLsb' 0 16) with
  | error k => exact congrArg Except.error (stopFault_on k site)
  | ok _ => rfl

theorem loadMany_on (site L a) : loadMany site L a (g.on s) = g.onThread (loadMany site L a s) := by
  induction L generalizing a s with
  | nil => rfl
  | cons r rest ih =>
    rw [loadMany, loadMany, loadWord_on]
    cases loadWord site a r s with
    | error _ => rfl
    | ok _ => exact ih _

theorem storeMany_on (site L a) : storeMany site L a (g.on s) = g.onThread (storeMany site L a s) := by
  induction L generalizing a s with
  | nil => rfl
  | cons r rest ih =>
    rw [storeMany, storeMany, on_reg, storeWord_on]
    cases storeWord site a (s.reg r) s with
    | error _ => rfl
    | ok _ => exact ih _

theorem finish_on {r r' : Except Fault State} {k k' : State → State} (hr : r' = g.onThread r)
    (hk : ∀ t, k' (g.on t) = g.on (k t)) : finish r' k' = g.onResult (finish r k) := by
  subst hr
  cases r with
  | error _ => rfl
  | ok t => exact congrArg _ (hk t)

theorem refuseExtension_on {k : State → Result} (h : k (g.on s) = g.onResult (k s)) (site : Site) :
    refuseExtension site (g.on s) k = g.onResult (refuseExtension site s k) := by
  simp only [refuseExtension, on_config]
  cases s.config.extension
  · exact h
  · rfl

theorem refuseExtension_next_on {f : State → State} (h : f (g.on s) = g.on (f s)) (site : Site) :
    refuseExtension site (g.on s) (fun s => .next (f s)) = g.onResult (refuseExtension site s fun s => .next (f s)) :=
  refuseExtension_on (k := fun s => .next (f s)) (congrArg Host.Outcome.next h) site

theorem refuseWhen_on {k : State → Result} (h : k (g.on s) = g.onResult (k s)) (ext : Bool) (site : Site) :
    refuseWhen ext site (g.on s) k = g.onResult (refuseWhen ext site s k) := by
  cases ext
  · exact h
  · exact refuseExtension_on h site

theorem loadLiteral_on (site b rd imm12) : loadLiteral site b rd imm12 (g.on s) = g.onResult (loadLiteral site b rd imm12 s) := by
  cases b
  · exact finish_on (loadWord_on _ _ _) fun _ => rfl
  · rfl

theorem execTPop_on {r : Bool} (ht : r = true → TFree g.mask) (rlist : BitVec 8) :
    execTPop r rlist (g.on s) = g.onResult (execTPop r rlist s) := by
  have hsite : siteOf (.tPop r rlist) (g.on s) = siteOf (.tPop r rlist) s := rfl
  simp only [execTPop, hsite, on_reg, loadMany_on]
  cases loadMany (siteOf (.tPop r rlist) s) (lowRegList rlist) (s.reg 13#4) s with
  | error _ => rfl
  | ok t =>
    refine finish_on ?_ fun _ => rfl
    cases r
    · rfl
    · exact loadPc_on (ht rfl) _ _

section
variable (hg : FlagFree g.mask)
include hg

theorem whenPasses_on {c : Cond} {k : State → Result} (h : k (g.on s) = g.onResult (k s)) :
    whenPasses c (g.on s) k = g.onResult (whenPasses c s k) := by
  simp only [whenPasses, condHolds_on hg]
  split
  · exact h
  · rfl

theorem whenPasses_next_on {c : Cond} {f : State → State} (h : f (g.on s) = g.on (f s)) :
    whenPasses c (g.on s) (fun s => .next (f s)) = g.onResult (whenPasses c s fun s => .next (f s)) :=
  whenPasses_on hg (congrArg Host.Outcome.next h)

theorem ldrGeneral_on (site p u w rn rd off) :
    ldrGeneral site p u w rn rd off (g.on s) = g.onResult (ldrGeneral site p u w rn rd off s) := by
  simp only [ldrGeneral, transferAddr_on, transferTarget_on, afterOffset_on hg]
  exact finish_on (loadWord_on _ _ _) fun _ => writeback_on _ _ _ _

theorem strGeneral_on (site p u w rn rd off) :
    strGeneral site p u w rn rd off (g.on s) = g.onResult (strGeneral site p u w rn rd off s) := by
  simp only [strGeneral, transferAddr_on, transferTarget_on, afterOffset_on hg]
  exact finish_on (storeWord_on _ _ _) fun _ => writeback_on _ _ _ _

theorem ldrbGeneral_on (p u w rn rd off) :
    ldrbGeneral p u w rn rd off (g.on s) = g.onResult (ldrbGeneral p u w rn rd off s) := by
  simp only [ldrbGeneral, transferAddr_on, transferTarget_on, afterOffset_on hg, loadByte_on, writeback_on]
  rfl

theorem strbGeneral_on (p u w rn rd off) :
    strbGeneral p u w rn rd off (g.on s) = g.onResult (strbGeneral p u w rn rd off s) := by
  simp only [strbGeneral, transferAddr_on, transferTarget_on, afterOffset_on hg, on_reg, storeByte_on, writeback_on]
  rfl

theorem execArmExtTransfer_on (c p u b w l rn rd amount ty rm) :
    execArmExtTransfer c p u b w l rn rd amount ty rm (g.on s) =
      g.onResult (execArmExtTransfer c p u b w l rn rd amount ty rm s) := by
  refine whenPasses_on hg (refuseExtension_on ?_ _)
  cases l <;> cases b
  · exact strGeneral_on hg _ _ _ _ _ _ _
  · exact strbGeneral_on hg _ _ _ _ _ _
  · exact ldrGeneral_on hg _ _ _ _ _ _ _
  · exact ldrbGeneral_on hg _ _ _ _ _ _

/-! ### Every instruction -/

/-- An instruction that neither reads nor replaces the whole CPSR commutes with putting other values into the SPSR and the masked
CPSR bits, where the mask holds no flag, and not T if the instruction may write it. -/
theorem exec_on {i : Instr} (hread : readsCpsr i = false) (hrep : replacesCpsr i = false) (ht : mayWriteT i = true → TFree g.mask)
    (s : State) : exec i (g.on s) = g.onResult (exec i s) := by
  cases i with
  | armCondNever | tUnknown1011 | tSwi | tUnknown11101 | tUnknown11111 => rfl
  | armSwi | armMrs2 | armMsr2 | armCoproc | armUnknown => exact whenPasses_on hg rfl
  | armBx | armBlxReg => exact whenPasses_next_on hg (bxEffect_on (ht rfl) _ _)
  | armBxExt =>
    dsimp only [exec, execArmBxExt]
    refine whenPasses_on hg ?_
    refine refuseExtension_next_on ?_ _
    exact bxEffect_on (ht rfl) _ _
  | armExtDp =>
    dsimp only [exec, execArmExtDp]
    refine whenPasses_on hg ?_
    refine refuseExtension_next_on ?_ _
    exact dataProcEffect_on hg hread hrep _ _ _ _ _
  | armMrs => cases hread
  | armMsr => cases hrep
  | armAnd | armEor | armOrr | armMov | armBic | armMvn => exact whenPasses_next_on hg (dpLogic_on hg _ _ _ _ _)
  | armSub => exact whenPasses_next_on hg (dpSub_on hg _ _ _ _)
  | armRsb => exact whenPasses_next_on hg (dpRsb_on hg _ _ _ _)
  | armAdd => exact whenPasses_next_on hg (dpAdd_on hg _ _ _ _)
  | armAdc => exact whenPasses_next_on hg (dpAdc_on hg _ _ _ _)
  | armSbc => exact whenPasses_next_on hg (dpSbc_on hg _ _ _ _)
  | armRsc => exact whenPasses_next_on hg (dpRsc_on hg _ _ _ _)
  | armTst | armTeq => exact whenPasses_next_on hg (dpTest_on hg _ _ _)
  | armCmp => exact whenPasses_next_on hg (dpCmp_on hg _ _)
  | armCmn => exact whenPasses_next_on hg (dpCmn_on hg _ _)
  | armLdrLit =>
    dsimp only [exec, execArmLdrLit]
    refine whenPasses_on hg ?_
    refine refuseWhen_on ?_ _ _
    exact loadLiteral_on _ _ _ _
  | armExtTransfer => exact execArmExtTransfer_on hg _ _ _ _ _ _ _ _ _ _ _
  | armStr => exact whenPasses_on hg (strGeneral_on hg _ _ _ _ _ _ _)
  | armLdr => exact whenPasses_on hg (ldrGeneral_on hg _ _ _ _ _ _ _)
  | armStrb => exact whenPasses_on hg (strbGeneral_on hg _ _ _ _ _ _)
  | armLdrb => exact whenPasses_on hg (ldrbGeneral_on hg _ _ _ _ _ _)
  | armStm c p u x w =>
    dsimp only [exec, execArmStm]
    refine whenPasses_on hg ?_
    exact finish_on (storeMany_on _ _ _) fun _ => by cases w <;> rfl
  | armLdm c p u x w =>
    dsimp only [exec, execArmLdm]
    refine whenPasses_on hg ?_
    exact finish_on (loadMany_on _ _ _) fun _ => by cases w <;> rfl
  | armB | armBl =>
    dsimp only [exec, execArmB, execArmBl]
    refine whenPasses_next_on hg ?_
    rfl
  | tAddReg | tSubReg | tAddImm3 | tSubImm3 | tAddImm8 | tSubImm8 | tNeg =>
    exact congrArg Host.Outcome.next (thumbArith_on hg _ _ _)
  | tLslImm | tLsrImm | tAsrImm | tLslReg | tLsrReg | tAsrReg | tRorReg =>
    exact congrArg Host.Outcome.next (thumbShift_on hg _ _ _)
  | tMovImm | tAnd | tEor | tOrr | tMul | tBic | tMvn => exact congrArg Host.Outcome.next (thumbLogic_on hg _ _)
  | tAdc =>
    simp only [exec, execTAdc, on_reg, on_c hg]
    exact congrArg Host.Outcome.next (thumbLogic_on hg _ _)
  | tSbc =>
    simp only [exec, execTSbc, on_reg, on_config, on_c hg]
    exact congrArg Host.Outcome.next (thumbArith_on hg _ _ _)
  | tTst => exact congrArg Host.Outcome.next (setNZ_on hg _)
  | tCmpImm | tCmpReg | tCmn | tCmpHigh => exact congrArg Host.Outcome.next (setNZCV_on hg _)
  | tAddHigh | tMovHigh | tAddPc | tAddSp | tSpAdd | tSpSub => rfl
  | tBx => exact congrArg Host.Outcome.next (branchExchange_on (ht rfl) _)
  | tBxExt =>
    refine refuseExtension_next_on ?_ _
    exact branchExchange_on (ht rfl) _
  | tExtHalf => exact refuseExtension_on rfl _
  | tLdrPc | tLdrReg | tLdrImm | tLdrSp => exact finish_on (loadWord_on _ _ _) fun _ => rfl
  | tStrReg | tStrImm | tStrSp => exact finish_on (storeWord_on _ _ _) fun _ => rfl
  | tStrhImm => exact finish_on (storeHalf_on _ _ _) fun _ => rfl
  | tLdrhImm => exact finish_on (loadHalf_on _ _ _) fun _ => rfl
  | tStrbReg | tStrbImm | tLdrbReg | tLdrbImm => rfl
  | tPush | tStmia => exact finish_on (storeMany_on _ _ _) fun _ => rfl
  | tLdmia => exact finish_on (loadMany_on _ _ _) fun _ => rfl
  | tPop => exact execTPop_on ht _
  | tBcond c imm8 =>
    simp only [exec, execTBcond, condHolds_on hg]
    split <;> rfl
  | tB | tBl => rfl
  | tBlx =>
    refine congrArg Host.Outcome.next ?_
    exact congrArg (State.setPc · _) (setT_on (s := pairLink s) (ht rfl) false)

end

/-! ### A state's own values -/

/-- The SPSR of `s` and the masked bits of its CPSR. -/
def own (mask : Word) (s : State) : Overlay := { mask := mask, cpsr := s.cpsr, spsr := s.spsr }

theorem own_word {mask x : Word} {s : State} (h : ∀ k, mask.getLsbD k = false → s.cpsr.getLsbD k = x.getLsbD k) :
    (own mask s).word x = s.cpsr := by
  refine BitVec.eq_of_getLsbD_eq fun k _ => ?_
  rw [getLsbD_word]
  cases hk : mask.getLsbD k with
  | true => exact if_pos hk
  | false => exact (if_neg (by simp [own, hk])).trans (h k hk).symm

theorem own_on (mask : Word) (s : State) : (own mask s).on s = s := by
  rw [on, own_word fun _ _ => rfl]
  rfl

end Overlay

open Overlay

/-! ### The bits an instruction keeps -/

theorem flagFree_of_lt {mask : Word} (h : mask.toNat < 2 ^ 28) : FlagFree mask := fun k hk =>
  Nat.testBit_lt_two_pow (h.trans_le (Nat.pow_le_pow_right (by decide) hk))

theorem whenPasses_eq_next {c : Cond} {s t : State} {k : State → Result} (h : whenPasses c s k = .next t) :
    k s = .next t ∨ t = s := by
  unfold whenPasses at h
  split at h
  · exact .inl h
  · cases h; exact .inr rfl

theorem refuseExtension_eq_next {site : Site} {s t : State} {k : State → Result} (h : refuseExtension site s k = .next t) :
    k s = .next t := by
  unfold refuseExtension at h
  split at h
  · exact h
  · cases h

/-- MRS, and an extension word that executes as MRS, writes a register alone. -/
theorem cpsr_of_readsCpsr {i : Instr} {s t : State} (hi : readsCpsr i = true) (h : exec i s = .next t) : t.cpsr = s.cpsr := by
  cases i with
  | armMrs =>
    dsimp only [exec, execArmMrs] at h
    rcases whenPasses_eq_next h with h | rfl
    · cases h; rfl
    · rfl
  | armExtDp c op sbit =>
    obtain ⟨rfl, rfl⟩ : op = 8#4 ∧ sbit = false := by simpa [readsCpsr] using hi
    dsimp only [exec, execArmExtDp] at h
    rcases whenPasses_eq_next h with h | rfl
    · cases refuseExtension_eq_next h; rfl
    · rfl
  | _ => cases hi

/-- An instruction that does not replace the CPSR keeps the bits of a mask that holds no flag, and not T if it may write T: the
state's own values there are put back by it. -/
theorem exec_keeps_masked {mask : Word} (hg : FlagFree mask) {i : Instr} (hrep : replacesCpsr i = false)
    (ht : mayWriteT i = true → TFree mask) {s t : State} (h : exec i s = .next t) {k : Nat} (hk : mask.getLsbD k = true) :
    t.cpsr.getLsbD k = s.cpsr.getLsbD k := by
  cases hread : readsCpsr i with
  | true => rw [cpsr_of_readsCpsr hread h]
  | false =>
    have he := exec_on (g := own mask s) hg hread hrep ht s
    rw [own_on, h] at he
    have hcpsr : t.cpsr = (own mask s).word t.cpsr := congrArg State.cpsr (Host.Outcome.next.inj he)
    calc t.cpsr.getLsbD k = ((own mask s).word t.cpsr).getLsbD k := congrArg (BitVec.getLsbD · k) hcpsr
      _ = s.cpsr.getLsbD k := by rw [getLsbD_word]; exact if_pos hk

theorem mayWriteT_of_replacesCpsr {i : Instr} (h : replacesCpsr i = true) : mayWriteT i = true := by
  cases i with
  | armMsr | armExtDp => exact h
  | _ => cases h

/-- Settles O15: T lies in a mask without a flag, which an instruction that may not write T keeps. -/
theorem onlyTheListedInstructionsChangeT : Obligations.OnlyTheListedInstructionsChangeT := by
  intro i s t h hne
  by_contra hmay
  have hrep : replacesCpsr i = false := by simpa using mt mayWriteT_of_replacesCpsr hmay
  exact hne (exec_keeps_masked (mask := 0x0FFFFFFF#32) (flagFree_of_lt (by decide)) hrep (absurd · hmay) h (k := 5) (by decide))

/-- The CPSR's bits 27..6 and 4..0: the reserved bits, I, F and the mode (R39, R42, R43). -/
def modeMask : Word := 0x0FFFFFDF#32

theorem modeMask_flagFree : FlagFree modeMask := flagFree_of_lt (by decide)

theorem modeMask_tFree : TFree modeMask := rfl

theorem getLsbD_modeMask {k : Nat} (hk : k < 32) :
    modeMask.getLsbD k = false ↔ k = 31 ∨ k = 30 ∨ k = 29 ∨ k = 28 ∨ k = 5 := by
  revert k; decide

/-- Settles O16: the bits are those of a mask with neither a flag nor T. -/
theorem onlyMsrChangesTheModeAndReservedBits : Obligations.OnlyMsrChangesTheModeAndReservedBits := by
  intro i s t h hrep k hk
  by_cases hlt : k < 32
  · have hmask : modeMask.getLsbD k = true := by
      rw [← Bool.not_eq_false, getLsbD_modeMask hlt]
      simpa using hk
    exact exec_keeps_masked modeMask_flagFree hrep (fun _ => modeMask_tFree) h hmask
  · rw [BitVec.getLsbD_of_ge _ k (by omega), BitVec.getLsbD_of_ge _ k (by omega)]

/-! ### States that agree but for the mode -/

theorem alike_on {g : Overlay} (hg : FlagFree g.mask) (ht : TFree g.mask) (s : State) : alikeUpToMode s (g.on s) := by
  refine ⟨rfl, rfl, rfl, rfl, rfl, fun k hk => getLsbD_word_unmasked ?_ _⟩
  obtain hflag | rfl : 28 ≤ k ∨ k = 5 := by omega
  · exact hg k hflag
  · exact ht

theorem eq_on_of_alike {s t : State} (h : alikeUpToMode s t) : t = (own modeMask t).on s := by
  obtain ⟨hregs, hmem, hbreak, hstop, hconfig, hbits⟩ := h
  have hword : (own modeMask t).word s.cpsr = t.cpsr := own_word fun k hk => by
    by_cases hlt : k < 32
    · exact hbits k ((getLsbD_modeMask hlt).1 hk)
    · rw [BitVec.getLsbD_of_ge _ k (by omega), BitVec.getLsbD_of_ge _ k (by omega)]
  rw [on, hword, ← hregs, ← hmem, ← hbreak, ← hstop, ← hconfig]
  rfl

theorem exec_ne_notModelled (i : Instr) (s : State) (mnemonic : String) : exec i s ≠ .refused (.notModelled mnemonic) := by
  intro h
  have ha := exec_answers i s
  rw [h] at ha
  cases ha.2.2

section
variable {g : Overlay} (hg : FlagFree g.mask) (ht : TFree g.mask)
include hg ht

theorem outcomesAlike_onResult {r : Result} (hr : ∀ mnemonic, r ≠ .refused (.notModelled mnemonic)) :
    outcomesAlike r (g.onResult r) := by
  cases r with
  | next s => exact alike_on hg ht s
  | fault f =>
    cases f with
    | breakpoint => exact ⟨rfl, alike_on hg ht _⟩
    | misaligned | straddle => exact ⟨rfl, rfl, rfl, alike_on hg ht _⟩
  | refused r =>
    cases r with
    | notModelled mnemonic => exact absurd rfl (hr mnemonic)
    | unmodelled => exact ⟨rfl, alike_on hg ht _⟩

theorem whenPasses_alike {c : Cond} {s : State} {k : State → Result} (h : outcomesAlike (k s) (k (g.on s))) :
    outcomesAlike (whenPasses c s k) (whenPasses c (g.on s) k) := by
  simp only [whenPasses, condHolds_on hg]
  split
  · exact h
  · exact alike_on hg ht s

theorem refuseExtension_alike {site : Site} {s : State} {k : State → Result} (h : outcomesAlike (k s) (k (g.on s))) :
    outcomesAlike (refuseExtension site s k) (refuseExtension site (g.on s) k) := by
  simp only [refuseExtension, on_config]
  split
  · exact h
  · exact ⟨rfl, alike_on hg ht { s with stop := some (.refusal site) }⟩

/-- MSR, and an extension word that executes as MSR, puts the same word into the CPSR whatever stood there. -/
theorem exec_alike_of_replacesCpsr {i : Instr} (hi : replacesCpsr i = true) (s : State) :
    outcomesAlike (exec i s) (exec i (g.on s)) := by
  have hmsr : ∀ v, alikeUpToMode (msrEffect v s) (msrEffect v (g.on s)) := fun v => ⟨rfl, rfl, rfl, rfl, rfl, fun _ _ => rfl⟩
  cases i with
  | armMsr c mask rd src =>
    dsimp only [exec, execArmMsr]
    refine whenPasses_alike hg ht ?_
    cases src <;> exact hmsr _
  | armExtDp c op sbit rn rd amount ty rm =>
    obtain ⟨rfl, rfl⟩ : op = 9#4 ∧ sbit = false := by simpa [replacesCpsr] using hi
    dsimp only [exec, execArmExtDp]
    refine whenPasses_alike hg ht ?_
    refine refuseExtension_alike hg ht ?_
    exact hmsr _
  | _ => cases hi

end

/-- Settles O20: the second state is the first with the second's own SPSR and mode bits put in, which every instruction that neither
reads nor replaces the CPSR commutes with. -/
theorem modeBitsAndSpsrChangeNoBehaviour : Obligations.ModeBitsAndSpsrChangeNoBehaviour := by
  intro i s t hread h
  have hg : FlagFree (own modeMask t).mask := modeMask_flagFree
  have ht : TFree (own modeMask t).mask := modeMask_tFree
  rw [eq_on_of_alike h]
  cases hrep : replacesCpsr i with
  | true => exact exec_alike_of_replacesCpsr hg ht hrep s
  | false =>
    rw [exec_on hg hread hrep fun _ => ht]
    exact outcomesAlike_onResult hg ht (exec_ne_notModelled i s)

/-! ### What no step writes, and the created state -/

/-- Settles O14: what a whole step keeps. -/
theorem noStepWritesSpsrBreakpointsOrMap : Obligations.NoStepWritesSpsrBreakpointsOrMap := by
  intro s t h
  obtain ⟨-, hkept⟩ := step_next h
  exact ⟨hkept.spsr, hkept.breakpoints, hkept.config, hkept.layout⟩

@[simp] theorem reg_unload (s : State) (r : RegNum) : s.unload.reg r = 0#32 := by
  simp [State.reg, State.unload]

/-- Settles O21: the registers by reading the zero vector, the rest as the two states are defined. -/
theorem resetAndUnloadValues : Obligations.ResetAndUnloadValues :=
  ⟨reg_reset, rfl, rfl, rfl, fun _ => rfl, rfl, fun s => ⟨reg_unload s, rfl, rfl, rfl, rfl⟩⟩

end Sys2Proof.Machine
end

section
/-! PROOFS. Memory's statements (20_memory.md). In canonical memory a space that Lookup finds at an address is found at the addresses
after it too, up to the end of the space; so what a store writes can be read back byte by byte, and seen in other widths. -/

namespace Sys2Proof.Machine

/-! ### Lookup, Create and Destroy -/

/-- The registry stands in rising order of base (R70). -/
theorem pairwise_vaddr_le {l : List Space} (h : spacesWf l = true) :
    l.Pairwise fun x y => x.vaddr.toNat ≤ y.vaddr.toNat := by
  induction l with
  | nil => exact .nil
  | cons x rest ih =>
    obtain ⟨-, hord, hrest⟩ := spacesWf_cons.1 h
    refine .cons (fun y hy => ?_) (ih hrest)
    rcases hord y hy with hlt | ⟨heq, -⟩
    · exact hlt.le
    · rw [heq]

/-- A space found by Lookup has the lowest base of those that contain the address (R71). -/
theorem lookup_lowest {m : Memory} (hw : m.wf = true) {a : Word} {sp q : Space} (hl : m.lookup a = some sp) (hq : q ∈ m.spaces)
    (hqa : q.contains a.toNat = true) : sp.vaddr.toNat ≤ q.vaddr.toNat := by
  obtain ⟨-, before, after, hsplit, hmiss⟩ := List.find?_eq_some_iff_append.1 hl
  have hord := pairwise_vaddr_le hw
  rw [hsplit] at hord hq
  obtain ⟨-, hafter, -⟩ := List.pairwise_append.1 hord
  rcases List.mem_append.1 hq with hq | hq
  · exact absurd hqa (by simpa using hmiss q hq)
  · rcases List.mem_cons.1 hq with rfl | hq
    · exact le_rfl
    · exact (List.pairwise_cons.1 hafter).1 q hq

/-- Lookup misses exactly where no space contains the address (R71). -/
theorem lookup_none_iff {m : Memory} {a : Word} :
    m.lookup a = none ↔ ∀ q ∈ m.spaces, ¬(q.vaddr.toNat ≤ a.toNat ∧ a.toNat < q.vaddr.toNat + q.size) := by
  simp only [Memory.lookup, List.find?_eq_none, contains_iff, Space.top]

/-- The space found at an address is found at the later addresses it contains: an earlier space has a base as low, so it would
contain the first address too. -/
theorem lookup_of_le {m : Memory} (hw : m.wf = true) {a b : Word} {sp : Space} (hl : m.lookup a = some sp)
    (hab : a.toNat ≤ b.toNat) (hb : b.toNat < sp.top) : m.lookup b = some sp := by
  obtain ⟨hlo, -⟩ := lookup_some hl
  obtain ⟨-, before, after, hsplit, hmiss⟩ := List.find?_eq_some_iff_append.1 hl
  have hord := pairwise_vaddr_le hw
  rw [hsplit] at hord
  obtain ⟨-, -, hbefore⟩ := List.pairwise_append.1 hord
  refine List.find?_eq_some_iff_append.2 ⟨contains_iff.2 ⟨by omega, hb⟩, before, after, hsplit, fun q hq => ?_⟩
  have hle : q.vaddr.toNat ≤ sp.vaddr.toNat := hbefore q hq sp List.mem_cons_self
  have hqa : ¬(q.vaddr.toNat ≤ a.toNat ∧ a.toNat < q.top) := by simpa [← contains_iff] using hmiss q hq
  have hqb : ¬q.contains b.toNat = true := by rw [contains_iff]; omega
  simpa using hqb

theorem mem_insertSpace_iff {sp q : Space} {l : List Space} : q ∈ insertSpace sp l ↔ q ∈ l ∨ q = sp := by
  induction l with
  | nil => simp [insertSpace]
  | cons x rest ih =>
    rw [insertSpace]
    split
    · simp [or_comm]
    · simp [ih, or_assoc]

theorem create_mapped {m : Memory} {v : Word} (h : (m.lookup v).isSome = true) (n : Nat) : m.create v n = m := by
  obtain ⟨sp, hsp⟩ := Option.isSome_iff_exists.1 h
  simp [Memory.create, hsp]

theorem create_unmapped {m : Memory} {v : Word} (h : m.lookup v = none) (n : Nat) :
    m.create v n = { spaces := insertSpace { vaddr := v, size := n, cells := [] } m.spaces } := by
  simp [Memory.create, h]

/-- Settles O29: Lookup by the rising order of the registry, Create by the place it puts the new space in. -/
theorem lookupCreateDestroy : Obligations.LookupCreateDestroy := by
  intro m hw
  refine ⟨fun a sp hl => ?_, fun a => lookup_none_iff.1, fun v size h => create_mapped h size, fun v size hl hsize => ?_,
    fun v q => ?_, fun a => rfl⟩
  · obtain ⟨hlo, hhi⟩ := lookup_some hl
    exact ⟨List.mem_of_find?_eq_some hl, hlo, hhi, fun q hq h1 h2 => lookup_lowest hw hl hq (contains_iff.2 ⟨h1, h2⟩)⟩
  · refine ⟨lookup_create_inside hl hl ⟨le_rfl, by omega⟩, fun q => ?_⟩
    rw [create_unmapped hl]
    exact mem_insertSpace_iff
  · simp [Memory.destroy]

/-! ### When an access happens -/

theorem fits_of_lookup {m : Memory} {a : Word} {n : Nat} {sp : Space} (hl : m.lookup a = some sp) (hin : a.toNat + n ≤ sp.top) :
    ∀ q, m.lookup a = some q → a.toNat + n ≤ q.top := fun q hq => by
  obtain rfl : sp = q := Option.some.inj (hl.symm.trans hq)
  exact hin

section
variable {p : MisalignedPolicy} {m : Memory} {a : Word} {n : Nat} (hal : p = .fault → a.toNat % n = 0)
include hal

/-- Outside every space an access passes where R89 lets it. -/
theorem access_unmapped (hl : m.lookup a = none) : m.access p a n = .ok none := by
  rw [access_eq_ok hal fun sp hsp => by simp [hl] at hsp, hl]

theorem access_inside {sp : Space} (hl : m.lookup a = some sp) (hin : a.toNat + n ≤ sp.top) :
    m.access p a n = .ok (some sp) := by
  rw [access_eq_ok hal (fits_of_lookup hl hin), hl]

end

/-- Settles O28: misalignment first, then the end of the space. -/
theorem accessChecks : Obligations.AccessChecks := fun _ _ _ _ _ =>
  ⟨access_misaligned, fun hal =>
    ⟨fun _ hl => access_straddle hal hl, fun _ hl => access_inside hal hl, fun hl => access_unmapped hal hl⟩⟩

/-- Settles O24: the access check answers no space, and a store there changes nothing. -/
theorem unmappedAccesses : Obligations.UnmappedAccesses := by
  intro p m a hl
  refine ⟨by simp [Memory.read8, hl], fun v => store_unmapped hl _, fun hal => ?_, fun hal => ?_⟩
  · have hok := access_unmapped hal hl
    exact ⟨by simp [Memory.read16, hok], fun v => by simp [Memory.write16, hok, store_unmapped hl]⟩
  · have hok := access_unmapped hal hl
    exact ⟨by simp [Memory.read32, hok], fun v => by simp [Memory.write32, hok, store_unmapped hl]⟩

/-! ### What a write leaves alone -/

theorem not_inBytes_iff {a b : Word} {n : Nat} : ¬inBytes a n b ↔ b.toNat < a.toNat ∨ a.toNat + n ≤ b.toNat := by
  unfold inBytes
  omega

/-- Settles O27: every write and every Memcpy is a store of at most the bytes it names. -/
theorem writesLeaveOtherBytes : Obligations.WritesLeaveOtherBytes := by
  intro p m a b
  refine ⟨fun v hb => ?_, fun v m' hb h => ?_, fun v m' hb h => ?_, fun bs hb => ?_⟩
  · exact read8_store_outside m (not_inBytes_iff.1 hb)
  · obtain ⟨rfl, -⟩ := write16_ok h
    exact read8_store_outside m (not_inBytes_iff.1 hb)
  · obtain ⟨rfl, -⟩ := write32_ok h
    exact read8_store_outside m (not_inBytes_iff.1 hb)
  · cases hl : m.lookup a with
    | none => rw [copyIn_unmapped hl]
    | some sp =>
      rw [copyIn_mapped hl]
      have := not_inBytes_iff.1 hb
      exact read8_store_outside m (by rw [List.length_take]; omega)

/-! ### What a write leaves to be read -/

theorem write16_inside {p : MisalignedPolicy} {m : Memory} {a : Word} (hal : p = .fault → a.toNat % 2 = 0) {sp : Space}
    (hl : m.lookup a = some sp) (hin : a.toNat + 2 ≤ sp.top) (v : Half) :
    m.write16 p a v = .ok (m.store a (halfBytes v)) := by
  rw [Memory.write16, access_inside hal hl hin]
  rfl

theorem write32_inside {p : MisalignedPolicy} {m : Memory} {a : Word} (hal : p = .fault → a.toNat % 4 = 0) {sp : Space}
    (hl : m.lookup a = some sp) (hin : a.toNat + 4 ≤ sp.top) (v : Word) :
    m.write32 p a v = .ok (m.store a (wordBytes v)) := by
  rw [Memory.write32, access_inside hal hl hin]
  rfl

/-- The bytes of a store that lies inside its space are read back one by one. -/
theorem read8_store_inside {m : Memory} (hw : m.wf = true) {a b : Word} {sp : Space} (hl : m.lookup a = some sp) {bs : List Byte}
    (hin : a.toNat + bs.length ≤ sp.top) {k : Nat} (hk : k < bs.length) (hb : b.toNat = a.toNat + k) :
    (m.store a bs).read8 b = bs[k] := by
  have hlb : m.lookup b = some sp := lookup_of_le hw hl (by omega) (by omega)
  have hstored : (m.store a bs).lookup b = some (sp.setBytes a.toNat bs) := by simp [lookup_store, hlb, hl]
  rw [Memory.read8, hstored, hb]
  exact byte_setBytes_inside (lookup_wf hw hl) (lookup_some hl).1 hin hk

/-- An aligned halfword inside a space is its two bytes, the most significant first (R76). -/
theorem read16_eq_read8 {p : MisalignedPolicy} {m : Memory} (hw : m.wf = true) {a : Word} {sp : Space} (hl : m.lookup a = some sp)
    (hal : a.toNat % 2 = 0) (hin : a.toNat + 2 ≤ sp.top) : m.read16 p a = .ok (m.read8 a ++ m.read8 (a + 1#32)) := by
  have hsucc : (a + 1#32).toNat = a.toNat + 1 := by bv_omega
  have hl1 : m.lookup (a + 1#32) = some sp := lookup_of_le hw hl (by omega) (by omega)
  simp [Memory.read16, Memory.read8, access_inside (fun _ => hal) hl hin, hl, hl1, hsucc]

/-- Settles O25: each byte is read back from where the store put it, and a halfword is its two bytes. -/
theorem wordsAreBigEndian : Obligations.WordsAreBigEndian := by
  rintro p m a v hw hal ⟨sp, hl, hin⟩
  have hlen : (wordBytes v).length = 4 := rfl
  have hbyte : ∀ k (hk : k < 4), (m.store a (wordBytes v)).read8 (a + BitVec.ofNat 32 k) = (wordBytes v)[k] := fun k hk =>
    read8_store_inside hw hl (by omega) (by omega) (by simp; omega)
  have hw' : (m.store a (wordBytes v)).wf = true := store_wf hw (fits_of_lookup hl hin)
  have hl' := lookup_store_same hl (wordBytes v)
  have h2 : (a + 2#32).toNat = a.toNat + 2 := by bv_omega
  have hl2 : (m.store a (wordBytes v)).lookup (a + 2#32) = some (sp.setBytes a.toNat (wordBytes v)) :=
    lookup_of_le hw' hl' (by omega) (by rw [setBytes_top]; omega)
  have b0 : (m.store a (wordBytes v)).read8 a = v.extractLsb' 24 8 := by simpa [wordBytes] using hbyte 0 (by omega)
  have b1 : (m.store a (wordBytes v)).read8 (a + 1#32) = v.extractLsb' 16 8 := hbyte 1 (by omega)
  have b2 : (m.store a (wordBytes v)).read8 (a + 2#32) = v.extractLsb' 8 8 := hbyte 2 (by omega)
  have b3 : (m.store a (wordBytes v)).read8 (a + 3#32) = v.extractLsb' 0 8 := hbyte 3 (by omega)
  have h23 : a + 2#32 + 1#32 = a + 3#32 := by bv_omega
  refine ⟨_, write32_inside (fun _ => hal) hl hin v, b0, b1, b2, b3, ?_, ?_⟩
  · rw [read16_eq_read8 hw' hl' (by omega) (by rw [setBytes_top]; omega), b0, b1]
    exact congrArg _ (BitVec.extractLsb'_append_extractLsb'_eq_extractLsb' (by decide))
  · rw [read16_eq_read8 hw' hl2 (by omega) (by rw [setBytes_top]; omega), h23, b2, b3]
    exact congrArg _ (BitVec.extractLsb'_append_extractLsb'_eq_extractLsb' (by decide))

/-- A machine with this memory under this policy: what the laws of a state's accesses say, they say of memory alone. -/
def withMemory (p : MisalignedPolicy) (m : Memory) : State :=
  { State.reset with mem := m, config := { Config.default with misaligned := p } }

theorem accessOk_withMemory {p : MisalignedPolicy} {m : Memory} {a : Word} {n : Nat} {sp : Space} (hal : a.toNat % n = 0)
    (hl : m.lookup a = some sp) (hin : a.toNat + n ≤ sp.top) : (withMemory p m).accessOk a n :=
  ⟨fun _ => hal, fits_of_lookup hl hin⟩

theorem space_ext {x y : Space} (hv : x.vaddr = y.vaddr) (hz : x.size = y.size) (hc : x.cells = y.cells) : x = y := by
  cases x; cases y; cases hv; cases hz; cases hc; rfl

/-- A space in canonical form whose bytes all have the creation value lists none. -/
theorem cells_eq_nil {sp : Space} (hw : sp.wf = true) (hblank : ∀ a, sp.contains a = true → sp.byte a = blankByte) :
    sp.cells = [] := by
  obtain ⟨vaddr, size, cells⟩ := sp
  cases cells with
  | nil => rfl
  | cons c rest =>
    obtain ⟨a, v⟩ := c
    have hw' : cellsWf ((a, v) :: rest) vaddr.toNat (vaddr.toNat + size) = true := hw
    obtain ⟨⟨⟨hlo, hhi⟩, hv⟩, -⟩ : ((vaddr.toNat ≤ a ∧ a < vaddr.toNat + size) ∧ v ≠ blankByte) ∧ _ := by
      simpa [cellsWf] using hw'
    exact absurd (by simpa [Space.byte, cellGet] using hblank a (contains_iff.2 ⟨hlo, hhi⟩)) hv

/-- Writing the creation value to every byte of a space makes it as Create does (R106). -/
theorem setBytes_blank {sp : Space} (hw : sp.wf = true) :
    sp.setBytes sp.vaddr.toNat (List.replicate sp.size blankByte) = { vaddr := sp.vaddr, size := sp.size, cells := [] } := by
  have hfit : sp.vaddr.toNat + (List.replicate sp.size blankByte).length ≤ sp.top := by simp [Space.top]
  refine space_ext (setBytes_vaddr ..) (setBytes_size ..) (cells_eq_nil (setBytes_wf hw le_rfl hfit) fun a ha => ?_)
  obtain ⟨hlo, hhi⟩ := contains_iff.1 ((setBytes_contains sp _ a _).symm.trans ha)
  obtain ⟨k, rfl⟩ := Nat.exists_eq_add_of_le hlo
  rw [byte_setBytes_inside hw le_rfl hfit (by simpa [Space.top] using hhi), List.getElem_replicate]

/-! ### Memcpy (R95) -/

theorem copyOut_unmapped {m : Memory} {a : Word} (h : m.lookup a = none) (buffer : List Byte) : m.copyOut a buffer = buffer := by
  simp [Memory.copyOut, h]

theorem copyOut_mapped {m : Memory} {a : Word} {sp : Space} (h : m.lookup a = some sp) (buffer : List Byte) :
    m.copyOut a buffer = sp.copyOut a.toNat buffer := by simp [Memory.copyOut, h]

/-- A copy in and out again gives the bytes that lie in the space, and behind them what the buffer held. -/
theorem copyOut_copyIn {m : Memory} (hw : m.wf = true) {a : Word} {sp : Space} (hl : m.lookup a = some sp)
    {bs buffer : List Byte} (hlen : buffer.length = bs.length) :
    (m.copyIn a bs).copyOut a buffer = bs.take (sp.top - a.toNat) ++ buffer.drop (sp.top - a.toNat) := by
  obtain ⟨hlo, hhi⟩ := lookup_some hl
  rw [copyIn_mapped hl, copyOut_mapped (lookup_store_same hl _)]
  apply List.ext_getElem?
  intro k
  by_cases hk : k < buffer.length
  · rw [Space.copyOut_get _ _ _ hk, setBytes_top]
    by_cases hin : a.toNat + k < sp.top
    · have hkt : k < (bs.take (sp.top - a.toNat)).length := by rw [List.length_take]; omega
      rw [if_pos hin, byte_setBytes_inside (lookup_wf hw hl) hlo (by rw [List.length_take]; omega) hkt,
        List.getElem?_append_left hkt, List.getElem?_eq_getElem hkt]
    · have hlt : (bs.take (sp.top - a.toNat)).length = sp.top - a.toNat := by rw [List.length_take]; omega
      rw [if_neg hin, List.getElem?_append_right (by omega), hlt, List.getElem?_drop,
        Nat.add_sub_cancel' (by omega), List.getElem?_eq_getElem hk]
  · rw [List.getElem?_eq_none (by rw [Space.copyOut_length]; omega), List.getElem?_eq_none (by simp; omega)]

/-- Settles O26: the accesses by the laws of a state's, the blank space byte by byte, Memcpy as a store and a reading of one space. -/
theorem writeThenReadGivesTheValue : Obligations.WriteThenReadGivesTheValue := by
  refine ⟨fun p m a sp hw hl => ?_, fun m a bs hl => ⟨copyIn_unmapped hl bs, copyOut_unmapped hl bs⟩, fun sp => setBytes_blank⟩
  have hm : (withMemory p m).mapped a := Option.isSome_iff_exists.2 ⟨sp, hl⟩
  refine ⟨fun v => byte_store_same (s := withMemory p m) hw hm v, fun hin hal v => ?_, fun hin hal v => ?_, fun buffer => ?_,
    fun bs buffer => copyOut_copyIn hw hl⟩
  · exact ⟨_, write16_inside (fun _ => hal) hl hin v, half_store_same hw (accessOk_withMemory hal hl hin) hm v⟩
  · exact ⟨_, write32_inside (fun _ => hal) hl hin v, word_store_same hw (accessOk_withMemory hal hl hin) hm v⟩
  · rw [copyOut_mapped hl]
    exact ⟨Space.copyOut_length .., fun k hk hin => by rw [Space.copyOut_get _ _ _ hk, if_pos hin]⟩

end Sys2Proof.Machine
end

section
/-! PROOFS. Stops of a step: what a faulting step records, and where a fetch fails. -/

namespace Sys2Proof.Machine

/-- Settles O12: what no step writes, and memory's canonical form kept by every write. -/
theorem stepKeepsTheInvariant : Obligations.StepKeepsTheInvariant := by
  rintro s t ⟨hmem, hbreak⟩ h
  obtain ⟨-, hkept⟩ := step_next h
  exact ⟨hkept.wf hmem, hkept.breakpoints ▸ hbreak⟩

/-! ### The fault of a step (R433, R439) -/

theorem kept_clearPcTag (s : State) : Kept s (clearPcTag s) := kept_setPc s _

@[simp] theorem clearPcTag_pc (s : State) : (clearPcTag s).pc = s.pc &&& 0xFFFFFFFE#32 := pc_setPc s _

/-- The record of the instruction a fetch read names the address it was fetched from. -/
theorem siteOf_ia_of_fetch {s t : State} {i : Instr} (h : fetch s = .ok (i, t)) : (siteOf i t).ia = s.pc := by
  have hf := fetch_answers s
  rw [h] at hf
  obtain ⟨hset, rfl⟩ := hf
  simp [siteOf, hset]

theorem kept_fetch {s t : State} {i : Instr} (h : fetch s = .ok (i, t)) : Kept s t := by
  have hf := fetch_answers s
  rw [h] at hf
  obtain ⟨-, rfl⟩ := hf
  exact kept_setPc s _

/-- A fault of a step is the breakpoint's, or the record of an access that cannot happen, at the instruction's address. -/
theorem step_fault {s : State} {f : Fault} (hs : s.stop = none) (h : step s = .fault f) :
    (∃ ia left, f = .breakpoint ia left) ∨
      ∃ k site u, f = stopFault k site u ∧ site.ia = s.pc &&& 0xFFFFFFFE#32 ∧ Kept s u ∧ AccessFails k u := by
  rcases step_cases hs with hb | ⟨g, hf, hg⟩ | ⟨i, t, hf, hi⟩
  · rw [hb] at h
    cases h
    exact .inl ⟨_, _, rfl⟩
  · rw [hg] at h
    cases h
    have hf' := fetch_answers (clearPcTag s)
    rw [hf] at hf'
    obtain ⟨k, bits, u, rfl, hk, ha⟩ := hf'
    exact .inr ⟨k, _, u, rfl, clearPcTag_pc s, (kept_clearPcTag s).trans hk, ha⟩
  · have he := exec_answers i t
    rw [← hi, h] at he
    obtain ⟨-, k, u, rfl, hk, ha⟩ := he
    exact .inr ⟨k, _, u, rfl, (siteOf_ia_of_fetch hf).trans (clearPcTag_pc s),
      ((kept_clearPcTag s).trans (kept_fetch hf)).trans hk, ha⟩

/-- Settles O19: the recorded fault is that of the access check that failed, in the state the stop leaves. -/
theorem stepFaultIsAFailedAccess : Obligations.StepFaultIsAFailedAccess := by
  intro s left a n site hs
  refine ⟨fun h => ?_, fun h => ?_⟩
  · rcases step_fault hs h with ⟨_, _, hb⟩ | ⟨k, site', u, hf, hia, hk, b, w, hw, he⟩
    · cases hb
    · rcases access_error he with ⟨rfl, hp, hal⟩ | ⟨rfl, -⟩
      · cases hf
        exact ⟨hk.config ▸ hp, hw, hal, hia, rfl, hk.spsr⟩
      · cases hf
  · rcases step_fault hs h with ⟨_, _, hb⟩ | ⟨k, site', u, hf, hia, hk, b, w, hw, he⟩
    · cases hb
    · rcases access_error he with ⟨rfl, -⟩ | ⟨rfl, hp, hsp⟩
      · cases hf
      · cases hf
        exact ⟨hk.config ▸ hp, hw, hia, hsp, rfl, hk.spsr⟩

/-! ### Bytes and fetches -/

/-- Settles O3: a word's bytes put together are the word; too few bytes by how many there are. -/
theorem bytesDecodeAsTheirWords : Obligations.BytesDecodeAsTheirWords := by
  refine ⟨fun w rest => ?_, fun h rest hp => ?_, fun h h2 rest hp => ?_, fun bs hbs => ?_, fun bs hbs => ?_,
    fun h hp rest hrest => ?_⟩
  · simp [decodeBytes, Code.bytes, append_bytes]
  · simp [decodeBytes, Code.bytes, append_halves, hp]
  · simp [decodeBytes, Code.bytes, append_halves, hp]
  · match bs, hbs with
    | [], _ | [_], _ | [_, _], _ | [_, _, _], _ => rfl
  · match bs, hbs with
    | [], _ | [_], _ => rfl
  · match rest, hrest with
    | [], _ | [_], _ => simp [decodeBytes, Code.bytes, append_halves, hp]

/-- A word whose access check fails is not read. -/
theorem word_error {s : State} {a : Word} {k : AccessFault} (h : s.mem.access s.config.misaligned a 4 = .error k) :
    s.word a = .error k := by
  rw [State.word, Memory.read32, h]

section
variable {s : State} {ia : Word} {k : AccessFault} (hpc : s.pc = ia)
include hpc

theorem fetch_arm_error (ht : s.t = false) (h : s.word ia = .error k) :
    fetch s = .error (stopFault k { ia := ia, bits := none } s) := by
  unfold State.word at h
  simp [fetch, ht, fetchArm, hpc, h]

theorem fetch_thumb_error (ht : s.t = true) (h : s.half ia = .error k) :
    fetch s = .error (stopFault k { ia := ia, bits := none } s) := by
  unfold State.half at h
  simp [fetch, ht, fetchThumb, hpc, h]

theorem fetch_pair_error (ht : s.t = true) {first : Half} (h : s.half ia = .ok first) (hp : isPairFirst first = true)
    (h2 : s.half (ia + 2#32) = .error k) :
    fetch s = .error (stopFault k { ia := ia, bits := some (.half first) } (s.setPc (ia + 2#32))) := by
  unfold State.half at h h2
  simp [fetch, ht, fetchThumb, hpc, h, hp, h2]

end

theorem step_of_fetch_error {s : State} (hs : s.stop = none) (hb : (s.pc &&& 0xFFFFFFFE#32) ∉ s.breakpoints) {f : Fault}
    (h : fetch (clearPcTag s) = .error f) : step s = .fault f := by
  have hnot : (clearPcTag s).hasBreakpoint (s.pc &&& 0xFFFFFFFE#32) = false := by
    simpa [State.hasBreakpoint, (kept_clearPcTag s).breakpoints] using hb
  simp [step, hs, hnot, h]

/-- Bit 0 cleared makes an address even (R170). -/
theorem even_of_cleared_bit (x : Word) : (x &&& 0xFFFFFFFE#32).toNat % 2 = 0 := by
  have hbit : (x &&& 0xFFFFFFFE#32).getLsbD 0 = false := by simp
  rw [BitVec.getLsbD, Nat.testBit_zero, decide_eq_false_iff_not] at hbit
  omega

theorem setPc_setPc (s : State) (v w : Word) : (s.setPc v).setPc w = s.setPc w := by
  simp [State.setPc, State.setReg]

/-- Settles O8: clearing bit 0 of x[15] changes no byte, so the reads that fail are the fetch's; a Thumb fetch reads at an even
address. -/
theorem failedFetchStopsTheStep : Obligations.FailedFetchStopsTheStep := by
  intro s hs hb ia
  have hpc : (clearPcTag s).pc = ia := clearPcTag_pc s
  refine ⟨fun k ht hk => step_of_fetch_error hs hb (fetch_arm_error hpc ht hk),
    fun k ht hk => step_of_fetch_error hs hb (fetch_thumb_error hpc ht hk), fun k h ht hh hp hk => ?_, fun hp hal => ?_,
    fun a n h => ?_⟩
  · rw [← setPc_setPc s ia]
    exact step_of_fetch_error hs hb (fetch_pair_error hpc ht hh hp hk)
  · exact word_error (access_misaligned hp (by omega))
  · rcases access_error (access_of_read16_error h) with ⟨-, -, hal⟩ | ⟨hk, -⟩
    · exact hal (even_of_cleared_bit s.pc)
    · cases hk

end Sys2Proof.Machine
end

section
/-! PROOFS. Where the transfers stop (R89, R90, R433): an access check that fails becomes the fault of the threaded access, and that
the instruction's, with the state as the accesses before it left it. -/

namespace Sys2Proof.Machine

/-! ### A failed access as an instruction's fault -/

theorem siteIn_eq_siteOf (i : Instr) (s : State) : siteIn i s = siteOf i s := by
  unfold siteIn siteOf
  congr 1
  · split <;> rfl
  · cases encode i <;> rfl

/-- An instruction that answers the fault of every failed check of one access stops on that access. `u` is the state that the
instruction's earlier effects left. -/
theorem stopsWith_of_access_error {i : Instr} {a : Word} {n : Nat} {s : State} {P : State → Prop}
    (h : ∀ k, s.mem.access s.config.misaligned a n = .error k →
      ∃ u, exec i s = .fault (stopFault k (siteOf i s) u) ∧ Kept s u ∧ ∀ r, P { u with stop := r }) :
    StopsWith i a n s P := by
  rw [StopsWith, siteIn_eq_siteOf]
  refine ⟨fun hp hal => ?_, fun sp hal hl ht => ?_⟩
  · obtain ⟨u, hu, hk, hP⟩ := h _ (access_misaligned hp hal)
    exact ⟨_, hu, rfl, hk.spsr, hk.breakpoints, hk.config, hP _⟩
  · obtain ⟨u, hu, hk, hP⟩ := h _ (access_straddle hal hl ht)
    exact ⟨_, hu, rfl, hk.spsr, hk.breakpoints, hk.config, hP _⟩

section
variable {s : State} {a : Word} {k : AccessFault}

theorem loadWord_error (h : s.mem.access s.config.misaligned a 4 = .error k) (site : Site) (rd : RegNum) :
    loadWord site a rd s = .error (stopFault k site s) := by
  rw [loadWord, Memory.read32, h]

theorem loadHalf_error (h : s.mem.access s.config.misaligned a 2 = .error k) (site : Site) (rd : RegNum) :
    loadHalf site a rd s = .error (stopFault k site s) := by
  rw [loadHalf, Memory.read16, h]

theorem loadPc_error (h : s.mem.access s.config.misaligned a 4 = .error k) (site : Site) :
    loadPc site a s = .error (stopFault k site s) := by
  rw [loadPc, Memory.read32, h]

theorem storeWord_error (h : s.mem.access s.config.misaligned a 4 = .error k) (site : Site) (v : Word) :
    storeWord site a v s = .error (stopFault k site s) := by
  rw [storeWord, Memory.write32, h]

theorem storeHalf_error (h : s.mem.access s.config.misaligned a 2 = .error k) (site : Site) (v : Word) :
    storeHalf site a v s = .error (stopFault k site s) := by
  rw [storeHalf, Memory.write16, h]

end

/-! ### Single transfers -/

/-- A transfer whose access is its first effect stops with nothing changed. -/
theorem stopsOnAccess_of_first {i : Instr} {a : Word} {n : Nat} {s : State} {r : Except Fault State} {rest : State → State}
    (hi : exec i s = finish r rest)
    (hr : ∀ k, s.mem.access s.config.misaligned a n = .error k → r = .error (stopFault k (siteOf i s) s)) :
    StopsOnAccess i a n s.c s := by
  refine stopsWith_of_access_error fun k hk => ⟨s, ?_, .refl s, fun _ => ⟨fun _ _ => rfl, rfl, fun _ _ => rfl, fun _ => rfl⟩⟩
  rw [hi, hr k hk]
  rfl

theorem stopsOnAccess_loadWord {i : Instr} {a : Word} {rd : RegNum} {s : State} {rest : State → State}
    (hi : exec i s = finish (loadWord (siteOf i s) a rd s) rest) : StopsOnAccess i a 4 s.c s :=
  stopsOnAccess_of_first hi fun _ hk => loadWord_error hk _ _

theorem stopsOnAccess_storeWord {i : Instr} {a v : Word} {s : State} {rest : State → State}
    (hi : exec i s = finish (storeWord (siteOf i s) a v s) rest) : StopsOnAccess i a 4 s.c s :=
  stopsOnAccess_of_first hi fun _ hk => storeWord_error hk _ _

theorem getLsbD_afterOffset (off : Offset) (s : State) (j : Nat) :
    (afterOffset true off s).cpsr.getLsbD j = if j = 29 then offsetC off s else s.cpsr.getLsbD j := by
  cases off with
  | imm imm12 => by_cases hj : j = 29 <;> simp [afterOffset, offsetC, State.c, hj]
  | reg amount ty rm => simp [afterOffset, offsetC, State.c, getLsbD_putC]

/-- A load in the general form stops with the shifter's C written and nothing else changed (R271). -/
theorem stopsOnAccess_ldrGeneral {i : Instr} {s : State} {p u w : Bool} {rn rd : RegNum} {off : Offset}
    (h : exec i s = ldrGeneral (siteOf i s) p u w rn rd off s) :
    StopsOnAccess i (transferAddr p u rn off s) 4 (offsetC off s) s := by
  refine stopsWith_of_access_error fun k hk => ⟨afterOffset true off s, ?_, kept_afterOffset true off s, fun _ =>
    ⟨fun r _ => afterOffset_reg true off s r, ?_, fun j hj => ?_, fun b => ?_⟩⟩
  · rw [h, ldrGeneral, loadWord_error (by simpa using hk)]
    rfl
  · exact (getLsbD_afterOffset off s 29).trans (if_pos rfl)
  · exact (getLsbD_afterOffset off s j).trans (if_neg (by simpa using hj))
  · exact congrArg (fun m => m.read8 b) (afterOffset_mem true off s)

theorem stopsOnAccess_strGeneral {i : Instr} {s : State} {p u w : Bool} {rn rd : RegNum} {off : Offset}
    (h : exec i s = strGeneral (siteOf i s) p u w rn rd off s) :
    StopsOnAccess i (transferAddr p u rn off s) 4 s.c s := by
  rw [strGeneral, afterOffset_store] at h
  exact stopsOnAccess_storeWord h

/-- What an extension word executes as under `document`, where its condition holds (R139, R279). -/
theorem exec_armExtTransfer_word {c : Cond} {s : State} (hc : condHolds c s = true) (hext : s.config.extension = .document)
    (p u w l : Bool) (rn rd : RegNum) (amount : BitVec 5) (ty : ShiftType) (rm : RegNum) :
    exec (.armExtTransfer c p u false w l rn rd amount ty rm) s =
      if l then ldrGeneral (siteOf (.armExtTransfer c p u false w l rn rd amount ty rm) s) p u w rn rd (.reg amount ty rm) s
      else strGeneral (siteOf (.armExtTransfer c p u false w l rn rd amount ty rm) s) p u w rn rd (.reg amount ty rm) s := by
  dsimp only [exec, execArmExtTransfer]
  rw [whenPasses_pass hc, refuseExtension_document hext]
  cases l <;> rfl

theorem exec_armLdrLit_word {c : Cond} {s : State} (hc : condHolds c s = true) {i : Bool} {imm12 : BitVec 12}
    (hext : i = true → imm12.getLsbD 4 = true → s.config.extension = .document) (p u w : Bool) (rd : RegNum) :
    exec (.armLdrLit c i p u false w rd imm12) s =
      finish (loadWord (siteOf (.armLdrLit c i p u false w rd imm12) s) (literalAddr imm12 s) rd s) fun t => t := by
  dsimp only [exec, execArmLdrLit]
  rw [whenPasses_pass hc, refuseWhen_runs (by simpa using hext), loadLiteral, if_neg (by decide)]

/-- Settles O59: a load in the general form has formed its offset, every other transfer makes its access first. -/
theorem singleTransfersStopOnFailedAccess : Obligations.SingleTransfersStopOnFailedAccess := by
  refine ⟨fun c p u w rn rd off s hc => ⟨?_, ?_, fun i imm12 hext => ?_, fun hext l amount ty rm => ?_⟩,
    fun ro rb rd imm5 imm8 s => ?_⟩
  · exact stopsOnAccess_ldrGeneral (whenPasses_pass hc _)
  · exact stopsOnAccess_strGeneral (whenPasses_pass hc _)
  · exact stopsOnAccess_loadWord (exec_armLdrLit_word hc hext p u w rd)
  · have hexec := exec_armExtTransfer_word hc hext p u w l rn rd amount ty rm
    cases l with
    | true => exact stopsOnAccess_ldrGeneral hexec
    | false => exact stopsOnAccess_strGeneral hexec
  · refine ⟨stopsOnAccess_loadWord rfl, stopsOnAccess_storeWord rfl, stopsOnAccess_loadWord rfl, stopsOnAccess_storeWord rfl,
      stopsOnAccess_loadWord rfl, ?_, ?_, stopsOnAccess_storeWord rfl, stopsOnAccess_loadWord rfl⟩
    · exact stopsOnAccess_of_first rfl fun _ hk => storeHalf_error hk _ _
    · exact stopsOnAccess_of_first rfl fun _ hk => loadHalf_error hk _ _

end Sys2Proof.Machine
end

section
/-! PROOFS. Multiple transfers that stop (R284, R384, R433): the listed registers below a number are those at the places before its
own in the list, so the laws of a run of accesses by place become statements by register. -/

namespace Sys2Proof.Machine

/-! ### The places of a register list -/

/-- The list of registers is as long as the list has bits. -/
theorem length_regList (l : BitVec 16) : (regList l).length = bitCount l := by
  simp [regList_eq, bitCount, placeOf]

theorem placeOf_mono (l : BitVec 16) {j k : Nat} (h : j ≤ k) : placeOf l j ≤ placeOf l k :=
  ((List.range_sublist.2 h).filter _).length_le

theorem placeOf_succ_of_listed {l : BitVec 16} {q : RegNum} (hq : listed l q) :
    placeOf l (q.toNat + 1) = placeOf l q.toNat + 1 := by
  simp [placeOf, List.range_succ, List.filter_append, show l.getLsbD q.toNat = true from hq]

/-- A listed register stands before the place that the registers below `n` fill exactly where it is one of them. -/
theorem placeOf_lt_iff {l : BitVec 16} {q : RegNum} (hq : listed l q) {n : Nat} :
    placeOf l q.toNat < placeOf l n ↔ q.toNat < n := by
  refine ⟨fun h => ?_, fun h => ?_⟩
  · by_contra hge
    have := placeOf_mono l (Nat.le_of_not_lt hge)
    omega
  · have := placeOf_mono l (Nat.succ_le_of_lt h)
    rw [Nat.succ_eq_add_one, placeOf_succ_of_listed hq] at this
    omega

theorem length_regList_le (l : BitVec 16) : (regList l).length ≤ 16 := List.length_filter_le _ allRegs

theorem placeOf_le_length (l : BitVec 16) {n : Nat} (h : n ≤ 16) : placeOf l n ≤ (regList l).length := by
  rw [length_regList]
  exact placeOf_mono l h

theorem placeOf_lt_length {l : BitVec 16} {q : RegNum} (hq : listed l q) : placeOf l q.toNat < (regList l).length := by
  rw [length_regList]
  exact (placeOf_lt_iff hq).2 q.isLt

theorem regList_getElem_placeOf {l : BitVec 16} {q : RegNum} (hq : listed l q) :
    (regList l)[placeOf l q.toNat]'(placeOf_lt_length hq) = q :=
  (List.getElem?_eq_some_iff.1 (regList_place hq)).2

/-- A register of the list is listed, and stands at its place. -/
theorem listed_regList {l : BitVec 16} {k : Nat} (hk : k < (regList l).length) :
    listed l (regList l)[k] ∧ placeOf l (regList l)[k].toNat = k := by
  have hq : listed l (regList l)[k] := mem_regList.1 (List.getElem_mem hk)
  exact ⟨hq, (regList_nodup l).getElem_inj_iff.1 (regList_getElem_placeOf hq)⟩

/-- The places before that of number `n` are those of the listed registers below `n`. -/
theorem exists_listed_below {l : BitVec 16} {n k : Nat} (hk : k < (regList l).length) (hkn : k < placeOf l n) :
    ∃ q, listed l q ∧ q.toNat < n ∧ (regList l)[k] = q ∧ placeOf l q.toNat = k := by
  obtain ⟨hq, hp⟩ := listed_regList hk
  exact ⟨_, hq, (placeOf_lt_iff hq).1 (by rw [hp]; exact hkn), rfl, hp⟩

/-- LR's bit added to a list of low registers puts LR behind them. -/
theorem regList_or_lr (rlist : BitVec 8) : regList (rlist.setWidth 16 ||| 0x4000#16) = lowRegList rlist ++ [14#4] := by
  have hsplit : allRegs = [0, 1, 2, 3, 4, 5, 6, 7] ++ [8, 9, 10, 11, 12, 13, 14, 15] := rfl
  rw [lowRegList, regList, regList, hsplit, List.filter_append, List.filter_append, List.append_assoc]
  congr 1
  · simp [List.filter_cons]
  · simp

/-- The list of PUSH's registers (R385). -/
theorem pushList_eq (r : Bool) (rlist : BitVec 8) : pushList r rlist = regList (pushMask r rlist) := by
  cases r with
  | false => simp [pushList, pushMask, lowRegList]
  | true => exact (regList_or_lr rlist).symm

/-! ### Multiple transfers to the access that fails -/

/-- The accesses of the listed registers below number `n` can happen. -/
def slotsOkBelow (list : BitVec 16) (start : Word) (n : Nat) (s : State) : Prop :=
  ∀ q, listed list q → q.toNat < n → s.accessOk (slot list start q) 4

section
variable {list : BitVec 16} {start : Word} {n : Nat} {s : State}

theorem accessOk_place (h : slotsOkBelow list start n s) (hn : n ≤ 16) {k : Nat} (hk : k < placeOf list n) :
    s.accessOk (start + BitVec.ofNat 32 (4 * k)) 4 := by
  obtain ⟨q, hq, hqn, -, rfl⟩ := exists_listed_below (lt_of_lt_of_le hk (placeOf_le_length list hn)) hk
  exact h q hq hqn

/-- The registers at the places before that of number `n` loaded are the listed registers below `n` loaded. -/
theorem loadedBelow_of_places {t : State}
    (hword : ∀ k (hk : k < (regList list).length), k < placeOf list n →
      s.word (start + BitVec.ofNat 32 (4 * k)) = .ok (t.reg (regList list)[k]))
    (hreg : ∀ r, (∀ k (hk : k < (regList list).length), k < placeOf list n → (regList list)[k] ≠ r) → t.reg r = s.reg r)
    (hcpsr : t.cpsr = s.cpsr) (hmem : t.mem = s.mem) : LoadedBelow list start n s t := by
  refine ⟨fun q hq hqn => ?_, fun q hq => hreg q ?_, hcpsr, fun b => congrArg (·.read8 b) hmem⟩
  · have := hword _ (placeOf_lt_length hq) ((placeOf_lt_iff hq).2 hqn)
    rwa [regList_getElem_placeOf hq] at this
  · rintro k hk hkn rfl
    obtain ⟨q, hq', hqn, hkq, -⟩ := exists_listed_below hk hkn
    exact hq (hkq ▸ ⟨hq', hqn⟩)

/-- A load of a register list stops at the first word that cannot be accessed, with the registers below loaded. -/
theorem loadMany_stops {r : RegNum} (hr : listed list r) (hbelow : slotsOkBelow list start r.toNat s) {k : AccessFault}
    (he : s.mem.access s.config.misaligned (slot list start r) 4 = .error k) (site : Site) :
    ∃ t, loadMany site (regList list) start s = .error (stopFault k site t) ∧ Kept s t ∧ LoadedBelow list start r.toNat s t := by
  obtain ⟨t, ht, hword, hreg, hcpsr, hspsr, hmem, hbreak, hstop, hconfig⟩ :=
    loadMany_fault (site := site) (regList_nodup list) (placeOf_lt_length hr)
      (fun k hk => accessOk_place hbelow r.isLt.le hk) (word_error he)
  exact ⟨t, ht, ⟨hspsr, hbreak, hstop, hconfig, by rw [hmem], by rw [hmem]; exact id⟩,
    loadedBelow_of_places hword hreg hcpsr hmem⟩

/-- A load of a register list whose words can all be accessed loads the registers, and nothing else. -/
theorem loadMany_loads (h : slotsOk list start s) (site : Site) :
    ∃ t, loadMany site (regList list) start s = .ok t ∧ Kept s t ∧ t.mem = s.mem ∧ LoadedBelow list start 16 s t := by
  have hbelow : slotsOkBelow list start 16 s := fun q hq _ => h q hq
  obtain ⟨t, ht, hword, hreg, hcpsr, hspsr, hmem, hbreak, hstop, hconfig⟩ :=
    loadMany_ok (site := site) (regList_nodup list) (fun k hk => accessOk_place hbelow le_rfl (hk.trans_eq (length_regList list)))
  refine ⟨t, ht, ⟨hspsr, hbreak, hstop, hconfig, by rw [hmem], by rw [hmem]; exact id⟩, hmem,
    loadedBelow_of_places (fun k hk _ => hword k hk) (fun r hr => hreg r fun hin => ?_) hcpsr hmem⟩
  obtain ⟨k, hk, hkr⟩ := List.getElem_of_mem hin
  exact hr k hk (hk.trans_eq (length_regList list)) hkr

/-- A store of a register list stops at the first word that cannot be accessed, with the words below stored. -/
theorem storeMany_stops {r : RegNum} (hr : listed list r) (hbelow : slotsOkBelow list start r.toNat s) {k : AccessFault}
    (he : s.mem.access s.config.misaligned (slot list start r) 4 = .error k) (site : Site) :
    ∃ t, storeMany site (regList list) start s = .error (stopFault k site t) ∧ Kept s t ∧ StoredBelow list start r.toNat s t := by
  have hplace := placeOf_lt_length hr
  have hlen : ((regList list).take (placeOf list r.toNat)).length = placeOf list r.toNat := by simp; omega
  have hok : ∀ k, k < placeOf list r.toNat → s.accessOk (start + BitVec.ofNat 32 (4 * k)) 4 :=
    fun k hk => accessOk_place hbelow r.isLt.le hk
  obtain ⟨t, hstored, hfault⟩ := storeMany_fault (site := site) hplace hok he
  obtain ⟨m, hm, -, -, hbytes, -, hwords⟩ := storeMany_ok (site := site) (L := (regList list).take (placeOf list r.toNat))
    (by have := length_regList_le list; omega) fun k hk => hok k (hlen ▸ hk)
  obtain rfl : { s with mem := m } = t := Except.ok.inj (hm.symm.trans hstored)
  have hkept := storeMany_answers site ((regList list).take (placeOf list r.toNat)) start s
  rw [hm] at hkept
  refine ⟨_, hfault, hkept, fun hw q hq hqr hmap => ?_, fun b hb => hbytes b fun k hk => ?_, fun _ _ => rfl, rfl⟩
  · have hlt := (placeOf_lt_iff hq).2 hqr
    have := hwords hw _ (hlen.symm ▸ hlt) hmap
    rwa [List.getElem_take, regList_getElem_placeOf hq] at this
  · rw [hlen] at hk
    obtain ⟨q, hq, hqr, -, rfl⟩ := exists_listed_below (hk.trans hplace) hk
    exact hb q hq hqr

section
variable {i : Instr} {r : RegNum}

/-- An instruction whose fault is that of its load of a register list. -/
theorem stopsAt_of_loadMany (hi : ∀ f, loadMany (siteOf i s) (regList list) start s = .error f → exec i s = .fault f) :
    StopsAt i list start r s LoadedBelow := fun hr hbelow => by
  refine stopsWith_of_access_error fun k he => ?_
  obtain ⟨t, ht, hkept, hloaded⟩ := loadMany_stops hr hbelow he (siteOf i s)
  exact ⟨t, hi _ ht, hkept, fun _ => hloaded⟩

/-- An instruction whose fault is that of its store of a register list. -/
theorem stopsAt_of_storeMany (hi : ∀ f, storeMany (siteOf i s) (regList list) start s = .error f → exec i s = .fault f) :
    StopsAt i list start r s StoredBelow := fun hr hbelow => by
  refine stopsWith_of_access_error fun k he => ?_
  obtain ⟨t, ht, hkept, hstored⟩ := storeMany_stops hr hbelow he (siteOf i s)
  exact ⟨t, hi _ ht, hkept, fun _ => hstored⟩

end

end

/-- An instruction that ends its threaded accesses by `finish` answers their fault. -/
theorem fault_of_finish {i : Instr} {s : State} {x : Except Fault State} {rest : State → State} (hi : exec i s = finish x rest)
    (f : Fault) (hf : x = .error f) : exec i s = .fault f := by
  rw [hi, hf]
  rfl

theorem exec_armLdm {c : Cond} {s : State} (hc : condHolds c s = true) (p u x w : Bool) (rn : RegNum) (list : BitVec 16) :
    exec (.armLdm c p u x w rn list) s =
      finish (loadMany (siteOf (.armLdm c p u x w rn list) s) (regList list) (blockStart p u list (s.reg rn)) s) fun t =>
        if w then t.setReg rn (blockFinal u list (s.reg rn)) else t := by
  dsimp only [exec, execArmLdm]
  rw [whenPasses_pass hc]

theorem exec_armStm {c : Cond} {s : State} (hc : condHolds c s = true) (p u x w : Bool) (rn : RegNum) (list : BitVec 16) :
    exec (.armStm c p u x w rn list) s =
      finish (storeMany (siteOf (.armStm c p u x w rn list) s) (regList list) (blockStart p u list (s.reg rn)) s) fun t =>
        if w then t.setReg rn (blockFinal u list (s.reg rn)) else t := by
  dsimp only [exec, execArmStm]
  rw [whenPasses_pass hc]

theorem exec_tPush (link : Bool) (rlist : BitVec 8) (s : State) :
    exec (.tPush link rlist) s = finish (storeMany (siteOf (.tPush link rlist) s) (regList (pushMask link rlist))
      (s.reg 13#4 - BitVec.ofNat 32 (4 * bitCount (pushMask link rlist))) s) fun t => t.setReg 13#4 (pushStart link rlist s) := by
  rw [← length_regList, ← pushList_eq]
  rfl

theorem exec_tPop_load_error {pc : Bool} {rlist : BitVec 8} {s : State} {f : Fault}
    (hf : loadMany (siteOf (.tPop pc rlist) s) (lowRegList rlist) (s.reg 13#4) s = .error f) :
    exec (.tPop pc rlist) s = .fault f := by
  simp [exec, execTPop, hf]

/-- A POP with PC whose listed registers can all be loaded stops at the PC's word with them loaded. -/
theorem exec_tPop_pc_error {rlist : BitVec 8} {s t : State}
    (ht : loadMany (siteOf (.tPop true rlist) s) (lowRegList rlist) (s.reg 13#4) s = .ok t) {k : AccessFault}
    (he : t.mem.access t.config.misaligned (s.reg 13#4 + bytesOf (lowRegList rlist)) 4 = .error k) :
    exec (.tPop true rlist) s = .fault (stopFault k (siteOf (.tPop true rlist) s) t) := by
  simp [exec, execTPop, ht, loadPc_error he, finish]

/-- Settles O60: every multiple transfer is a load or a store of a register list, whose fault it answers; after the list POP has the
PC's word left. -/
theorem multipleTransfersStopInTheMiddle : Obligations.MultipleTransfersStopInTheMiddle := by
  refine ⟨fun c p u x w rn list r s hc => ⟨?_, ?_⟩, fun link rlist r s => ?_, fun rb rlist r s => ⟨?_, ?_, fun pc => ?_⟩,
    fun rlist s hslots => ?_⟩
  · exact stopsAt_of_loadMany (fault_of_finish (exec_armLdm hc p u x w rn list))
  · exact stopsAt_of_storeMany (fault_of_finish (exec_armStm hc p u x w rn list))
  · exact stopsAt_of_storeMany (fault_of_finish (exec_tPush link rlist s))
  · exact stopsAt_of_storeMany (fault_of_finish rfl)
  · exact stopsAt_of_loadMany (fault_of_finish rfl)
  · exact stopsAt_of_loadMany fun _ => exec_tPop_load_error
  · obtain ⟨t, ht, hkept, hmem, hloaded⟩ := loadMany_loads hslots (siteOf (.tPop true rlist) s)
    rw [← length_regList]
    refine stopsWith_of_access_error fun k he => ⟨t, exec_tPop_pc_error ht ?_, hkept, fun _ => hloaded⟩
    rwa [hmem, hkept.config]

end Sys2Proof.Machine
end

section
/-! PROOFS. Encode and decode agree (30_encoding.md). From an instruction to its words and back is the family RoundTrip of
Laws/PerInstr.lean, row by row. From a word to its instruction and back: fields that lie side by side make up the word again
(`encodeDataProc_fields` and the other `_fields` lemmas, one per format), and each part of the decoder answers a well-formed
instruction whose encoding is the word of those fields (`StandsFor`). -/

namespace Sys2Proof

open BitVec

/-- Settles O1, constructor by constructor: the family RoundTrip says of each row what the decoder reads from its encoding. -/
theorem decodeOfEncodeIsTheInstruction : Obligations.DecodeOfEncodeIsTheInstruction := by
  intro i
  cases i with
  | armCondNever => exact Laws.RoundTrip.armCondNever _
  | armBx => exact Laws.RoundTrip.armBx _ _
  | armBlxReg => exact Laws.RoundTrip.armBlxReg _ _
  | armBxExt => exact Laws.RoundTrip.armBxExt _ _ _
  | armSwi => exact Laws.RoundTrip.armSwi _ _
  | armExtDp => exact Laws.RoundTrip.armExtDp _ _ _ _ _ _ _ _
  | armMrs => exact Laws.RoundTrip.armMrs _ _ _ _ _
  | armMsr => exact Laws.RoundTrip.armMsr _ _ _ _
  | armMrs2 => exact Laws.RoundTrip.armMrs2 _ _ _ _ _
  | armMsr2 => exact Laws.RoundTrip.armMsr2 _ _ _ _ _
  | armAnd => exact Laws.RoundTrip.armAnd _ _ _ _ _
  | armEor => exact Laws.RoundTrip.armEor _ _ _ _ _
  | armSub => exact Laws.RoundTrip.armSub _ _ _ _ _
  | armRsb => exact Laws.RoundTrip.armRsb _ _ _ _ _
  | armAdd => exact Laws.RoundTrip.armAdd _ _ _ _ _
  | armAdc => exact Laws.RoundTrip.armAdc _ _ _ _ _
  | armSbc => exact Laws.RoundTrip.armSbc _ _ _ _ _
  | armRsc => exact Laws.RoundTrip.armRsc _ _ _ _ _
  | armTst => exact Laws.RoundTrip.armTst _ _ _ _
  | armTeq => exact Laws.RoundTrip.armTeq _ _ _ _
  | armCmp => exact Laws.RoundTrip.armCmp _ _ _ _
  | armCmn => exact Laws.RoundTrip.armCmn _ _ _ _
  | armOrr => exact Laws.RoundTrip.armOrr _ _ _ _ _
  | armMov => exact Laws.RoundTrip.armMov _ _ _ _ _
  | armBic => exact Laws.RoundTrip.armBic _ _ _ _ _
  | armMvn => exact Laws.RoundTrip.armMvn _ _ _ _ _
  | armLdrLit => exact Laws.RoundTrip.armLdrLit _ _ _ _ _ _ _ _
  | armExtTransfer => exact Laws.RoundTrip.armExtTransfer _ _ _ _ _ _ _ _ _ _ _
  | armStr => exact Laws.RoundTrip.armStr _ _ _ _ _ _ _
  | armLdr => exact Laws.RoundTrip.armLdr _ _ _ _ _ _ _
  | armStrb => exact Laws.RoundTrip.armStrb _ _ _ _ _ _ _
  | armLdrb => exact Laws.RoundTrip.armLdrb _ _ _ _ _ _ _
  | armStm => exact Laws.RoundTrip.armStm _ _ _ _ _ _ _
  | armLdm => exact Laws.RoundTrip.armLdm _ _ _ _ _ _ _
  | armB => exact Laws.RoundTrip.armB _ _
  | armBl => exact Laws.RoundTrip.armBl _ _
  | armCoproc => exact Laws.RoundTrip.armCoproc _ _
  | armUnknown => exact Laws.RoundTrip.armUnknown _ _
  | tAddReg => exact Laws.RoundTrip.tAddReg _ _ _
  | tSubReg => exact Laws.RoundTrip.tSubReg _ _ _
  | tAddImm3 => exact Laws.RoundTrip.tAddImm3 _ _ _
  | tSubImm3 => exact Laws.RoundTrip.tSubImm3 _ _ _
  | tLslImm => exact Laws.RoundTrip.tLslImm _ _ _
  | tLsrImm => exact Laws.RoundTrip.tLsrImm _ _ _
  | tAsrImm => exact Laws.RoundTrip.tAsrImm _ _ _
  | tMovImm => exact Laws.RoundTrip.tMovImm _ _
  | tCmpImm => exact Laws.RoundTrip.tCmpImm _ _
  | tAddImm8 => exact Laws.RoundTrip.tAddImm8 _ _
  | tSubImm8 => exact Laws.RoundTrip.tSubImm8 _ _
  | tAnd => exact Laws.RoundTrip.tAnd _ _
  | tEor => exact Laws.RoundTrip.tEor _ _
  | tLslReg => exact Laws.RoundTrip.tLslReg _ _
  | tLsrReg => exact Laws.RoundTrip.tLsrReg _ _
  | tAsrReg => exact Laws.RoundTrip.tAsrReg _ _
  | tAdc => exact Laws.RoundTrip.tAdc _ _
  | tSbc => exact Laws.RoundTrip.tSbc _ _
  | tRorReg => exact Laws.RoundTrip.tRorReg _ _
  | tTst => exact Laws.RoundTrip.tTst _ _
  | tNeg => exact Laws.RoundTrip.tNeg _ _
  | tCmpReg => exact Laws.RoundTrip.tCmpReg _ _
  | tCmn => exact Laws.RoundTrip.tCmn _ _
  | tOrr => exact Laws.RoundTrip.tOrr _ _
  | tMul => exact Laws.RoundTrip.tMul _ _
  | tBic => exact Laws.RoundTrip.tBic _ _
  | tMvn => exact Laws.RoundTrip.tMvn _ _
  | tAddHigh => exact Laws.RoundTrip.tAddHigh _ _
  | tCmpHigh => exact Laws.RoundTrip.tCmpHigh _ _
  | tMovHigh => exact Laws.RoundTrip.tMovHigh _ _
  | tBx => exact Laws.RoundTrip.tBx _ _
  | tBxExt => exact Laws.RoundTrip.tBxExt _ _
  | tLdrPc => exact Laws.RoundTrip.tLdrPc _ _
  | tStrReg => exact Laws.RoundTrip.tStrReg _ _ _
  | tStrbReg => exact Laws.RoundTrip.tStrbReg _ _ _
  | tLdrReg => exact Laws.RoundTrip.tLdrReg _ _ _
  | tLdrbReg => exact Laws.RoundTrip.tLdrbReg _ _ _
  | tExtHalf => exact Laws.RoundTrip.tExtHalf _ _ _ _
  | tStrImm => exact Laws.RoundTrip.tStrImm _ _ _
  | tLdrImm => exact Laws.RoundTrip.tLdrImm _ _ _
  | tStrbImm => exact Laws.RoundTrip.tStrbImm _ _ _
  | tLdrbImm => exact Laws.RoundTrip.tLdrbImm _ _ _
  | tStrhImm => exact Laws.RoundTrip.tStrhImm _ _ _
  | tLdrhImm => exact Laws.RoundTrip.tLdrhImm _ _ _
  | tStrSp => exact Laws.RoundTrip.tStrSp _ _
  | tLdrSp => exact Laws.RoundTrip.tLdrSp _ _
  | tAddPc => exact Laws.RoundTrip.tAddPc _ _
  | tAddSp => exact Laws.RoundTrip.tAddSp _ _
  | tSpAdd => exact Laws.RoundTrip.tSpAdd _
  | tSpSub => exact Laws.RoundTrip.tSpSub _
  | tPush => exact Laws.RoundTrip.tPush _ _
  | tPop => exact Laws.RoundTrip.tPop _ _
  | tUnknown1011 => exact Laws.RoundTrip.tUnknown1011 _
  | tStmia => exact Laws.RoundTrip.tStmia _ _
  | tLdmia => exact Laws.RoundTrip.tLdmia _ _
  | tSwi => exact Laws.RoundTrip.tSwi _
  | tBcond => exact Laws.RoundTrip.tBcond _ _
  | tB => exact Laws.RoundTrip.tB _
  | tBl => exact Laws.RoundTrip.tBl _ _ _ _
  | tBlx => exact Laws.RoundTrip.tBlx _ _ _ _
  | tUnknown11101 => exact Laws.RoundTrip.tUnknown11101 _
  | tUnknown11111 => exact Laws.RoundTrip.tUnknown11111 _

/-- Settles O4: each decoder computes on its word. -/
theorem specWordsDecodeToTheirInstructions : Obligations.SpecWordsDecodeToTheirInstructions :=
  ⟨rfl, rfl, rfl, rfl, rfl, rfl, rfl, rfl⟩

/-- The words are the encoding of the instruction, which is well-formed. -/
structure StandsFor (i : Instr) (code : Code) : Prop where
  encode_eq : encode i = code
  wf        : i.wf = true

/-! ### Fields of a word -/

theorem ofBool_getLsbD {n : Nat} (x : BitVec n) (k : Nat) : BitVec.ofBool (x.getLsbD k) = x.extractLsb' k 1 := by
  refine BitVec.eq_of_getLsbD_eq fun j hj => ?_
  obtain rfl : j = 0 := by omega
  simp

theorem extractLsb'_eq_ofBool {n : Nat} {x : BitVec n} {k : Nat} {b : Bool} (h : x.getLsbD k = b) :
    x.extractLsb' k 1 = BitVec.ofBool b := by
  rw [← h, ofBool_getLsbD]

theorem bitVec2_cases (b : BitVec 2) : b = 0#2 ∨ b = 1#2 ∨ b = 2#2 ∨ b = 3#2 := by
  revert b; decide

theorem bitVec4_cases (b : BitVec 4) : b = 0#4 ∨ b = 1#4 ∨ b = 2#4 ∨ b = 3#4 ∨ b = 4#4 ∨ b = 5#4 ∨ b = 6#4 ∨ b = 7#4 ∨
    b = 8#4 ∨ b = 9#4 ∨ b = 10#4 ∨ b = 11#4 ∨ b = 12#4 ∨ b = 13#4 ∨ b = 14#4 ∨ b = 15#4 := by
  revert b; decide

theorem Cond.ofBits_eq_none {b : BitVec 4} (h : Cond.ofBits b = none) : b = 15#4 := by
  revert b; decide

theorem extractLsb'_of_extractLsb' {n : Nat} (x : BitVec n) {a b l m : Nat} (h : b + m ≤ l) :
    (x.extractLsb' a l).extractLsb' b m = x.extractLsb' (a + b) m := by
  refine BitVec.eq_of_getLsbD_eq fun j hj => ?_
  have hl : b + j < l := by omega
  simp only [BitVec.getLsbD_extractLsb', hj, hl, decide_true, Bool.true_and, Nat.add_assoc]

section
variable (low : BitVec 12)

theorem shifted_register_fields :
    low.extractLsb' 7 5 ++ (ShiftType.ofBits (low.extractLsb' 5 2)).toBits ++ BitVec.ofBool (low.getLsbD 4) ++
      low.extractLsb' 0 4 = low := by
  simp only [ShiftType.toBits_ofBits, ofBool_getLsbD, extractLsb'_append_extractLsb'_eq_extractLsb']
  exact extractLsb'_eq_self

theorem msr_register_fields : low.extractLsb' 5 7 ++ BitVec.ofBool (low.getLsbD 4) ++ low.extractLsb' 0 4 = low := by
  simp only [ofBool_getLsbD, extractLsb'_append_extractLsb'_eq_extractLsb']
  exact extractLsb'_eq_self

theorem rotated_imm_fields : low.extractLsb' 8 4 ++ low.extractLsb' 0 8 = low :=
  (extractLsb'_append_extractLsb'_eq_extractLsb' rfl).trans extractLsb'_eq_self

theorem bx_fields : low.extractLsb' 8 4 ++ low.extractLsb' 4 4 ++ low.extractLsb' 0 4 = low := by
  simp only [extractLsb'_append_extractLsb'_eq_extractLsb']
  exact extractLsb'_eq_self
end

theorem operand2OfFields_isImm (i : Bool) (low : BitVec 12) : (operand2OfFields i low).isImm = i := by cases i <;> rfl
theorem msrSourceOfFields_isImm (i : Bool) (low : BitVec 12) : (msrSourceOfFields i low).isImm = i := by cases i <;> rfl
theorem offsetOfFields_isReg (i : Bool) (low : BitVec 12) : (offsetOfFields i low).isReg = i := by cases i <;> rfl

theorem operand2OfFields_bits {i : Bool} {low : BitVec 12} (h : i = false → low.getLsbD 4 = false) :
    (operand2OfFields i low).bits = low := by
  cases i with
  | true => exact rotated_imm_fields low
  | false =>
    have hlow := shifted_register_fields low
    rw [h rfl] at hlow
    exact hlow

theorem msrSourceOfFields_bits {i : Bool} {low : BitVec 12} (h : i = false → low.getLsbD 4 = false) :
    (msrSourceOfFields i low).bits = low := by
  cases i with
  | true => exact rotated_imm_fields low
  | false =>
    have hlow := msr_register_fields low
    rw [h rfl] at hlow
    exact hlow

theorem offsetOfFields_bits {i : Bool} {low : BitVec 12} (h : i = true → low.getLsbD 4 = false) :
    (offsetOfFields i low).bits = low := by
  cases i with
  | false => rfl
  | true =>
    have hlow := shifted_register_fields low
    rw [h rfl] at hlow
    exact hlow

/-! ### Class 00 -/

theorem standsFor_bxOfFields (c : Cond) (sel : BitVec 4) (rm : RegNum) :
    StandsFor (bxOfFields c sel rm) (.arm (encodeBx c sel rm)) := by
  unfold bxOfFields
  split
  next h => exact eq_of_beq h ▸ ⟨rfl, rfl⟩
  next h1 =>
    split
    next h => exact eq_of_beq h ▸ ⟨rfl, rfl⟩
    next h3 =>
      refine ⟨rfl, ?_⟩
      rw [Instr.wf, Bool.and_eq_true, bne_iff_ne, bne_iff_ne]
      exact ⟨mt beq_iff_eq.2 h1, mt beq_iff_eq.2 h3⟩

theorem bxFields_iff {op : BitVec 4} {s : Bool} {rn rd w11to8 : BitVec 4} :
    bxFields op s rn rd w11to8 = true ↔ (((op = 9#4 ∧ s = false) ∧ rn = 15#4) ∧ rd = 15#4) ∧ w11to8 = 15#4 := by
  simp [bxFields]

section
variable (c : Cond) {i : Bool} {op : BitVec 4} {s : Bool} {rn rd : BitVec 4} {low : BitVec 12}

theorem dataProc_bx_standsFor (hbx : bxFields op s rn rd (low.extractLsb' 8 4) = true) :
    StandsFor (bxOfFields c (low.extractLsb' 4 4) (low.extractLsb' 0 4)) (.arm (encodeDataProc c false op s rn rd low)) := by
  obtain ⟨⟨⟨⟨rfl, rfl⟩, rfl⟩, rfl⟩, hones⟩ := bxFields_iff.1 hbx
  have hlow : 15#4 ++ low.extractLsb' 4 4 ++ low.extractLsb' 0 4 = low := hones ▸ bx_fields low
  have h := standsFor_bxOfFields c (low.extractLsb' 4 4) (low.extractLsb' 0 4)
  rwa [encodeBx, hlow] at h

theorem dataProc_ext_standsFor (hbx : bxFields op s rn rd (low.extractLsb' 8 4) = false) (hext : low.getLsbD 4 = true) :
    StandsFor (.armExtDp c op s rn rd (low.extractLsb' 7 5) (ShiftType.ofBits (low.extractLsb' 5 2)) (low.extractLsb' 0 4))
      (.arm (encodeDataProc c false op s rn rd low)) := by
  have hlow := shifted_register_fields low
  rw [hext] at hlow
  have hamount : (low.extractLsb' 7 5).extractLsb' 1 4 = low.extractLsb' 8 4 := extractLsb'_of_extractLsb' low (by decide)
  exact ⟨congrArg (Code.arm ∘ encodeDataProc c false op s rn rd) hlow, by rw [Instr.wf, hamount, hbx]; rfl⟩

theorem standsFor_armMsr (hbx : (!i && bxFields 9#4 false rn rd (low.extractLsb' 8 4)) = false)
    (h4 : i = false → low.getLsbD 4 = false) :
    StandsFor (.armMsr c rn rd (msrSourceOfFields i low)) (.arm (encodeDataProc c i 9#4 false rn rd low)) := by
  refine ⟨?_, ?_⟩
  · rw [encode, msrSourceOfFields_isImm, msrSourceOfFields_bits h4]
  · cases i with
    | true => rfl
    | false =>
      have hones : (low.extractLsb' 5 7).extractLsb' 3 4 = low.extractLsb' 8 4 := extractLsb'_of_extractLsb' low (by decide)
      show (!bxFields 9#4 false rn rd ((low.extractLsb' 5 7).extractLsb' 3 4)) = true
      rw [hones]
      exact congrArg Bool.not hbx

/-- Class 00 apart from the BX pattern and the extension words: the row of each op and S. -/
theorem dataProc_op_standsFor (hbx : (!i && bxFields op s rn rd (low.extractLsb' 8 4)) = false)
    (hext : (!i && low.getLsbD 4) = false) :
    StandsFor (dataProcOfFields c i op s rn rd low) (.arm (encodeDataProc c i op s rn rd low)) := by
  have h4 : i = false → low.getLsbD 4 = false := by rintro rfl; exact hext
  have hrow : ∀ {j : Instr} {op s}, encode j = .arm (encodeDataProc c (operand2OfFields i low).isImm op s rn rd
      (operand2OfFields i low).bits) → j.wf = true → StandsFor j (.arm (encodeDataProc c i op s rn rd low)) := by
    intro j op s hj hwf
    rw [operand2OfFields_isImm, operand2OfFields_bits h4] at hj
    exact ⟨hj, hwf⟩
  have hwf : (i || !low.getLsbD 4) = true := by
    cases i with
    | true => rfl
    | false => rw [h4 rfl]; rfl
  rw [dataProcOfFields, hbx, hext]
  rcases bitVec4_cases op with
    rfl | rfl | rfl | rfl | rfl | rfl | rfl | rfl | rfl | rfl | rfl | rfl | rfl | rfl | rfl | rfl
  any_goals exact hrow rfl rfl
  · cases s with
    | true => exact hrow rfl rfl
    | false => exact ⟨rfl, hwf⟩
  · cases s with
    | true => exact hrow rfl rfl
    | false => exact standsFor_armMsr c hbx h4
  · cases s with
    | true => exact hrow rfl rfl
    | false => exact ⟨rfl, hwf⟩
  · cases s with
    | true => exact hrow rfl rfl
    | false => exact ⟨rfl, hwf⟩

end

theorem standsFor_dataProcOfFields (c : Cond) (i : Bool) (op : BitVec 4) (s : Bool) (rn rd : BitVec 4) (low : BitVec 12) :
    StandsFor (dataProcOfFields c i op s rn rd low) (.arm (encodeDataProc c i op s rn rd low)) := by
  cases hbx : !i && bxFields op s rn rd (low.extractLsb' 8 4) with
  | true =>
    obtain ⟨hi, h⟩ := (Bool.and_eq_true ..).mp hbx
    obtain rfl : i = false := by simpa using hi
    rw [dataProcOfFields, hbx]
    exact dataProc_bx_standsFor c h
  | false =>
    cases hext : !i && low.getLsbD 4 with
    | false => exact dataProc_op_standsFor c hbx hext
    | true =>
      obtain ⟨hi, h⟩ := (Bool.and_eq_true ..).mp hext
      obtain rfl : i = false := by simpa using hi
      rw [dataProcOfFields, hbx, hext]
      exact dataProc_ext_standsFor c hbx h

/-! ### Class 01 and 100 -/

theorem standsFor_transferOfFields (c : Cond) (i p u b w l : Bool) (rn rd : RegNum) (low : BitVec 12) :
    StandsFor (transferOfFields c i p u b w l rn rd low) (.arm (encodeTransfer c i p u b w l rn rd low)) := by
  unfold transferOfFields
  split
  next hlit =>
    obtain ⟨rfl, rfl⟩ : l = true ∧ rn = 15#4 := by simpa using hlit
    exact ⟨rfl, rfl⟩
  next hlit =>
    split
    next hext =>
      obtain ⟨rfl, h4⟩ := (Bool.and_eq_true ..).mp hext
      have hlow := shifted_register_fields low
      rw [h4] at hlow
      exact ⟨congrArg (Code.arm ∘ encodeTransfer c true p u b w l rn rd) hlow, by
        simpa only [Instr.wf, Bool.not_eq_true', Bool.not_eq_true] using hlit⟩
    next hext =>
      have hbits : (offsetOfFields i low).bits = low := offsetOfFields_bits (by rintro rfl; simpa using hext)
      have hrow : ∀ {j : Instr} {b l}, encode j = .arm (encodeTransfer c (offsetOfFields i low).isReg p u b w l rn rd
          (offsetOfFields i low).bits) → j.wf = true → StandsFor j (.arm (encodeTransfer c i p u b w l rn rd low)) := by
        intro j b l hj hwf
        rw [offsetOfFields_isReg, hbits] at hj
        exact ⟨hj, hwf⟩
      cases l with
      | false => cases b <;> exact hrow rfl rfl
      | true => cases b <;> exact hrow rfl (by simpa [Instr.wf] using hlit)

theorem standsFor_blockOfFields (c : Cond) (p u s w l : Bool) (rn : RegNum) (list : BitVec 16) :
    StandsFor (blockOfFields c p u s w l rn list) (.arm (encodeBlock c p u s w l rn list)) := by
  cases l <;> exact ⟨rfl, rfl⟩

/-! ### Words -/

section
variable {c : Cond} {w : Word} (hc : Cond.ofBits (w.extractLsb' 28 4) = some c)
include hc

theorem encodeDataProc_fields (hcls : w.extractLsb' 26 2 = 0#2) :
    encodeDataProc c (w.getLsbD 25) (w.extractLsb' 21 4) (w.getLsbD 20) (w.extractLsb' 16 4) (w.extractLsb' 12 4)
      (w.extractLsb' 0 12) = w := by
  simp only [encodeDataProc, Cond.toBits_ofBits hc, ← hcls, ofBool_getLsbD, extractLsb'_append_extractLsb'_eq_extractLsb']
  exact extractLsb'_eq_self

theorem encodeTransfer_fields (hcls : w.extractLsb' 26 2 = 1#2) :
    encodeTransfer c (w.getLsbD 25) (w.getLsbD 24) (w.getLsbD 23) (w.getLsbD 22) (w.getLsbD 21) (w.getLsbD 20)
      (w.extractLsb' 16 4) (w.extractLsb' 12 4) (w.extractLsb' 0 12) = w := by
  simp only [encodeTransfer, Cond.toBits_ofBits hc, ← hcls, ofBool_getLsbD, extractLsb'_append_extractLsb'_eq_extractLsb']
  exact extractLsb'_eq_self

theorem encodeBlock_fields (hcls : w.extractLsb' 26 2 = 2#2) (h25 : w.getLsbD 25 = false) :
    encodeBlock c (w.getLsbD 24) (w.getLsbD 23) (w.getLsbD 22) (w.getLsbD 21) (w.getLsbD 20) (w.extractLsb' 16 4)
      (w.extractLsb' 0 16) = w := by
  have h25' : 0#1 = w.extractLsb' 25 1 := by rw [← ofBool_getLsbD, h25]; rfl
  simp only [encodeBlock, Cond.toBits_ofBits hc, ← hcls, h25', ofBool_getLsbD, extractLsb'_append_extractLsb'_eq_extractLsb']
  exact extractLsb'_eq_self

theorem encodeClass1x_fields :
    encodeClass1x c (w.extractLsb' 26 2) (w.getLsbD 25) (w.getLsbD 24) (w.extractLsb' 0 24) = w := by
  simp only [encodeClass1x, Cond.toBits_ofBits hc, ofBool_getLsbD, extractLsb'_append_extractLsb'_eq_extractLsb']
  exact extractLsb'_eq_self

theorem unknown_fields : c.toBits ++ w.extractLsb' 26 2 ++ BitVec.ofBool (w.getLsbD 25) ++ w.extractLsb' 0 25 = w := by
  simp only [Cond.toBits_ofBits hc, ofBool_getLsbD, extractLsb'_append_extractLsb'_eq_extractLsb']
  exact extractLsb'_eq_self

theorem standsFor_decodeArmCond : StandsFor (decodeArmCond c w) (.arm w) := by
  have hclass1x := encodeClass1x_fields hc
  have hunknown := unknown_fields hc
  rw [decodeArmCond]
  rcases bitVec2_cases (w.extractLsb' 26 2) with hcls | hcls | hcls | hcls
  · have h := standsFor_dataProcOfFields c (w.getLsbD 25) (w.extractLsb' 21 4) (w.getLsbD 20) (w.extractLsb' 16 4)
      (w.extractLsb' 12 4) (w.extractLsb' 0 12)
    rw [encodeDataProc_fields hc hcls] at h
    rw [hcls]
    exact h
  · have h := standsFor_transferOfFields c (w.getLsbD 25) (w.getLsbD 24) (w.getLsbD 23) (w.getLsbD 22) (w.getLsbD 21)
      (w.getLsbD 20) (w.extractLsb' 16 4) (w.extractLsb' 12 4) (w.extractLsb' 0 12)
    rw [encodeTransfer_fields hc hcls] at h
    rw [hcls]
    exact h
  · rw [hcls] at hclass1x ⊢
    cases h25 : w.getLsbD 25 with
    | true =>
      rw [h25] at hclass1x
      cases h24 : w.getLsbD 24 <;> rw [h24] at hclass1x <;> exact ⟨congrArg Code.arm hclass1x, rfl⟩
    | false =>
      have h := standsFor_blockOfFields c (w.getLsbD 24) (w.getLsbD 23) (w.getLsbD 22) (w.getLsbD 21) (w.getLsbD 20)
        (w.extractLsb' 16 4) (w.extractLsb' 0 16)
      rw [encodeBlock_fields hc hcls h25] at h
      exact h
  · rw [hcls] at hclass1x hunknown ⊢
    cases h25 : w.getLsbD 25 with
    | true =>
      rw [h25] at hclass1x
      cases h24 : w.getLsbD 24 <;> rw [h24] at hclass1x <;> exact ⟨congrArg Code.arm hclass1x, rfl⟩
    | false =>
      rw [h25] at hunknown
      exact ⟨congrArg Code.arm hunknown, rfl⟩
end

theorem standsFor_decodeArm (w : Word) : StandsFor (decodeArm w) (.arm w) := by
  unfold decodeArm
  split
  next hc =>
    refine ⟨?_, rfl⟩
    rw [encode, ← Cond.ofBits_eq_none hc]
    exact congrArg Code.arm ((extractLsb'_append_extractLsb'_eq_extractLsb' rfl).trans extractLsb'_eq_self)
  next c hc => exact standsFor_decodeArmCond hc

/-! ### Formats of a halfword (R128, R129) -/

section
variable {h : Half}

theorem fields_append {a b l m : Nat} {x : BitVec l} {y : BitVec m} (hx : h.extractLsb' b l = x) (hy : h.extractLsb' a m = y)
    (hb : b = a + m) : h.extractLsb' a (l + m) = x ++ y := by
  rw [← hx, ← hy, extractLsb'_append_extractLsb'_eq_extractLsb' hb]

/-- The top five bits are h[15:12] and h[11]. -/
theorem top5_eq {b : Bool} (hb : h.getLsbD 11 = b) : h.extractLsb' 11 5 = h.extractLsb' 12 4 ++ BitVec.ofBool b :=
  fields_append rfl (extractLsb'_eq_ofBool hb) rfl

theorem thumb_reg3_fields {p : BitVec 7} (hp : h.extractLsb' 9 7 = p) :
    p ++ h.extractLsb' 6 3 ++ h.extractLsb' 3 3 ++ h.extractLsb' 0 3 = h := by
  simp only [← hp, extractLsb'_append_extractLsb'_eq_extractLsb']
  exact extractLsb'_eq_self

theorem thumb_imm5_fields {p : BitVec 5} (hp : h.extractLsb' 11 5 = p) :
    p ++ h.extractLsb' 6 5 ++ h.extractLsb' 3 3 ++ h.extractLsb' 0 3 = h := by
  simp only [← hp, extractLsb'_append_extractLsb'_eq_extractLsb']
  exact extractLsb'_eq_self

theorem thumb_imm8_fields {p : BitVec 5} (hp : h.extractLsb' 11 5 = p) :
    p ++ h.extractLsb' 8 3 ++ h.extractLsb' 0 8 = h := by
  simp only [← hp, extractLsb'_append_extractLsb'_eq_extractLsb']
  exact extractLsb'_eq_self

theorem thumb_imm11_fields {p : BitVec 5} (hp : h.extractLsb' 11 5 = p) : p ++ h.extractLsb' 0 11 = h := by
  simp only [← hp, extractLsb'_append_extractLsb'_eq_extractLsb']
  exact extractLsb'_eq_self

theorem thumb_alu_fields {op : BitVec 4} (htop : h.extractLsb' 10 6 = 16#6) (hop : h.extractLsb' 6 4 = op) :
    encodeThumbAlu op (h.extractLsb' 3 3) (h.extractLsb' 0 3) = h := by
  simp only [encodeThumbAlu, ← htop, ← hop, extractLsb'_append_extractLsb'_eq_extractLsb']
  exact extractLsb'_eq_self

theorem thumb_high_fields {op : BitVec 2} {h1 : BitVec 1} (htop : h.extractLsb' 10 6 = 17#6) (hop : h.extractLsb' 8 2 = op)
    (hh1 : h.extractLsb' 7 1 = h1) : encodeThumbHigh op h1 (h.extractLsb' 3 4) (h.extractLsb' 0 3) = h := by
  simp only [encodeThumbHigh, ← htop, ← hop, ← hh1, extractLsb'_append_extractLsb'_eq_extractLsb']
  exact extractLsb'_eq_self

theorem thumb_sp_fields {b : BitVec 1} (htop : h.extractLsb' 8 8 = 0xB0#8) (hb : h.extractLsb' 7 1 = b) :
    0xB0#8 ++ b ++ h.extractLsb' 0 7 = h := by
  simp only [← htop, ← hb, extractLsb'_append_extractLsb'_eq_extractLsb']
  exact extractLsb'_eq_self

theorem thumb_stack_fields {p : BitVec 7} (hp : h.extractLsb' 9 7 = p) :
    p ++ BitVec.ofBool (h.getLsbD 8) ++ h.extractLsb' 0 8 = h := by
  simp only [← hp, ofBool_getLsbD, extractLsb'_append_extractLsb'_eq_extractLsb']
  exact extractLsb'_eq_self

theorem thumb_imm12_fields {p : BitVec 4} (hp : h.extractLsb' 12 4 = p) : p ++ h.extractLsb' 0 12 = h := by
  simp only [← hp, extractLsb'_append_extractLsb'_eq_extractLsb']
  exact extractLsb'_eq_self

theorem thumb_low8_fields {p : BitVec 8} (hp : h.extractLsb' 8 8 = p) : p ++ h.extractLsb' 0 8 = h := by
  simp only [← hp, extractLsb'_append_extractLsb'_eq_extractLsb']
  exact extractLsb'_eq_self

theorem thumb_extHalf_fields {p : BitVec 4} (hp : h.extractLsb' 12 4 = p) (h9 : h.getLsbD 9 = true) :
    p ++ h.extractLsb' 10 2 ++ 1#1 ++ h.extractLsb' 6 3 ++ h.extractLsb' 3 3 ++ h.extractLsb' 0 3 = h := by
  have h9' : 1#1 = h.extractLsb' 9 1 := (extractLsb'_eq_ofBool h9).symm
  simp only [← hp, h9', extractLsb'_append_extractLsb'_eq_extractLsb']
  exact extractLsb'_eq_self

theorem thumb_pair_fields {h2 : Half} {b : BitVec 1} (hb : h2.extractLsb' 12 1 = b) :
    h2.extractLsb' 13 3 ++ b ++ h2.extractLsb' 11 1 ++ h2.extractLsb' 0 11 = h2 := by
  simp only [← hb, extractLsb'_append_extractLsb'_eq_extractLsb']
  exact extractLsb'_eq_self

/-! ### The families -/

theorem standsFor_decodeThumbShiftAdd (htop : h.extractLsb' 13 3 = 0#3) : StandsFor (decodeThumbShiftAdd h) (.thumb h) := by
  rw [decodeThumbShiftAdd]
  rcases bitVec2_cases (h.extractLsb' 11 2) with hop | hop | hop | hop <;> rw [hop]
  · exact ⟨congrArg Code.thumb (thumb_imm5_fields (fields_append htop hop rfl)), rfl⟩
  · exact ⟨congrArg Code.thumb (thumb_imm5_fields (fields_append htop hop rfl)), rfl⟩
  · exact ⟨congrArg Code.thumb (thumb_imm5_fields (fields_append htop hop rfl)), rfl⟩
  · have h11 := fields_append htop hop rfl
    rcases bitVec2_cases (h.extractLsb' 9 2) with hsel | hsel | hsel | hsel <;> rw [hsel] <;>
      exact ⟨congrArg Code.thumb (thumb_reg3_fields (fields_append h11 hsel rfl)), rfl⟩

theorem standsFor_decodeThumbImm8 (htop : h.extractLsb' 13 3 = 1#3) : StandsFor (decodeThumbImm8 h) (.thumb h) := by
  rw [decodeThumbImm8]
  rcases bitVec2_cases (h.extractLsb' 11 2) with hop | hop | hop | hop <;> rw [hop] <;>
    exact ⟨congrArg Code.thumb (thumb_imm8_fields (fields_append htop hop rfl)), rfl⟩

theorem standsFor_decodeThumbAlu (htop : h.extractLsb' 10 6 = 16#6) : StandsFor (decodeThumbAlu h) (.thumb h) := by
  rw [decodeThumbAlu]
  rcases bitVec4_cases (h.extractLsb' 6 4) with
    hop | hop | hop | hop | hop | hop | hop | hop | hop | hop | hop | hop | hop | hop | hop | hop <;> rw [hop] <;>
    exact ⟨congrArg Code.thumb (thumb_alu_fields htop hop), rfl⟩

theorem standsFor_decodeThumbHigh (htop : h.extractLsb' 10 6 = 17#6) : StandsFor (decodeThumbHigh h) (.thumb h) := by
  have hh1 : (h.extractLsb' 7 1 ++ h.extractLsb' 0 3).extractLsb' 3 1 = h.extractLsb' 7 1 :=
    (extractLsb'_append_eq_of_le (by decide)).trans extractLsb'_eq_self
  have hrd : (h.extractLsb' 7 1 ++ h.extractLsb' 0 3).extractLsb' 0 3 = h.extractLsb' 0 3 :=
    (extractLsb'_append_eq_of_add_le (by decide)).trans extractLsb'_eq_self
  have hrow : ∀ {op}, h.extractLsb' 8 2 = op → Code.thumb (encodeThumbHigh op
      ((h.extractLsb' 7 1 ++ h.extractLsb' 0 3).extractLsb' 3 1) (h.extractLsb' 3 4)
      ((h.extractLsb' 7 1 ++ h.extractLsb' 0 3).extractLsb' 0 3)) = .thumb h := fun hop => by
    rw [hh1, hrd, thumb_high_fields htop hop rfl]
  rw [decodeThumbHigh]
  rcases bitVec2_cases (h.extractLsb' 8 2) with hop | hop | hop | hop <;> rw [hop]
  · exact ⟨hrow hop, rfl⟩
  · exact ⟨hrow hop, rfl⟩
  · exact ⟨hrow hop, rfl⟩
  · cases h7 : h.getLsbD 7 <;>
      exact ⟨congrArg Code.thumb (thumb_high_fields htop hop (extractLsb'_eq_ofBool h7)), rfl⟩

theorem standsFor_decodeThumbRegOffset (htop : h.extractLsb' 12 4 = 5#4) :
    StandsFor (decodeThumbRegOffset h) (.thumb h) := by
  rw [decodeThumbRegOffset]
  cases h9 : h.getLsbD 9 with
  | true => exact ⟨congrArg Code.thumb (thumb_extHalf_fields htop h9), rfl⟩
  | false =>
    rcases bitVec2_cases (h.extractLsb' 10 2) with hop | hop | hop | hop <;> rw [hop] <;>
      exact ⟨congrArg Code.thumb
        (thumb_reg3_fields (fields_append (fields_append htop hop rfl) (extractLsb'_eq_ofBool h9) rfl)), rfl⟩

theorem standsFor_decodeThumbImmOffset (htop : h.extractLsb' 13 3 = 3#3) :
    StandsFor (decodeThumbImmOffset h) (.thumb h) := by
  rw [decodeThumbImmOffset]
  rcases bitVec2_cases (h.extractLsb' 11 2) with hop | hop | hop | hop <;> rw [hop] <;>
    exact ⟨congrArg Code.thumb (thumb_imm5_fields (fields_append htop hop rfl)), rfl⟩

theorem standsFor_decodeThumbMisc (htop : h.extractLsb' 12 4 = 11#4) : StandsFor (decodeThumbMisc h) (.thumb h) := by
  unfold decodeThumbMisc
  split
  next h8 =>
    have hsp := fields_append htop (eq_of_beq h8) rfl
    cases h7 : h.getLsbD 7 <;>
      exact ⟨congrArg Code.thumb (thumb_sp_fields hsp (extractLsb'_eq_ofBool h7)), rfl⟩
  next h8 =>
    split
    next h9 =>
      cases h11 : h.getLsbD 11 <;>
        exact ⟨congrArg Code.thumb (thumb_stack_fields
          (fields_append (fields_append htop (extractLsb'_eq_ofBool h11) rfl) (eq_of_beq h9) rfl)), rfl⟩
    next h9 =>
      refine ⟨congrArg Code.thumb (thumb_imm12_fields htop), ?_⟩
      rw [Instr.wf, extractLsb'_of_extractLsb' h (by decide), extractLsb'_of_extractLsb' h (by decide)]
      rw [Bool.and_eq_true, bne_iff_ne, bne_iff_ne]
      exact ⟨mt beq_iff_eq.2 h8, mt beq_iff_eq.2 h9⟩

theorem standsFor_decodeThumbBcond (htop : h.extractLsb' 12 4 = 13#4) : StandsFor (decodeThumbBcond h) (.thumb h) := by
  unfold decodeThumbBcond
  split
  next hc => exact ⟨congrArg Code.thumb (thumb_low8_fields (fields_append htop (Cond.ofBits_eq_none hc) rfl)), rfl⟩
  next c hc => exact ⟨congrArg Code.thumb (thumb_low8_fields (fields_append htop (Cond.toBits_ofBits hc).symm rfl)), rfl⟩

theorem standsFor_decodeThumbPair (hp : h.extractLsb' 11 5 = 30#5) (h2 : Half) :
    StandsFor (decodeThumbPair h h2) (.pair h h2) := by
  have hfirst := thumb_imm11_fields hp
  rw [decodeThumbPair]
  cases h12 : h2.getLsbD 12 with
  | true | false =>
    have hsecond := thumb_pair_fields (extractLsb'_eq_ofBool h12)
    exact ⟨congr (congrArg Code.pair hfirst) hsecond, rfl⟩

/-! ### The Thumb decoder -/

/-- A halfword whose top bits are not 1111 is one instruction. -/
theorem standsFor_decodeThumb_single (h15 : h.extractLsb' 12 4 ≠ 15#4) (h2 : Half) :
    StandsFor (decodeThumb h h2) (.thumb h) := by
  have h13 : (h.extractLsb' 12 4).extractLsb' 1 3 = h.extractLsb' 13 3 := extractLsb'_of_extractLsb' h (by decide)
  have h5 : ∀ {b}, h.getLsbD 11 = b → h.extractLsb' 11 5 = h.extractLsb' 12 4 ++ BitVec.ofBool b := top5_eq
  rw [decodeThumb]
  rcases bitVec4_cases (h.extractLsb' 12 4) with
    hn | hn | hn | hn | hn | hn | hn | hn | hn | hn | hn | hn | hn | hn | hn | hn <;> rw [hn] at h13 h5 ⊢
  · exact standsFor_decodeThumbShiftAdd h13.symm
  · exact standsFor_decodeThumbShiftAdd h13.symm
  · exact standsFor_decodeThumbImm8 h13.symm
  · exact standsFor_decodeThumbImm8 h13.symm
  · cases h11 : h.getLsbD 11 with
    | true => exact ⟨congrArg Code.thumb (thumb_imm8_fields (h5 h11)), rfl⟩
    | false =>
      have h10 : ∀ {b}, h.getLsbD 10 = b → h.extractLsb' 10 6 = 4#4 ++ BitVec.ofBool false ++ BitVec.ofBool b := fun hb =>
        fields_append (h5 h11) (extractLsb'_eq_ofBool hb) rfl
      cases hb : h.getLsbD 10 with
      | true => exact standsFor_decodeThumbHigh (h10 hb)
      | false => exact standsFor_decodeThumbAlu (h10 hb)
  · exact standsFor_decodeThumbRegOffset hn
  · exact standsFor_decodeThumbImmOffset h13.symm
  · exact standsFor_decodeThumbImmOffset h13.symm
  · cases h11 : h.getLsbD 11 <;> exact ⟨congrArg Code.thumb (thumb_imm5_fields (h5 h11)), rfl⟩
  · cases h11 : h.getLsbD 11 <;> exact ⟨congrArg Code.thumb (thumb_imm8_fields (h5 h11)), rfl⟩
  · cases h11 : h.getLsbD 11 <;> exact ⟨congrArg Code.thumb (thumb_imm8_fields (h5 h11)), rfl⟩
  · exact standsFor_decodeThumbMisc hn
  · cases h11 : h.getLsbD 11 <;> exact ⟨congrArg Code.thumb (thumb_imm8_fields (h5 h11)), rfl⟩
  · exact standsFor_decodeThumbBcond hn
  · cases h11 : h.getLsbD 11 <;> exact ⟨congrArg Code.thumb (thumb_imm11_fields (h5 h11)), rfl⟩
  · exact absurd hn h15

theorem standsFor_decodeThumb (h h2 : Half) :
    StandsFor (decodeThumb h h2) (if isPairFirst h then .pair h h2 else .thumb h) := by
  by_cases h15 : h.extractLsb' 12 4 = 15#4
  · have hp : ∀ {b}, h.getLsbD 11 = b → h.extractLsb' 11 5 = 15#4 ++ BitVec.ofBool b := fun hb => h15 ▸ top5_eq hb
    rw [decodeThumb, h15, isPairFirst]
    cases h11 : h.getLsbD 11 with
    | true =>
      rw [hp h11]
      exact ⟨congrArg Code.thumb (thumb_imm11_fields (hp h11)), rfl⟩
    | false =>
      rw [hp h11]
      exact standsFor_decodeThumbPair (hp h11) h2
  · have hn : (h.extractLsb' 11 5).extractLsb' 1 4 = h.extractLsb' 12 4 := extractLsb'_of_extractLsb' h (by decide)
    have hsingle : ¬isPairFirst h = true := fun hp => h15 (by rw [← hn, eq_of_beq hp]; rfl)
    rw [if_neg hsingle]
    exact standsFor_decodeThumb_single h15 h2
end

/-- Settles O2: row by row, the fields the decoder takes out of a word are put back side by side by the encoder. -/
theorem encodeOfDecodeIsTheWord : Obligations.EncodeOfDecodeIsTheWord := by
  refine ⟨fun w => ?_, fun h h2 => ?_⟩
  · obtain ⟨hencode, hwf⟩ := standsFor_decodeArm w
    exact ⟨hencode, hwf, decodeArm_isThumb w⟩
  · obtain ⟨hencode, hwf⟩ := standsFor_decodeThumb h h2
    exact ⟨hencode, hwf, decodeThumb_isThumb h h2⟩

end Sys2Proof
end

section
/-! PROOFS. The extension encodings of R139, R375 and R401 under both settings, the instructions without effect, and the
immediates, offsets and block addresses as numbers (R131 to R135, R282). -/

namespace Sys2Proof.Machine

/-! ### Under `refuse` -/

/-- An extension encoding whose condition holds, or that has none, comes to its refusal (R434). -/
theorem exec_refuse {i : Instr} {s : State} (hi : isExtension i = true) (href : s.config.extension = .refuse)
    (hc : ∀ c, condOf i = some c → condHolds c s = true) :
    exec i s = .refused (.unmodelled (siteOf i s) { s with stop := some (.refusal (siteOf i s)) }) := by
  cases i with
  | armBxExt c =>
    rw [exec, execArmBxExt, whenPasses_pass (hc c rfl), refuseExtension_refuse href]
  | armExtDp c => rw [exec, execArmExtDp, whenPasses_pass (hc c rfl), refuseExtension_refuse href]
  | armExtTransfer c =>
    rw [exec, execArmExtTransfer, whenPasses_pass (hc c rfl)]
    exact refuseExtension_refuse href _ _
  | armLdrLit c i _ _ _ _ _ imm12 =>
    have hext : (i && imm12.getLsbD 4) = true := hi
    rw [exec, execArmLdrLit, whenPasses_pass (hc c rfl), hext]
    exact refuseExtension_refuse href _ _
  | tExtHalf => rw [exec, execTExtHalf, refuseExtension_refuse href]
  | tBxExt => rw [exec, execTBxExt, refuseExtension_refuse href]
  | _ => cases hi

/-- Settles O18: only an extension encoding under `refuse` answers a refusal, and each one does. -/
theorem refusalsAreTheExtensionEncodings : Obligations.RefusalsAreTheExtensionEncodings := by
  refine ⟨fun i s r h => ?_, fun i s hi href hc => ?_⟩
  · have ha := exec_answers i s
    rw [h] at ha
    obtain ⟨hext, href, -⟩ := ha
    exact ⟨hext, href⟩
  · rw [siteIn_eq_siteOf]
    exact exec_refuse hi href hc

/-! ### Instructions without effect -/

theorem whenPasses_next_self (c : Cond) (s : State) : (whenPasses c s fun s => .next s) = .next s := by
  unfold whenPasses; split <;> rfl

/-- Settles O41: whether the condition holds or not, the answer is the state itself. -/
theorem instructionsWithoutEffect : Obligations.InstructionsWithoutEffect := by
  intro s
  refine ⟨fun _ => rfl, fun c _ => whenPasses_next_self c s, fun c _ _ _ _ => whenPasses_next_self c s,
    fun c _ _ _ _ => whenPasses_next_self c s, fun c _ => whenPasses_next_self c s, fun c _ => whenPasses_next_self c s,
    fun _ => rfl, fun _ => rfl, fun _ => rfl, fun _ => rfl, fun hext _ _ _ _ => refuseExtension_document hext _ _⟩

/-! ### Under `document`: the word with w[4] = 0 -/

section
variable (amount : BitVec 5) (ty : ShiftType) (rm : RegNum)

theorem operand2OfFields_reg_bits : operand2OfFields false (Operand2.reg amount ty rm).bits = .reg amount ty rm := by
  simp (disch := decide) [operand2OfFields, Operand2.bits, BitVec.extractLsb'_append_eq_of_le,
    BitVec.extractLsb'_append_eq_of_add_le, -Nat.reduceAdd]

theorem offsetOfFields_reg_bits : offsetOfFields true (Offset.reg amount ty rm).bits = .reg amount ty rm := by
  simp (disch := decide) [offsetOfFields, Offset.bits, BitVec.extractLsb'_append_eq_of_le,
    BitVec.extractLsb'_append_eq_of_add_le, -Nat.reduceAdd]

theorem msrSourceOfFields_reg_bits :
    msrSourceOfFields false (Operand2.reg amount ty rm).bits = .reg (amount ++ ty.toBits) rm := by
  simp (disch := decide) [msrSourceOfFields, Operand2.bits, BitVec.extractLsb'_append_eq_of_le,
    BitVec.extractLsb'_append_eq_of_add_le, -Nat.reduceAdd]

theorem getLsbD_reg_bits : (Operand2.reg amount ty rm).bits.getLsbD 4 = false := by
  simp [Operand2.bits, BitVec.getLsbD_append, -BitVec.getLsbD_eq_getElem, -Nat.reduceAdd]

theorem extractLsb'_reg_bits : (Operand2.reg amount ty rm).bits.extractLsb' 8 4 = amount.extractLsb' 1 4 := by
  simp (disch := decide) [Operand2.bits, BitVec.extractLsb'_append_eq_of_le, -Nat.reduceAdd]

end

theorem whenPasses_pass_next {c : Cond} {s : State} (h : condHolds c s = true) (f : State → State) :
    whenPasses c s (fun s => .next (f s)) = .next (f s) := whenPasses_pass h _

/-- A class-00 word with a register operand does what its op and S select (R127 line 3). -/
theorem exec_dataProcOfFields {c : Cond} {s : State} (hc : condHolds c s = true) {op : BitVec 4} {sbit : Bool} {rn rd : RegNum}
    {amount : BitVec 5} (hbx : bxFields op sbit rn rd (amount.extractLsb' 1 4) = false) (ty : ShiftType) (rm : RegNum) :
    exec (dataProcOfFields c false op sbit rn rd (Operand2.reg amount ty rm).bits) s =
      .next (dataProcEffect op sbit rn rd amount ty rm s) := by
  simp only [dataProcOfFields, extractLsb'_reg_bits, hbx, getLsbD_reg_bits, operand2OfFields_reg_bits, msrSourceOfFields_reg_bits,
    Bool.and_false, Bool.false_eq_true, if_false, dataProcEffect]
  rcases bitVec4_cases op with
    rfl | rfl | rfl | rfl | rfl | rfl | rfl | rfl | rfl | rfl | rfl | rfl | rfl | rfl | rfl | rfl
  any_goals exact whenPasses_pass_next hc _
  · cases sbit with
    | true => exact whenPasses_pass_next hc _
    | false => exact whenPasses_pass_next hc _
  · cases sbit with
    | true => exact whenPasses_pass_next hc _
    | false => exact whenPasses_pass_next hc _
  · cases sbit with
    | true => exact whenPasses_pass_next hc _
    | false => exact whenPasses_next_self c s
  · cases sbit with
    | true => exact whenPasses_pass_next hc _
    | false => exact whenPasses_next_self c s

section
variable {s : State} {p u w : Bool} {rn : RegNum} {off : Offset} (h : s.accessOk (transferAddr p u rn off s) 4) (rd : RegNum)
include h

/-- A transfer whose access can happen completes with a state that does not depend on what a fault would record. -/
theorem ldrGeneral_next : ∃ t, ∀ site, ldrGeneral site p u w rn rd off s = .next t := by
  obtain ⟨v, hv⟩ := word_ok (s := afterOffset true off s) (by simpa [State.accessOk] using h)
  exact ⟨_, fun site => by rw [ldrGeneral, loadWord_ok hv]; rfl⟩

theorem strGeneral_next : ∃ t, ∀ site, strGeneral site p u w rn rd off s = .next t :=
  ⟨_, fun site => by rw [strGeneral, afterOffset_store, storeWord_ok h]; rfl⟩

end

theorem transferOfFields_reg {l : Bool} {rn : RegNum} (hlit : (l && rn == 15#4) = false) (c : Cond) (p u b w : Bool)
    (rd : RegNum) (amount : BitVec 5) (ty : ShiftType) (rm : RegNum) :
    transferOfFields c true p u b w l rn rd (Offset.reg amount ty rm).bits =
      if l then if b then .armLdrb c p u w rn rd (.reg amount ty rm) else .armLdr c p u w rn rd (.reg amount ty rm)
      else if b then .armStrb c p u w rn rd (.reg amount ty rm) else .armStr c p u w rn rd (.reg amount ty rm) := by
  have hbit : (Offset.reg amount ty rm).bits.getLsbD 4 = false := getLsbD_reg_bits amount ty rm
  simp only [transferOfFields, hlit, hbit, offsetOfFields_reg_bits, Bool.and_false, Bool.false_eq_true, if_false]

/-- Settles O47: both words come to the same named effect, a word transfer past its access whatever its record would be. -/
theorem armExtensionWordsRunAsDecoded : Obligations.ArmExtensionWordsRunAsDecoded := by
  refine fun c rn rd amount ty rm s hc hext => ⟨fun op sbit hwf => ?_, fun p u b w l hwf hacc => ?_⟩
  · have hbx : bxFields op sbit rn rd (amount.extractLsb' 1 4) = false := by simpa [Instr.wf] using hwf
    refine ⟨dataProcEffect op sbit rn rd amount ty rm s, ?_, ?_⟩
    · rw [exec, execArmExtDp, whenPasses_pass hc, refuseExtension_document hext]
    · rw [decodeArm_encodeDataProc]
      exact exec_dataProcOfFields hc hbx ty rm
  · have hlit : (l && rn == 15#4) = false := by simpa only [Instr.wf, Bool.not_eq_true'] using hwf
    have hdecode := (decodeArm_encodeTransfer ..).trans (transferOfFields_reg hlit c p u b w rd amount ty rm)
    rw [Completes, exec, execArmExtTransfer, whenPasses_pass hc, refuseExtension_document hext]
    cases b with
    | true => cases l <;> exact ⟨_, rfl, (congrArg (exec · s) hdecode).trans (whenPasses_pass hc _)⟩
    | false =>
      cases l with
      | true =>
        obtain ⟨t, ht⟩ := ldrGeneral_next (w := w) (hacc rfl) rd
        exact ⟨t, ht _, (congrArg (exec · s) hdecode).trans ((whenPasses_pass hc _).trans (ht _))⟩
      | false =>
        obtain ⟨t, ht⟩ := strGeneral_next (w := w) (hacc rfl) rd
        exact ⟨t, ht _, (congrArg (exec · s) hdecode).trans ((whenPasses_pass hc _).trans (ht _))⟩

/-! ### Immediates and offsets (R131 to R135) -/

theorem getLsbD_rotateRight_word (v : Word) (n : Nat) {j : Nat} (hj : j < 32) :
    (v.rotateRight n).getLsbD j = v.getLsbD ((j + n) % 32) := by
  rw [BitVec.getLsbD_rotateRight]
  by_cases h : j < 32 - n % 32
  · have hmod : (j + n) % 32 = n % 32 + j := by omega
    simp [h, hmod]
  · have hmod : (j + n) % 32 = j - (32 - n % 32) := by omega
    simp [h, hj, hmod]

theorem getLsbD_rotatedImm (rot : BitVec 4) (imm8 : BitVec 8) {j : Nat} (hj : j < 32) :
    (rotatedImm rot imm8).getLsbD j = imm8.getLsbD ((j + 2 * rot.toNat) % 32) := by
  have hmod : (j + 2 * rot.toNat) % 32 < 32 := Nat.mod_lt _ (by decide)
  rw [rotatedImm, getLsbD_rotateRight_word _ _ hj, BitVec.getLsbD_setWidth, decide_eq_true hmod, Bool.true_and]

theorem rotatedImm_zero (imm8 : BitVec 8) : rotatedImm 0#4 imm8 = imm8.setWidth 32 := by
  refine BitVec.eq_of_getLsbD_eq fun j hj => ?_
  rw [getLsbD_rotatedImm _ _ hj]
  simp [Nat.mod_eq_of_lt hj, hj]

/-- The two settings of SDT_IMM_FORM agree where the rotation is 0. -/
theorem immOffset_rotated_of_lt {imm12 : BitVec 12} (h : imm12.toNat < 256) :
    immOffset .rotated imm12 = immOffset .imm12 imm12 := by
  have hrot : imm12.extractLsb' 8 4 = 0#4 := by
    apply BitVec.eq_of_toNat_eq
    simp [BitVec.extractLsb'_toNat, Nat.shiftRight_eq_div_pow, Nat.div_eq_of_lt h]
  have himm8 : (imm12.extractLsb' 0 8).setWidth 32 = imm12.setWidth 32 := by
    apply BitVec.eq_of_toNat_eq
    simp [Nat.mod_eq_of_lt h]
  rw [immOffset, hrot, rotatedImm_zero, himm8]
  rfl

/-- A branch offset: a signed field with `m` zeros below it, sign-extended (R134). -/
theorem toInt_signExtend_append_zero {n m : Nat} (v : BitVec n) (h : n + m ≤ 32) :
    ((v ++ 0#m).signExtend 32).toInt = 2 ^ m * v.toInt := by
  rw [BitVec.toInt_signExtend_of_le h, BitVec.toInt_append_zero]

theorem toNat_scaled (v : BitVec 8) {k : Nat} (hk : k ≤ 2) : (scaled v k).toNat = v.toNat * 2 ^ k := by
  have hv := v.isLt
  have hpow : 2 ^ k ≤ 2 ^ 2 := Nat.pow_le_pow_right (by decide) hk
  have hlt : v.toNat * 2 ^ k < 2 ^ 32 := by nlinarith
  have hwidth : (v.setWidth 32).toNat = v.toNat := BitVec.toNat_setWidth_of_le (by decide)
  rw [scaled, BitVec.toNat_shiftLeft, hwidth, Nat.shiftLeft_eq, Nat.mod_eq_of_lt hlt]

/-! ### Block transfers (R282) -/

theorem bytesOf_regList (list : BitVec 16) : bytesOf (regList list) = BitVec.ofNat 32 (4 * bitCount list) := by
  rw [bytesOf, length_regList]

/-- Settles O36: each clause by its lemma, and the block addresses by the number of listed registers. -/
theorem immediatesOffsetsAndBlockAddresses : Obligations.ImmediatesOffsetsAndBlockAddresses := by
  refine ⟨fun rot imm8 j => getLsbD_rotatedImm rot imm8,
    fun imm12 => ⟨BitVec.toNat_setWidth_of_le (by decide), rfl, immOffset_rotated_of_lt⟩,
    fun v => toInt_signExtend_append_zero v (by decide), fun v => toInt_signExtend_append_zero v (by decide),
    fun v => toInt_signExtend_append_zero v (by decide), fun hi lo => toInt_signExtend_append_zero (hi ++ lo) (by decide),
    fun v k => toNat_scaled v, fun list base => ?_⟩
  intro n
  have hn : bytesOf (regList list) = n := bytesOf_regList list
  simp [blockStart, blockFinal, hn]

end Sys2Proof.Machine
end

section
/-! PROOFS. The execution cycle (40_execution_cycle.md): what one step comes to when its fetch succeeds or a breakpoint stands at
its address (R170 to R174), and the condition check of ARM instructions (R177, R178). -/

namespace Sys2Proof.Machine

/-! ### The condition check -/

/-- Every ARM instruction with a condition is one meaning under the condition check (R177). -/
theorem exec_eq_whenPasses {i : Instr} {c : Cond} (h : condOf i = some c) (s : State) :
    ∃ k, exec i s = whenPasses c s k := by
  cases i with
  | armBx | armBlxReg | armBxExt | armSwi | armExtDp | armMrs | armMsr | armMrs2 | armMsr2 | armAnd | armEor | armSub | armRsb
  | armAdd | armAdc | armSbc | armRsc | armTst | armTeq | armCmp | armCmn | armOrr | armMov | armBic | armMvn | armLdrLit
  | armExtTransfer | armStr | armLdr | armStrb | armLdrb | armStm | armLdm | armB | armBl | armCoproc | armUnknown =>
    cases h; dsimp only [exec]; exact ⟨_, rfl⟩
  | _ => cases h

/-- Settles O10: the meaning stands under the condition check, which answers the state itself. -/
theorem failedConditionChangesNothing : Obligations.FailedConditionChangesNothing := by
  intro i c s hi hc
  obtain ⟨k, hk⟩ := exec_eq_whenPasses hi s
  rw [hk, whenPasses_fail hc]

/-- A property of every condition that four bits name is one of the condition they name. -/
theorem forall_ofBits_of_eq {P : Cond → Prop} {b : BitVec 4} {c : Cond} (hb : Cond.ofBits b = some c) (hc : P c) :
    ∀ d, Cond.ofBits b = some d → P d := by
  intro d hd
  cases hb.symm.trans hd
  exact hc

/-- Settles O11: each row of the table at the condition its bits name; only 1111 names none. -/
theorem conditionTable : Obligations.ConditionTable := by
  intro s
  refine ⟨forall_ofBits_of_eq (c := .eq) rfl .rfl, forall_ofBits_of_eq (c := .ne) rfl ?_, forall_ofBits_of_eq (c := .cs) rfl .rfl,
    forall_ofBits_of_eq (c := .cc) rfl ?_, forall_ofBits_of_eq (c := .mi) rfl .rfl, forall_ofBits_of_eq (c := .pl) rfl ?_,
    forall_ofBits_of_eq (c := .vs) rfl .rfl, forall_ofBits_of_eq (c := .vc) rfl ?_, forall_ofBits_of_eq (c := .hi) rfl ?_,
    forall_ofBits_of_eq (c := .ls) rfl ?_, forall_ofBits_of_eq (c := .ge) rfl ?_, forall_ofBits_of_eq (c := .lt) rfl ?_,
    forall_ofBits_of_eq (c := .gt) rfl ?_, forall_ofBits_of_eq (c := .le) rfl ?_, forall_ofBits_of_eq (c := .al) rfl rfl,
    ⟨rfl, fun _ => rfl⟩, fun b hb => Option.ne_none_iff_exists'.mp (mt Cond.ofBits_eq_none hb), fun _ _ => rfl⟩
  all_goals simp [condHolds, State.n, State.z, State.c, State.v]

/-! ### One step -/

section
variable {s : State} {ia : Word} (hpc : s.pc = ia)
include hpc

theorem fetch_arm_ok (ht : s.t = false) {w : Word} (h : s.word ia = .ok w) :
    fetch s = .ok (decodeArm w, s.setPc (ia + 4#32)) := by
  unfold State.word at h
  simp [fetch, ht, fetchArm, hpc, h]

theorem fetch_thumb_ok (ht : s.t = true) {h : Half} (hh : s.half ia = .ok h) (hp : isPairFirst h = false) :
    fetch s = .ok (decodeThumb h 0#16, s.setPc (ia + 2#32)) := by
  unfold State.half at hh
  simp [fetch, ht, fetchThumb, hpc, hh, hp]

theorem fetch_pair_ok (ht : s.t = true) {h h2 : Half} (hh : s.half ia = .ok h) (hp : isPairFirst h = true)
    (hh2 : s.half (ia + 2#32) = .ok h2) : fetch s = .ok (decodeThumb h h2, s.setPc (ia + 2#32)) := by
  unfold State.half at hh hh2
  simp [fetch, ht, fetchThumb, hpc, hh, hp, hh2]

end

theorem hasBreakpoint_clearPcTag (s : State) (a : Word) : (clearPcTag s).hasBreakpoint a = decide (a ∈ s.breakpoints) := by
  simp [State.hasBreakpoint, (kept_clearPcTag s).breakpoints]

theorem clearPcTag_clearPcTag (s : State) : clearPcTag (clearPcTag s) = clearPcTag s := by
  rw [clearPcTag, clearPcTag_pc, BitVec.and_assoc, BitVec.and_self, clearPcTag, setPc_setPc]

section
variable {s : State} (hs : s.stop = none)
include hs

/-- A step whose fetch succeeds runs the instruction; the second write of x[15] leaves nothing of the first. -/
theorem step_of_fetch_ok (hb : (s.pc &&& 0xFFFFFFFE#32) ∉ s.breakpoints) {i : Instr} {v : Word}
    (h : fetch (clearPcTag s) = .ok (i, (clearPcTag s).setPc v)) : step s = exec i (s.setPc v) := by
  have hset : (clearPcTag s).setPc v = s.setPc v := setPc_setPc s _ v
  simp [step, hs, hasBreakpoint_clearPcTag, hb, h, hset]

theorem step_of_breakpoint (hb : (s.pc &&& 0xFFFFFFFE#32) ∈ s.breakpoints) :
    step s = .fault (.breakpoint (s.pc &&& 0xFFFFFFFE#32) (clearPcTag s)) := by
  simp [step, hs, hasBreakpoint_clearPcTag, hb]

/-- A step begins by clearing bit 0 of x[15] (R170), so that bit does not matter to it. -/
theorem step_clearPcTag : step (clearPcTag s) = step s := by
  have hs' : (clearPcTag s).stop = none := hs
  simp only [step, hs, hs', clearPcTag_clearPcTag]

end

/-- Settles O5: clearing bit 0 of x[15] changes no byte, so the word read at ia is the one fetched. -/
theorem armStepRunsTheFetchedWord : Obligations.ArmStepRunsTheFetchedWord := fun s _ hs ht hb hw =>
  step_of_fetch_ok hs hb (fetch_arm_ok (clearPcTag_pc s) ht hw)

/-- Settles O6: as O5, the fetch of one halfword or of a pair. -/
theorem thumbStepRunsTheFetchedHalfwords : Obligations.ThumbStepRunsTheFetchedHalfwords := fun s _ hs ht hb hh =>
  ⟨fun hp => step_of_fetch_ok hs hb (fetch_thumb_ok (clearPcTag_pc s) ht hh hp),
   fun _ hp hh2 => step_of_fetch_ok hs hb (fetch_pair_ok (clearPcTag_pc s) ht hh hp hh2)⟩

/-- Settles O7: the state the halt leaves differs from `s` in bit 0 of x[15] alone, which does not matter to a step. -/
theorem breakpointHaltsBeforeTheFetch : Obligations.BreakpointHaltsBeforeTheFetch := fun _ hs hb =>
  ⟨step_of_breakpoint hs hb, step_clearPcTag hs⟩

end Sys2Proof.Machine
end

section
/-! PROOFS. Flags and shifts (41_shifter_flags.md): the helpers' C and V as overflow of unbounded sums (R200 to R204, R208, R212),
the two shifters bit by bit (R207, R209, R211, R213), and the Thumb shifts that use them (R331 to R333, R344 to R346, R349). -/

namespace Sys2Proof.Machine

/-! ### Flags as unbounded sums -/

theorem zOf_eq_decide (r : Word) : zOf r = decide (r = 0#32) := rfl

/-- R200: a carry out is a sum that needs more than 32 bits. -/
theorem carryFrom_eq_decide (a b : Word) : carryFrom a b = decide (2 ^ 32 ≤ a.toNat + b.toNat) := by
  rw [carryFrom, BitVec.toNat_add, decide_eq_decide]
  omega

theorem not_borrowFrom (a b : Word) : (!borrowFrom a b) = decide (b.toNat ≤ a.toNat) := by
  simp [borrowFrom, ← decide_not]

/-- R202's sign rule, the library's overflow of a signed sum. -/
theorem overflowFrom_eq_saddOverflow (a b : Word) : overflowFrom a b = a.saddOverflow b := by
  simp only [overflowFrom, BitVec.saddOverflow_eq, BitVec.msb_eq_getLsbD_last]
  rfl

theorem overflowFrom_eq_decide (a b : Word) :
    overflowFrom a b = decide (a.toInt + b.toInt < -2 ^ 31 ∨ 2 ^ 31 ≤ a.toInt + b.toInt) := by
  rw [overflowFrom_eq_saddOverflow, BitVec.saddOverflow, ← Bool.decide_or, decide_eq_decide]
  exact Or.comm

/-- Subtract's V is the overflow of the difference wherever the operand can be negated (R204). -/
theorem overflowFrom_neg_eq_decide (a : Word) {b : Word} (hb : b ≠ 0x80000000#32) :
    overflowFrom a (0#32 - b) = decide (a.toInt - b.toInt < -2 ^ 31 ∨ 2 ^ 31 ≤ a.toInt - b.toInt) := by
  have hneg : (0#32 - b).toInt = -b.toInt := by rw [BitVec.zero_sub, BitVec.toInt_neg_of_ne_intMin hb]
  rw [overflowFrom_eq_decide, hneg, ← Int.sub_eq_add_neg]

/-- Subtract's V corner (R204): 0x80000000 is its own negation, and adding it overflows exactly from below 0. -/
theorem overflowFrom_neg_intMin (a : Word) : overflowFrom a (0#32 - 0x80000000#32) = a.getLsbD 31 := by
  have hmin : (0#32 - 0x80000000#32 : Word).toInt = -2 ^ 31 := by decide
  have hsign : a.getLsbD 31 = decide (a.toInt < 0) := (BitVec.msb_eq_getLsbD_last a).symm.trans BitVec.msb_eq_toInt
  have hlt : a.toInt < 2 ^ 31 := BitVec.toInt_lt
  rw [overflowFrom_eq_decide, hmin, hsign, decide_eq_decide]
  omega

/-- Settles O31: each helper's flag by its lemma, Subtract's V apart at 0x80000000. -/
theorem additionAndSubtractFlags : Obligations.AdditionAndSubtractFlags := by
  refine fun a b => ⟨⟨rfl, zOf_eq_decide _, carryFrom_eq_decide a b, overflowFrom_eq_decide a b⟩,
    rfl, ?_, not_borrowFrom a b, overflowFrom_neg_eq_decide a, ?_⟩
  · simp only [subtractFlags, zOf_eq_decide, BitVec.sub_eq_iff_eq_add, BitVec.zero_add]
  · rintro rfl
    exact overflowFrom_neg_intMin a

/-! ### The carry chain (R208) -/

theorem bitWord_not (c : Bool) : bitWord (!c) = BitVec.ofNat 32 (if c then 0 else 1) := by cases c <;> rfl

theorem bitWord_eq_ofNat_sub (c : Bool) : bitWord c = BitVec.ofNat 32 (1 - if c then 0 else 1) := by cases c <;> rfl

theorem subCarry_eq_sub (a b : Word) (c : Bool) : subCarry a b c = a - (b + bitWord (!c)) := sub_sub a b _

/-- Under both settings N and Z are those of the result. -/
theorem subCarryFlags_nz (p : CarryChainFlags) (a b : Word) (c : Bool) :
    (subCarryFlags p a b c).n = nOf (subCarry a b c) ∧ (subCarryFlags p a b c).z = zOf (subCarry a b c) := by
  cases p with
  | combined => rw [subCarry_eq_sub]; exact ⟨rfl, rfl⟩
  | armArm => exact ⟨rfl, rfl⟩

theorem subCarryFlags_armArm_v (a b : Word) (c : Bool) :
    (subCarryFlags .armArm a b c).v = decide (a.toInt - b.toInt - (if c then 0 else 1 : Nat) < -2 ^ 31 ∨
      2 ^ 31 ≤ a.toInt - b.toInt - (if c then 0 else 1 : Nat)) := by
  cases c <;> rfl

/-- Where b + nc does not wrap it is the number b plus nc. -/
theorem toNat_add_bitWord_not {b : Word} {c : Bool} (h : ¬(b = 0xFFFFFFFF#32 ∧ c = false)) :
    (b + bitWord (!c)).toNat = b.toNat + if c then 0 else 1 := by
  cases c with
  | true => rw [bitWord_not, if_pos rfl, BitVec.add_zero, Nat.add_zero]
  | false =>
    have hb : b ≠ 0xFFFFFFFF#32 := fun hb => h ⟨hb, rfl⟩
    rw [bitWord_not, if_neg (by decide)]
    bv_omega

theorem subCarryFlags_combined_c {a b : Word} {c : Bool} (h : ¬(b = 0xFFFFFFFF#32 ∧ c = false)) :
    (subCarryFlags .combined a b c).c = (subCarryFlags .armArm a b c).c := by
  simp only [subCarryFlags, subtractFlags, not_borrowFrom, toNat_add_bitWord_not h]

/-- Settles O32: `combined` is Subtract on b + nc, whose borrow is that of the exact difference unless b + nc wraps. -/
theorem carryChainFlags : Obligations.CarryChainFlags := fun a b c =>
  ⟨congrArg (a + b + ·) (bitWord_eq_ofNat_sub c), congrArg (a - b - ·) (bitWord_not c),
    congrArg (fun nc => subtractFlags a (b + nc)) (bitWord_not c), fun p => subCarryFlags_nz p a b c, rfl,
    subCarryFlags_armArm_v a b c, subCarryFlags_combined_c⟩

/-! ### The flag laws (R212) -/

/-- Settles O33: C and V are the helpers' definitions, Z is a comparison with 0. -/
theorem flagLaws : Obligations.FlagLaws := by
  refine fun a b => ⟨BitVec.add_sub_cancel a b, ?_, beq_iff_eq, beq_iff_eq, rfl, rfl, decide_eq_true_iff, ?_, ?_⟩
  · rw [subtractFlags, BitVec.add_sub_cancel]
    exact beq_iff_eq
  · simp [additionFlags, overflowFrom]
  · simp [subtractFlags, overflowFrom]

/-! ### The shifters bit by bit -/

section
variable (n : Nat) (v : Word)

theorem shiftRegValue_lsl : shiftRegValue .lsl n v = v <<< n := by
  by_cases h : n < 32
  · exact if_pos h
  · exact (if_neg h).trans (BitVec.shiftLeft_eq_zero (by omega)).symm

theorem shiftRegValue_lsr : shiftRegValue .lsr n v = v >>> n := by
  by_cases h : n < 32
  · exact if_pos h
  · exact (if_neg h).trans (BitVec.ushiftRight_eq_zero (by omega)).symm

theorem getLsbD_sshiftRight_word {j : Nat} (hj : j < 32) :
    (v.sshiftRight n).getLsbD j = if j + n < 32 then v.getLsbD (j + n) else v.getLsbD 31 := by
  have hlt : ¬32 ≤ j := by omega
  simp only [BitVec.getLsbD_sshiftRight, hlt, Nat.add_comm n j, BitVec.msb_eq_getLsbD_last, decide_false, Bool.not_false,
    Bool.true_and, Nat.reduceSub]

/-- From 31 places on an arithmetic shift leaves copies of bit 31 alone (R213). -/
theorem sshiftRight_word_of_le {n : Nat} (h : 31 ≤ n) :
    v.sshiftRight n = if v.getLsbD 31 then 0xFFFFFFFF#32 else 0#32 := by
  have hones : (0xFFFFFFFF#32 : Word) = BitVec.allOnes 32 := rfl
  refine BitVec.eq_of_getLsbD_eq fun j hj => ?_
  have hbit : (if j + n < 32 then v.getLsbD (j + n) else v.getLsbD 31) = v.getLsbD 31 := by
    split
    · congr 1; omega
    · rfl
  rw [getLsbD_sshiftRight_word n v hj, hbit, hones]
  cases v.getLsbD 31 with
  | false => exact BitVec.getLsbD_zero.symm
  | true => exact (BitVec.getLsbD_allOnes.trans (decide_eq_true hj)).symm

theorem shiftRegValue_asr : shiftRegValue .asr n v = v.sshiftRight n := by
  by_cases h : n < 32
  · exact if_pos h
  · exact (if_neg h).trans (sshiftRight_word_of_le v (by omega)).symm

theorem shiftRegValue_ror : shiftRegValue .ror n v = v.rotateRight n := BitVec.rotateRight_mod_eq_rotateRight

/-- R211: what ShiftReg puts in each bit, for every amount. -/
theorem getLsbD_shiftRegValue {j : Nat} (hj : j < 32) :
    (shiftRegValue .lsl n v).getLsbD j = (decide (n ≤ j) && v.getLsbD (j - n)) ∧
    (shiftRegValue .lsr n v).getLsbD j = v.getLsbD (j + n) ∧
    (shiftRegValue .asr n v).getLsbD j = (if j + n < 32 then v.getLsbD (j + n) else v.getLsbD 31) ∧
    (shiftRegValue .ror n v).getLsbD j = v.getLsbD ((j + n) % 32) := by
  refine ⟨?_, ?_, ?_, ?_⟩
  · simp only [shiftRegValue_lsl, BitVec.getLsbD_shiftLeft, hj, decide_true, Bool.true_and, ← decide_not, Nat.not_lt]
  · rw [shiftRegValue_lsr, BitVec.getLsbD_ushiftRight, Nat.add_comm]
  · rw [shiftRegValue_asr, getLsbD_sshiftRight_word n v hj]
  · rw [shiftRegValue_ror, getLsbD_rotateRight_word v n hj]

end

theorem shiftRegValue_zero (ty : ShiftType) (v : Word) : shiftRegValue ty 0 v = v := by
  cases ty with
  | lsl => exact BitVec.shiftLeft_zero v
  | lsr => exact BitVec.ushiftRight_zero v
  | asr => exact BitVec.sshiftRight_zero
  | ror =>
    refine BitVec.eq_of_getLsbD_eq fun j hj => ?_
    rw [shiftRegValue_ror, getLsbD_rotateRight_word v 0 hj, Nat.add_zero, Nat.mod_eq_of_lt hj]

/-- The two shifters give one value, amount 0 included (R207, R209, R211); their C differs past 31. -/
theorem shiftRegValue_eq_shiftValue (ty : ShiftType) (n : Nat) (v : Word) : shiftRegValue ty n v = shiftValue ty n v := by
  by_cases h0 : n = 0
  · subst h0
    exact shiftRegValue_zero ty v
  · cases ty with
    | lsl => exact (shiftRegValue_lsl n v).trans (if_neg h0).symm
    | lsr => exact (shiftRegValue_lsr n v).trans (if_neg h0).symm
    | asr => exact (shiftRegValue_asr n v).trans (if_neg h0).symm
    | ror => exact (shiftRegValue_ror n v).trans (if_neg h0).symm

theorem shiftCarry_of_ne {n : Nat} (h : n ≠ 0) (v : Word) :
    shiftCarry .lsl n v = some (v.getLsbD (32 - n)) ∧ shiftCarry .lsr n v = some (v.getLsbD (n - 1)) ∧
      shiftCarry .asr n v = some (v.getLsbD (n - 1)) ∧ shiftCarry .ror n v = none :=
  ⟨if_neg h, if_neg h, if_neg h, if_neg h⟩

theorem shiftRegCarry_ror (n : Nat) (v : Word) : shiftRegCarry .ror n v = none := ite_self none

/-- R211: the last bit shifted out, for amounts 1 to 32. -/
theorem shiftRegCarry_of_le {n : Nat} (h1 : 1 ≤ n) (h32 : n ≤ 32) (v : Word) :
    shiftRegCarry .lsl n v = some (v.getLsbD (32 - n)) ∧ shiftRegCarry .lsr n v = some (v.getLsbD (n - 1)) ∧
      shiftRegCarry .asr n v = some (v.getLsbD (n - 1)) := by
  have h0 : n ≠ 0 := by omega
  have hasr : (if n < 32 then v.getLsbD (n - 1) else v.getLsbD 31) = v.getLsbD (n - 1) := by
    split
    · rfl
    · congr 1; omega
  simp only [shiftRegCarry, if_neg h0, if_pos h32, hasr, and_self]

/-- R211: past 32 places LSL and LSR shift out 0, ASR bit 31. -/
theorem shiftRegCarry_of_gt {n : Nat} (h : 32 < n) (v : Word) :
    shiftRegCarry .lsl n v = some false ∧ shiftRegCarry .lsr n v = some false ∧
      shiftRegCarry .asr n v = some (v.getLsbD 31) := by
  have h0 : n ≠ 0 := by omega
  have hle : ¬n ≤ 32 := by omega
  have hlt : ¬n < 32 := by omega
  simp only [shiftRegCarry, if_neg h0, if_neg hle, if_neg hlt, and_self]

theorem shiftRegCarry_eq_shiftCarry (ty : ShiftType) {n : Nat} (h1 : 1 ≤ n) (h31 : n ≤ 31) (v : Word) :
    shiftRegCarry ty n v = shiftCarry ty n v := by
  obtain ⟨hlsl, hlsr, hasr⟩ := shiftRegCarry_of_le h1 (by omega) v
  obtain ⟨hlsl', hlsr', hasr', hror'⟩ := shiftCarry_of_ne (show n ≠ 0 by omega) v
  cases ty with
  | lsl => exact hlsl.trans hlsl'.symm
  | lsr => exact hlsr.trans hlsr'.symm
  | asr => exact hasr.trans hasr'.symm
  | ror => exact (shiftRegCarry_ror n v).trans hror'.symm

/-- Settles O34: the barrel shifter's bits are those of ShiftReg. -/
theorem barrelShifterBits : Obligations.BarrelShifterBits := by
  refine fun v amt _ => ⟨fun _ => ⟨rfl, rfl⟩, fun j hj => ?_, fun h => shiftCarry_of_ne h v,
    sshiftRight_word_of_le v (Nat.le_refl 31)⟩
  simp only [← shiftRegValue_eq_shiftValue]
  exact getLsbD_shiftRegValue amt v hj

theorem shiftAmount_eq_mod (rs : LowReg) (s : State) : shiftAmount rs s = (s.reg (low rs)).toNat % 256 :=
  BitVec.extractLsb'_toNat ..

/-- Settles O35: the bits and the C of every amount, and agreement with the barrel shifter. -/
theorem registerShiftBits : Obligations.RegisterShiftBits := fun v n =>
  ⟨fun _ hj => getLsbD_shiftRegValue n v hj, fun _ => rfl, shiftRegCarry_ror n v,
    fun h1 h32 => shiftRegCarry_of_le h1 h32 v, fun h => shiftRegCarry_of_gt h v,
    fun ty h1 h31 => ⟨shiftRegValue_eq_shiftValue ty n v, shiftRegCarry_eq_shiftCarry ty h1 h31 v⟩,
    shiftAmount_eq_mod⟩

/-! ### The Thumb shifts -/

/-- R210, R211: an instruction that is one shift writes Rd, N, Z and the shifter's C where it gives one. -/
theorem nzEffect_of_thumbShift {i : Instr} {rd : RegNum} {r : Word} {c : Option Bool} {s : State}
    (h : exec i s = .next (thumbShift r c rd s)) : NzEffect i rd r (c.getD s.c) s := by
  have hbit (k : Nat) : (thumbShift r c rd s).cpsr.getLsbD k =
      if k = 30 then zOf r else if k = 31 then nOf r else if k = 29 then c.getD s.c else s.cpsr.getLsbD k := by
    rw [thumbShift, getLsbD_setNZ, setReg_cpsr, getLsbD_putC]
    rfl
  refine ⟨_, h, ⟨?_, fun q hq => ?_, fun _ => ?_, ?_⟩, ⟨hbit 31, hbit 30⟩, hbit 29, fun k hk => ?_⟩
  · simp [thumbShift]
  · have hne : q ≠ rd := by simpa using hq
    simp [thumbShift, reg_setReg_ne, hne]
  · simp [thumbShift, State.byte]
  · simp [thumbShift, restKept]
  · simp only [List.mem_cons, List.not_mem_nil, or_false, not_or] at hk
    obtain ⟨h31, h30, h29⟩ := hk
    rw [hbit, if_neg h30, if_neg h31, if_neg h29]

/-- Settles O53: each is one shift by its shifter's value and C; ROR gives no C. -/
theorem thumbShifts : Obligations.ThumbShifts := by
  intro rs rd s v d n
  have hror : (shiftRegCarry .ror n d).getD s.c = s.c := by rw [shiftRegCarry_ror]; rfl
  refine ⟨fun _ => ⟨nzEffect_of_thumbShift rfl, nzEffect_of_thumbShift rfl, nzEffect_of_thumbShift rfl⟩,
    nzEffect_of_thumbShift rfl, nzEffect_of_thumbShift rfl, nzEffect_of_thumbShift rfl, ?_⟩
  rw [← hror]
  exact nzEffect_of_thumbShift rfl

end Sys2Proof.Machine
end

section
/-! PROOFS. ARM data processing (42_arm_dataproc.md): what each of its shared shapes leaves (the destination, the flags, the
frame), and each of the sixteen operations as one of the shapes. -/

namespace Sys2Proof.Machine

/-! ### Operand 2 and the carry -/

/-- With S = 1 forming operand 2 writes C alone (R231). -/
theorem getLsbD_afterOperand2_true (o : Operand2) (s : State) (k : Nat) :
    (afterOperand2 true o s).cpsr.getLsbD k = if k = 29 then operand2C o s else s.cpsr.getLsbD k := by
  simp [getLsbD_afterOperand2, operand2C, State.c]

/-- The carry-in is the C that stands once operand 2 is formed (R208). -/
theorem afterOperand2_c (sbit : Bool) (o : Operand2) (s : State) : (afterOperand2 sbit o s).c = carryIn sbit o s := by
  cases sbit with
  | false => rfl
  | true => exact getLsbD_afterOperand2_true o s 29

/-! ### The frame -/

theorem Kept.restKept {s t : State} (h : Kept s t) : restKept s t := ⟨h.spsr, h.breakpoints, h.stop, h.config⟩

theorem bytesKept_of_mem {s t : State} (h : t.mem = s.mem) : bytesKept s t := fun b => congrArg (·.read8 b) h

/-- Whatever the status register becomes, writing Rd once operand 2 is formed changes no other register and no byte. -/
theorem writesReg_afterOperand2 (sbit : Bool) (rd : RegNum) (r : Word) (o : Operand2) (s : State) (w : Word) :
    writesReg rd r s { (afterOperand2 sbit o s).setReg rd r with cpsr := w } := by
  refine ⟨reg_setReg_same _ rd r, fun q hq => ?_, bytesKept_of_mem (afterOperand2_mem sbit o s), ?_⟩
  · exact (reg_setReg_ne _ r (List.ne_of_not_mem_cons hq)).trans (afterOperand2_reg sbit o s q)
  · exact ((kept_afterOperand2 sbit o s).trans (kept_setReg _ rd r)).restKept

/-! ### The flags: an instruction with S = 1 writes them over what operand 2 left -/

section
variable {o : Operand2} {s u : State} (hu : u.cpsr = (afterOperand2 true o s).cpsr)
include hu

/-- N and Z of `r` are written, C is the shifter's, V stays (R233). -/
theorem flags_of_setNZ (r : Word) :
    nzOf r (u.setNZ r) ∧ (u.setNZ r).c = operand2C o s ∧ cpsrKept [31, 30, 29] s (u.setNZ r) := by
  have hbit (k : Nat) : (u.setNZ r).cpsr.getLsbD k =
      if k = 30 then zOf r else if k = 31 then nOf r else if k = 29 then operand2C o s else s.cpsr.getLsbD k := by
    rw [getLsbD_setNZ, hu, getLsbD_afterOperand2_true]
  refine ⟨⟨hbit 31, hbit 30⟩, hbit 29, fun k hk => ?_⟩
  simp only [List.mem_cons, List.not_mem_nil, or_false, not_or] at hk
  obtain ⟨h31, h30, h29⟩ := hk
  rw [hbit, if_neg h30, if_neg h31, if_neg h29]

/-- All four flags are the helper's: its C replaces the shifter's. -/
theorem flagsAre_setNZCV (f : Nzcv) : flagsAre f s (u.setNZCV f) := by
  have hbit := getLsbD_setNZCV u f
  refine ⟨hbit 31, hbit 30, hbit 29, hbit 28, fun k hk => ?_⟩
  simp only [List.mem_cons, List.not_mem_nil, or_false, not_or] at hk
  obtain ⟨h31, h30, h29, h28⟩ := hk
  rw [hbit, if_neg h28, if_neg h29, if_neg h30, if_neg h31, hu, getLsbD_afterOperand2_true, if_neg h29]

end

/-! ### The shared shapes -/

section
variable {i : Instr} {s : State} {o : Operand2}

theorem logicEffect_of_dpLogic {sbit : Bool} {rn rd : RegNum} (f : Word → Word → Word)
    (h : exec i s = .next (dpLogic f sbit rn rd o s)) :
    LogicEffect i sbit rd (f (s.reg rn) (operand2Value o s)) o s := by
  refine ⟨_, h, ?_⟩
  cases sbit with
  | false => exact ⟨writesReg_afterOperand2 false rd _ o s _, fun _ => rfl, nofun⟩
  | true => exact ⟨writesReg_afterOperand2 true rd _ o s _, nofun, fun _ => flags_of_setNZ rfl _⟩

theorem arithEffect_of_dpArith {r : Word} {f : Nzcv} {sbit : Bool} {rd : RegNum} (o : Operand2)
    (h : exec i s = .next (dpArith r f sbit rd o s)) : ArithEffect i sbit rd r f s := by
  refine ⟨_, h, ?_⟩
  cases sbit with
  | false => exact ⟨writesReg_afterOperand2 false rd r o s _, fun _ => rfl, nofun⟩
  | true => exact ⟨writesReg_afterOperand2 true rd r o s _, nofun, fun _ => flagsAre_setNZCV rfl f⟩

theorem testEffect_of_dpTest {rn : RegNum} (f : Word → Word → Word) (h : exec i s = .next (dpTest f rn o s)) :
    TestEffect i (f (s.reg rn) (operand2Value o s)) (operand2C o s) s := by
  obtain ⟨hnz, hc, hcpsr⟩ := flags_of_setNZ (s := s) rfl (f (s.reg rn) (operand2Value o s))
  exact ⟨_, h, fun q _ => afterOperand2_reg true o s q, hnz, hc, hcpsr, bytesKept_of_mem (afterOperand2_mem true o s),
    (kept_dpTest f rn o s).restKept⟩

theorem compareEffect_of_dpCompare {f : Nzcv} (o : Operand2) (h : exec i s = .next (dpCompare f o s)) : CompareEffect i f s :=
  ⟨_, h, fun q _ => afterOperand2_reg true o s q, flagsAre_setNZCV rfl f, bytesKept_of_mem (afterOperand2_mem true o s),
    (kept_dpCompare f o s).restKept⟩

end

/-- ADC is a logical operation in its flags: its carry-in apart, it writes N and Z only (R239). -/
theorem dpAdc_eq_dpLogic (sbit : Bool) (rn rd : RegNum) (o : Operand2) (s : State) :
    dpAdc sbit rn rd o s = dpLogic (fun a b => addCarry a b (carryIn sbit o s)) sbit rn rd o s := by
  rw [← afterOperand2_c]
  rfl

/-! ### The sixteen operations -/

/-- Settles O39: TST and TEQ write the flags of a result, CMP and CMN those of their helper. -/
theorem armCompares : Obligations.ArmCompares := fun _ rn _ o _ hc =>
  ⟨testEffect_of_dpTest (· &&& ·) (whenPasses_pass_next hc (dpTst rn o)),
    testEffect_of_dpTest (· ^^^ ·) (whenPasses_pass_next hc (dpTeq rn o)),
    compareEffect_of_dpCompare o (whenPasses_pass_next hc (dpCmp rn o)),
    compareEffect_of_dpCompare o (whenPasses_pass_next hc (dpCmn rn o))⟩

/-- Settles O37: each is the logical shape at its function, ADC at the sum with the carry-in. -/
theorem armLogicalOperations : Obligations.ArmLogicalOperations := by
  intro c sbit rn rd o s hc
  refine ⟨logicEffect_of_dpLogic (· &&& ·) (whenPasses_pass_next hc (dpAnd sbit rn rd o)),
    logicEffect_of_dpLogic (· ^^^ ·) (whenPasses_pass_next hc (dpEor sbit rn rd o)),
    logicEffect_of_dpLogic (· ||| ·) (whenPasses_pass_next hc (dpOrr sbit rn rd o)),
    logicEffect_of_dpLogic (fun a b => a &&& ~~~b) (whenPasses_pass_next hc (dpBic sbit rn rd o)),
    logicEffect_of_dpLogic (fun _ b => b) (whenPasses_pass_next hc (dpMov sbit rn rd o)),
    logicEffect_of_dpLogic (fun _ b => ~~~b) (whenPasses_pass_next hc (dpMvn sbit rn rd o)),
    logicEffect_of_dpLogic (fun a b => addCarry a b (carryIn sbit o s)) ?_⟩
  rw [← dpAdc_eq_dpLogic]
  exact whenPasses_pass_next hc (dpAdc sbit rn rd o)

/-- Settles O38: each is the arithmetic shape at its result and flags; SBC and RSC take the C that operand 2 left. -/
theorem armArithmetic : Obligations.ArmArithmetic := by
  intro c sbit rn rd o s hc a b ci
  have hci : (afterOperand2 sbit o s).c = ci := afterOperand2_c sbit o s
  rw [← hci]
  exact ⟨arithEffect_of_dpArith o (whenPasses_pass_next hc (dpSub sbit rn rd o)),
    arithEffect_of_dpArith o (whenPasses_pass_next hc (dpRsb sbit rn rd o)),
    arithEffect_of_dpArith o (whenPasses_pass_next hc (dpAdd sbit rn rd o)),
    arithEffect_of_dpArith o (whenPasses_pass_next hc (dpSbc sbit rn rd o)),
    arithEffect_of_dpArith o (whenPasses_pass_next hc (dpRsc sbit rn rd o))⟩

end Sys2Proof.Machine
end

section
/-! PROOFS. ARM transfers that complete (43_arm_transfer.md). An instruction here is one access, or one run of accesses, and then
the writeback (R277, R284); LDM and STM write back as a pre-indexed transfer does, by W alone, and a transfer without a writeback is one
with P = 1 and W = 0. -/

namespace Sys2Proof.Machine

/-! ### The writeback -/

section
variable {p w : Bool} {rn : RegNum} {x : Word}

theorem reg_writeback_base (h : wb p w = true) (t : State) : (writeback p w rn x t).reg rn = x :=
  (reg_writeback p w rn rn x t).trans (if_pos ⟨h, rfl⟩)

theorem reg_writeback_other {r : RegNum} (h : ¬(wb p w = true ∧ r = rn)) (t : State) : (writeback p w rn x t).reg r = t.reg r :=
  (reg_writeback p w rn r x t).trans (if_neg h)

/-- Beyond the registers an access has changed, the writeback changes the base alone. -/
theorem regsKept_writeback {changed : List RegNum} {s t : State} (h : regsKept changed s t) :
    regsKept (if wb p w then changed ++ [rn] else changed) s (writeback p w rn x t) := by
  intro r hr
  have hboth : r ∉ changed ∧ ¬(wb p w = true ∧ r = rn) := by
    cases hb : wb p w with
    | false => exact ⟨by simpa [hb] using hr, by simp⟩
    | true => simpa [hb] using hr
  obtain ⟨hchanged, hbase⟩ := hboth
  rw [reg_writeback_other hbase, h r hchanged]

@[simp] theorem byte_writeback (t : State) (a : Word) : (writeback p w rn x t).byte a = t.byte a := by simp [State.byte]
@[simp] theorem half_writeback (t : State) (a : Word) : (writeback p w rn x t).half a = t.half a := by simp [State.half]
@[simp] theorem word_writeback (t : State) (a : Word) : (writeback p w rn x t).word a = t.word a := by simp [State.word]

theorem restKept_writeback {s t : State} (h : Kept s t) : restKept s (writeback p w rn x t) :=
  (h.trans (kept_writeback p w rn x t)).restKept

end

/-! ### Loads -/

/-- Forming the offset changes no byte, so what is loaded after it is what stood there before. -/
@[simp] theorem byte_afterOffset (l : Bool) (off : Offset) (s : State) (a : Word) : (afterOffset l off s).byte a = s.byte a := by
  simp [State.byte]
@[simp] theorem word_afterOffset (l : Bool) (off : Offset) (s : State) (a : Word) : (afterOffset l off s).word a = s.word a := by
  simp [State.word]

theorem loadByte_eq_setReg (a : Word) (rd : RegNum) (s : State) : loadByte a rd s = s.setReg rd ((s.byte a).setWidth 32) := rfl

section
variable {i : Instr} {rd : RegNum} {v : Word} {s : State}

theorem regEffect_of_setReg (h : exec i s = .next (s.setReg rd v)) : RegEffect i rd v s := by
  refine ⟨_, h, ⟨reg_setReg_same s rd v, fun r hr => ?_, fun _ => rfl, (kept_setReg s rd v).restKept⟩, rfl⟩
  exact reg_setReg_ne s v (by simpa using hr)

/-- A load whose access can happen and that ends with it. -/
theorem regEffect_of_loadWord {a : Word} (h : exec i s = finish (loadWord (siteOf i s) a rd s) fun t => t)
    (ha : s.accessOk a 4) : ∃ v, s.word a = .ok v ∧ RegEffect i rd v s := by
  obtain ⟨v, hv⟩ := word_ok ha
  refine ⟨v, hv, regEffect_of_setReg ?_⟩
  rw [h, loadWord_ok hv]
  rfl

/-- A load in the general form: the offset's C, then Rd, then the base, which wins where it is Rd (R277). -/
theorem loadEffect_of_writeback {p w : Bool} {rn : RegNum} {target : Word} {off : Offset}
    (h : exec i s = .next (writeback p w rn target ((afterOffset true off s).setReg rd v))) :
    LoadEffect i rd v (wb p w) rn target (offsetC off s) s := by
  have hcpsr (k : Nat) : (writeback p w rn target ((afterOffset true off s).setReg rd v)).cpsr.getLsbD k =
      if k = 29 then offsetC off s else s.cpsr.getLsbD k := by
    rw [writeback_cpsr, setReg_cpsr, getLsbD_afterOffset]
  have hloaded : regsKept [rd] s ((afterOffset true off s).setReg rd v) := fun r hr => by
    rw [reg_setReg_ne _ _ (by simpa using hr), afterOffset_reg]
  refine ⟨_, h, fun hne => ?_, fun hb => reg_writeback_base hb _, regsKept_writeback hloaded, hcpsr 29, fun k hk => ?_,
    fun b => ?_, restKept_writeback ((kept_afterOffset true off s).trans (kept_setReg _ rd v))⟩
  · rw [reg_writeback_other hne, reg_setReg_same]
  · exact (hcpsr k).trans (if_neg (by simpa using hk))
  · rw [byte_writeback]
    exact byte_afterOffset true off s b

variable {p u w : Bool} {rn : RegNum} {off : Offset}

theorem loadEffect_of_ldrGeneral (h : exec i s = ldrGeneral (siteOf i s) p u w rn rd off s)
    (ha : s.accessOk (transferAddr p u rn off s) 4) : ∃ v, s.word (transferAddr p u rn off s) = .ok v ∧
      LoadEffect i rd v (wb p w) rn (transferTarget u rn off s) (offsetC off s) s := by
  obtain ⟨v, hv⟩ := word_ok ha
  refine ⟨v, hv, loadEffect_of_writeback ?_⟩
  rw [h, ldrGeneral, loadWord_ok ((word_afterOffset true off s _).trans hv)]
  rfl

theorem loadEffect_of_ldrbGeneral (h : exec i s = ldrbGeneral p u w rn rd off s) :
    LoadEffect i rd ((s.byte (transferAddr p u rn off s)).setWidth 32) (wb p w) rn (transferTarget u rn off s)
      (offsetC off s) s := by
  rw [ldrbGeneral, loadByte_eq_setReg, byte_afterOffset] at h
  exact loadEffect_of_writeback h

end

theorem exec_armLdrLit_byte {c : Cond} {s : State} (hc : condHolds c s = true) {i : Bool} {imm12 : BitVec 12}
    (hext : i = true → imm12.getLsbD 4 = true → s.config.extension = .document) (p u w : Bool) (rd : RegNum) :
    exec (.armLdrLit c i p u true w rd imm12) s = .next (s.setReg rd ((s.byte (literalAddr imm12 s)).setWidth 32)) := by
  dsimp only [exec, execArmLdrLit]
  rw [whenPasses_pass hc, refuseWhen_runs (by simpa using hext)]
  rfl

/-- Settles O45: LDR and LDRB are the load in the general form, the R15-based load writes Rd alone. -/
theorem armLoads : Obligations.ArmLoads := by
  refine fun c p u w rn rd s hc => ⟨fun off => ⟨fun ha => ?_, ?_⟩, fun i imm12 hext => ⟨fun ha => ?_, ?_⟩⟩
  · exact loadEffect_of_ldrGeneral (whenPasses_pass hc _) ha
  · exact loadEffect_of_ldrbGeneral (whenPasses_pass hc _)
  · exact regEffect_of_loadWord (exec_armLdrLit_word hc hext p u w rd) ha
  · exact regEffect_of_setReg (exec_armLdrLit_byte hc hext p u w rd)

/-! ### Stores -/

/-- The `n` bytes at `a` read as those of `v`. -/
def readsAs (n : Nat) (a v : Word) (t : State) : Prop :=
  (n = 1 → t.byte a = v.extractLsb' 0 8) ∧ (n = 2 → t.half a = .ok (v.extractLsb' 0 16)) ∧ (n = 4 → t.word a = .ok v)

theorem readsAs_byte {a v : Word} {t : State} (h : t.byte a = v.extractLsb' 0 8) : readsAs 1 a v t := ⟨fun _ => h, nofun, nofun⟩
theorem readsAs_word {a v : Word} {t : State} (h : t.word a = .ok v) : readsAs 4 a v t := ⟨nofun, nofun, fun _ => h⟩

section
variable {i : Instr} {s : State} {a v : Word} {p w : Bool} {rn : RegNum} {target : Word}

/-- A store of bytes that lie inside their space, and then the writeback: what is read back where it is mapped, and the frame. -/
theorem storeEffect_of_store {bs : List Byte} {n : Nat} (hlen : bs.length = n)
    (h : exec i s = .next (writeback p w rn target { s with mem := s.mem.store a bs }))
    (hin : ∀ sp, s.mem.lookup a = some sp → a.toNat + bs.length ≤ sp.top)
    (hread : s.mapped a → readsAs n a v { s with mem := s.mem.store a bs }) :
    StoreEffect i a n v (wb p w) rn target s := by
  refine ⟨_, h, fun hb => reg_writeback_base hb _, regsKept_writeback (changed := []) fun _ _ => rfl, writeback_cpsr ..,
    fun b hb => ?_, fun hm => ?_, fun hm b => ?_, restKept_writeback (kept_store s hin)⟩
  · rw [byte_writeback]
    exact byte_store_outside (by rwa [hlen])
  · rw [byte_writeback, half_writeback, word_writeback]
    exact hread hm
  · rw [byte_writeback, store_unmapped (Option.not_isSome_iff_eq_none.1 hm)]

theorem storeEffect_of_storeWord (hw : s.mem.wf = true)
    (h : exec i s = finish (storeWord (siteOf i s) a v s) (writeback p w rn target)) (ha : s.accessOk a 4) :
    StoreEffect i a 4 v (wb p w) rn target s := by
  rw [storeWord_ok ha] at h
  exact storeEffect_of_store rfl h ha.2 fun hm => readsAs_word (word_store_same hw ha hm v)

theorem storeEffect_of_storeByte (hw : s.mem.wf = true) (h : exec i s = .next (writeback p w rn target (storeByte a v s))) :
    StoreEffect i a 1 v (wb p w) rn target s :=
  storeEffect_of_store rfl h (fun _ hsp => Nat.succ_le_of_lt (lookup_some hsp).2) fun hm =>
    readsAs_byte (byte_store_same hw hm (v.extractLsb' 0 8))

end

section
variable {c : Cond} {s : State} (hc : condHolds c s = true) (p u w : Bool) (rn rd : RegNum) (off : Offset)
include hc

/-- The shifter of a store's offset writes no C (w[20] = 0, R271), so the access is the first effect. -/
theorem exec_armStr : exec (.armStr c p u w rn rd off) s =
    finish (storeWord (siteOf (.armStr c p u w rn rd off) s) (transferAddr p u rn off s) (s.reg rd) s)
      (writeback p w rn (transferTarget u rn off s)) := by
  dsimp only [exec, execArmStr]
  rw [whenPasses_pass hc, strGeneral, afterOffset_store]

theorem exec_armStrb : exec (.armStrb c p u w rn rd off) s =
    .next (writeback p w rn (transferTarget u rn off s) (storeByte (transferAddr p u rn off s) (s.reg rd) s)) := by
  dsimp only [exec, execArmStrb]
  rw [whenPasses_pass hc, strbGeneral, afterOffset_store]

end

/-- Settles O46: each is one store and the writeback. -/
theorem armStores : Obligations.ArmStores := fun _ p u w rn rd off _ hw hc =>
  ⟨storeEffect_of_storeWord hw (exec_armStr hc p u w rn rd off),
    storeEffect_of_storeByte hw (exec_armStrb hc p u w rn rd off)⟩

/-! ### Multiple transfers -/

section
variable {i : Instr} {list : BitVec 16} {start : Word} {s : State} {p w : Bool} {rn : RegNum} {final : Word}

/-- An instruction that loads a register list whose words can all be accessed, and then writes the base back. -/
theorem loadManyEffect_of_loadMany (h : slotsOk list start s)
    (hi : exec i s = finish (loadMany (siteOf i s) (regList list) start s) (writeback p w rn final)) :
    LoadManyEffect i list start (wb p w) rn final s := by
  obtain ⟨t, ht, hkept, -, hword, hreg, hcpsr, hbytes⟩ := loadMany_loads h (siteOf i s)
  rw [ht] at hi
  refine ⟨_, hi, fun r hr hne => ?_, fun hb => reg_writeback_base hb t, fun r hr hne => ?_, ?_, fun b => ?_,
    restKept_writeback hkept⟩
  · rw [reg_writeback_other hne]
    exact hword r hr r.isLt
  · rw [reg_writeback_other hne]
    exact hreg r fun hlisted => hr hlisted.1
  · rw [writeback_cpsr, hcpsr]
  · rw [byte_writeback, hbytes]

/-- A store of a register list whose words can all be accessed stores the registers, and changes nothing else. -/
theorem storeMany_stores (h : slotsOk list start s) (site : Site) :
    ∃ t, storeMany site (regList list) start s = .ok t ∧ Kept s t ∧ StoredBelow list start 16 s t := by
  have hplaces : ∀ k, k < (regList list).length → s.accessOk (start + BitVec.ofNat 32 (4 * k)) 4 := fun k hk =>
    accessOk_place (n := 16) (fun q hq _ => h q hq) le_rfl (hk.trans_eq (length_regList list))
  obtain ⟨m, hm, -, -, hbytes, -, hwords⟩ :=
    storeMany_ok (site := site) ((length_regList_le list).trans (by decide)) hplaces
  have hkept := storeMany_answers site (regList list) start s
  rw [hm] at hkept
  refine ⟨_, hm, hkept, fun hw q hq _ hmap => ?_, fun b hb => hbytes b fun k hk => ?_, fun _ _ => rfl, rfl⟩
  · have hword := hwords hw _ (placeOf_lt_length hq) hmap
    rwa [regList_getElem_placeOf hq] at hword
  · obtain ⟨hq, hplace⟩ := listed_regList hk
    have hslot := hb _ hq (BitVec.isLt _)
    rwa [slot, hplace] at hslot

/-- An instruction that stores a register list whose words can all be accessed, and then writes the base back. -/
theorem storeManyEffect_of_storeMany (hw : s.mem.wf = true) (h : slotsOk list start s)
    (hi : exec i s = finish (storeMany (siteOf i s) (regList list) start s) (writeback p w rn final)) :
    StoreManyEffect i list start (wb p w) rn final s := by
  obtain ⟨t, ht, hkept, hwords, hbytes, hregs, hcpsr⟩ := storeMany_stores h (siteOf i s)
  rw [ht] at hi
  refine ⟨_, hi, fun r hr hmap => ?_, fun b hb => ?_, fun hback => reg_writeback_base hback t, regsKept_writeback hregs, ?_,
    restKept_writeback hkept⟩
  · rw [word_writeback]
    exact hwords hw r hr r.isLt hmap
  · rw [byte_writeback]
    exact hbytes b fun q hq _ => hb q hq
  · rw [writeback_cpsr, hcpsr]

end

/-- Settles O48: a load of the register list from its start address, then the base by W. -/
theorem armLoadMultiple : Obligations.ArmLoadMultiple := fun _ p u x w rn list _ hc h =>
  loadManyEffect_of_loadMany (p := true) (w := w) h (exec_armLdm hc p u x w rn list)

/-- Settles O49: a store of the register list to its start address, then the base by W. -/
theorem armStoreMultiple : Obligations.ArmStoreMultiple := fun _ p u x w rn list _ hw hc h =>
  storeManyEffect_of_storeMany (p := true) (w := w) hw h (exec_armStm hc p u x w rn list)

end Sys2Proof.Machine
end

section
/-! PROOFS. ARM branches and status transfers, and BX in both instruction sets (44_arm_branch_system.md, 47_thumb_branch.md). A
branch here is at most a link (`withLink`), then T and x[15]; one that leaves T alone puts the T it has. -/

namespace Sys2Proof.Machine

/-! ### The link -/

/-- The state a branch leaves once its link, where it has one, is in x[14] (R300, R308). -/
def withLink (link : Option Word) (s : State) : State :=
  match link with
  | some l => s.setReg 14#4 l
  | none => s

theorem kept_withLink (link : Option Word) (s : State) : Kept s (withLink link s) := by
  cases link with
  | some l => exact kept_setReg s 14#4 l
  | none => exact .refl s

@[simp] theorem withLink_cpsr (link : Option Word) (s : State) : (withLink link s).cpsr = s.cpsr := by cases link <;> rfl
@[simp] theorem withLink_mem (link : Option Word) (s : State) : (withLink link s).mem = s.mem := by cases link <;> rfl

theorem reg_withLink {link : Option Word} {l : Word} (h : link = some l) (s : State) : (withLink link s).reg 14#4 = l := by
  subst h
  exact reg_setReg_same s 14#4 l

/-- The link and x[15] are all the registers a branch may change. -/
theorem regsKept_withLink_setPc (link : Option Word) (v : Word) (s : State) :
    regsKept (if link.isSome then [14#4, 15#4] else [15#4]) s ((withLink link s).setPc v) := by
  intro r hr
  cases link with
  | some l =>
    obtain ⟨hlr, hpc⟩ : r ≠ 14#4 ∧ r ≠ 15#4 := by simpa using hr
    exact (reg_setReg_ne _ v hpc).trans (reg_setReg_ne s l hlr)
  | none => exact reg_setReg_ne s v (by simpa using hr)

/-! ### T -/

theorem setT_t (s : State) : s.setT s.t = s := by
  have hcpsr : putBit s.cpsr 5 s.t = s.cpsr := by
    refine BitVec.eq_of_getLsbD_eq fun k _ => ?_
    rw [getLsbD_putBit _ _ _ _ (by decide)]
    split
    · next hk => rw [hk, State.t]
    · rfl
  exact congrArg (fun w => { s with cpsr := w }) hcpsr

/-! ### The shared shapes -/

section
variable {i : Instr} {s : State} {link : Option Word}

/-- The link, then T and the target: what every branch does. -/
theorem branchEffect_of_setT_setPc {v : Word} {tbit : Bool} (h : exec i s = .next (((withLink link s).setT tbit).setPc v)) :
    BranchEffect i v tbit link s := by
  have hbit (k : Nat) : (((withLink link s).setT tbit).setPc v).cpsr.getLsbD k =
      if k = 5 then tbit else s.cpsr.getLsbD k := by
    rw [setPc_cpsr, setT_cpsr, withLink_cpsr, getLsbD_putBit _ _ _ _ (by decide)]
  refine ⟨_, h, pc_setPc _ v, hbit 5, fun l hl => ?_, regsKept_withLink_setPc link v s, fun k hk => ?_,
    bytesKept_of_mem (withLink_mem link s), (kept_withLink link s).restKept⟩
  · exact (reg_setReg_ne _ v (by decide)).trans (reg_withLink hl s)
  · exact (hbit k).trans (if_neg (by simpa using hk))

theorem branchEffect_of_setPc {v : Word} (h : exec i s = .next ((withLink link s).setPc v)) : BranchEffect i v s.t link s := by
  have ht : (withLink link s).t = s.t := congrArg (·.getLsbD 5) (withLink_cpsr link s)
  refine branchEffect_of_setT_setPc ?_
  rw [h, ← ht, setT_t]

theorem branchEffect_of_branchExchange {x : Word} (h : exec i s = .next (branchExchange x (withLink link s))) :
    BranchEffect i (x &&& 0xFFFFFFFE#32) (x.getLsbD 0) link s :=
  branchEffect_of_setT_setPc h

/-- BX with a link reads Rm after the link is written, so it reads the link where Rm is x[14] (R308). -/
theorem branchEffect_of_bxEffect_link {rm : RegNum} (h : exec i s = .next (bxEffect true rm s)) :
    BranchEffect i ((if rm = 14#4 then s.pc else s.reg rm) &&& 0xFFFFFFFE#32) ((if rm = 14#4 then s.pc else s.reg rm).getLsbD 0)
      (some s.pc) s := by
  rw [← reg_setReg s 14#4 rm s.pc]
  exact branchEffect_of_branchExchange h

end

/-- An extension encoding of BX is BX or BLX by w[5] (R139). -/
theorem exec_armBxExt {c : Cond} {s : State} {sel : BitVec 4} {link : Bool} (hc : condHolds c s = true)
    (hext : s.config.extension = .document) (hsel : sel.getLsbD 1 = link) (rm : RegNum) :
    exec (.armBxExt c sel rm) s = .next (bxEffect link rm s) := by
  rw [exec, execArmBxExt, whenPasses_pass hc, refuseExtension_document hext, hsel]

theorem exec_tBxExt {s : State} (hext : s.config.extension = .document) (rm : RegNum) (low : BitVec 3) :
    exec (.tBxExt rm low) s = .next (branchExchange (s.reg rm) s) := by
  rw [exec, execTBxExt, refuseExtension_document hext]

/-! ### The branches -/

/-- Settles O43: each is the exchange with the value of Rm, read once the link, where there is one, is written. -/
theorem branchAndExchange : Obligations.BranchAndExchange := by
  intro rm s v linked
  refine ⟨fun c hc => ⟨?_, ?_, fun hext sel => ⟨fun hsel => ?_, fun hsel => ?_⟩⟩, fun low => ?_, fun hext low => ?_⟩
  · exact branchEffect_of_branchExchange (link := none) (whenPasses_pass_next hc (bxEffect false rm))
  · exact branchEffect_of_bxEffect_link (whenPasses_pass_next hc (bxEffect true rm))
  · exact branchEffect_of_branchExchange (link := none) (exec_armBxExt hc hext hsel rm)
  · exact branchEffect_of_bxEffect_link (exec_armBxExt hc hext hsel rm)
  · exact branchEffect_of_branchExchange (link := none) rfl
  · exact branchEffect_of_branchExchange (link := none) (exec_tBxExt hext rm low)

/-- Settles O42: the link of BL is the x[15] it starts with, and neither B nor BL writes T. -/
theorem armBranches : Obligations.ArmBranches := fun _ imm24 s hc =>
  ⟨branchEffect_of_setPc (link := none)
      (whenPasses_pass_next hc fun s => s.setPc (s.pc + 4#32 + armBranchOffset imm24)),
    branchEffect_of_setPc (link := some s.pc)
      (whenPasses_pass_next hc fun s => (s.setReg 14#4 s.pc).setPc (s.pc + 4#32 + armBranchOffset imm24))⟩

/-! ### The status register -/

/-- Settles O40: MRS is a write of Rd, MSR a write of the CPSR by the operand's value. -/
theorem armStatusTransfers : Obligations.ArmStatusTransfers := by
  intro c s hc
  refine ⟨fun _ _ rd _ => regEffect_of_setReg (whenPasses_pass_next hc (mrsEffect rd)), fun _ _ src => ?_⟩
  refine ⟨msrEffect (msrValue src s) s, whenPasses_pass_next hc fun s => msrEffect (msrValue src s) s, ?_, fun _ _ => rfl,
    fun _ => rfl, (kept_cpsr s _).restKept⟩
  cases src <;> rfl

end Sys2Proof.Machine
end

section
/-! PROOFS. Thumb arithmetic, logic, compares and address arithmetic (45_thumb_alu.md). The shapes are those of ARM data processing with
S = 1 where operand 2 is an immediate, which gives no C (R206, R231). -/

namespace Sys2Proof.Machine

/-! ### The shared shapes -/

section
variable {i : Instr} {rd : RegNum} {r : Word} {f : Nzcv} {s : State}

theorem thumbLogic_eq_thumbShift (r : Word) (rd : RegNum) (s : State) : thumbLogic r rd s = thumbShift r none rd s := rfl

theorem thumbArith_eq_dpArith (r : Word) (f : Nzcv) (rd : RegNum) (rot : BitVec 4) (imm8 : BitVec 8) (s : State) :
    thumbArith r f rd s = dpArith r f true rd (.imm rot imm8) s := rfl

theorem setNZ_eq_dpTest (r : Word) (rn : RegNum) (rot : BitVec 4) (imm8 : BitVec 8) (s : State) :
    s.setNZ r = dpTest (fun _ _ => r) rn (.imm rot imm8) s := rfl

theorem setNZCV_eq_dpCompare (f : Nzcv) (rot : BitVec 4) (imm8 : BitVec 8) (s : State) :
    s.setNZCV f = dpCompare f (.imm rot imm8) s := rfl

/-- A logical operation is the shape of a shift that gives no C. -/
theorem nzEffect_of_thumbLogic (h : exec i s = .next (thumbLogic r rd s)) : NzEffect i rd r s.c s := by
  rw [thumbLogic_eq_thumbShift] at h
  exact nzEffect_of_thumbShift h

theorem arithEffect_of_thumbArith (h : exec i s = .next (thumbArith r f rd s)) : ArithEffect i true rd r f s := by
  rw [thumbArith_eq_dpArith r f rd 0#4 0#8] at h
  exact arithEffect_of_dpArith _ h

theorem testEffect_of_setNZ (h : exec i s = .next (s.setNZ r)) : TestEffect i r s.c s := by
  rw [setNZ_eq_dpTest r 0#4 0#4 0#8] at h
  exact testEffect_of_dpTest (fun _ _ => r) h

theorem compareEffect_of_setNZCV (h : exec i s = .next (s.setNZCV f)) : CompareEffect i f s := by
  rw [setNZCV_eq_dpCompare f 0#4 0#8] at h
  exact compareEffect_of_dpCompare _ h

end

/-! ### The operations -/

/-- Settles O50: each is the logical shape at its result, MUL at the low 32 bits of the product. -/
theorem thumbLogicalOperations : Obligations.ThumbLogicalOperations := by
  intro rs rd s a b
  have hmul : BitVec.ofNat 32 (a.toNat * b.toNat) = a * b := rfl
  refine ⟨nzEffect_of_thumbLogic rfl, nzEffect_of_thumbLogic rfl, nzEffect_of_thumbLogic rfl, nzEffect_of_thumbLogic rfl,
    nzEffect_of_thumbLogic rfl, ?_, nzEffect_of_thumbLogic rfl, fun _ => nzEffect_of_thumbLogic rfl⟩
  rw [hmul]
  exact nzEffect_of_thumbLogic rfl

/-- Settles O51: each is the arithmetic shape at its result and its helper's flags. -/
theorem thumbArithmetic : Obligations.ThumbArithmetic := fun _ _ _ _ =>
  ⟨arithEffect_of_thumbArith rfl, arithEffect_of_thumbArith rfl,
    fun _ => ⟨arithEffect_of_thumbArith rfl, arithEffect_of_thumbArith rfl⟩,
    fun _ => ⟨arithEffect_of_thumbArith rfl, arithEffect_of_thumbArith rfl⟩,
    arithEffect_of_thumbArith rfl, arithEffect_of_thumbArith rfl⟩

/-- Settles O52: TST writes the flags of a result, every CMP and CMN those of its helper. -/
theorem thumbCompares : Obligations.ThumbCompares := fun _ _ _ =>
  ⟨testEffect_of_setNZ rfl, compareEffect_of_setNZCV rfl, compareEffect_of_setNZCV rfl,
    fun _ => compareEffect_of_setNZCV rfl, fun _ _ => compareEffect_of_setNZCV rfl⟩

/-- Settles O54: each is one write of a register. -/
theorem thumbAddressArithmetic : Obligations.ThumbAddressArithmetic := fun _ =>
  ⟨fun _ _ => ⟨regEffect_of_setReg rfl, regEffect_of_setReg rfl⟩,
    fun _ _ => ⟨regEffect_of_setReg rfl, regEffect_of_setReg rfl⟩,
    fun _ => ⟨regEffect_of_setReg rfl, regEffect_of_setReg rfl⟩⟩

end Sys2Proof.Machine
end

section
/-! PROOFS. Thumb transfers that complete (46_thumb_transfer.md). The shapes are those of the ARM transfers: a single transfer is
one without a writeback (P = 1, W = 0), a multiple transfer one with it (W = 1). POP with PC alone has a shape of its own. -/

namespace Sys2Proof.Machine

/-! ### Loads -/

/-- A halfword load whose access can happen and that ends with it. -/
theorem regEffect_of_loadHalf {i : Instr} {a : Word} {rd : RegNum} {s : State}
    (h : exec i s = finish (loadHalf (siteOf i s) a rd s) fun t => t) (ha : s.accessOk a 2) :
    ∃ v, s.half a = .ok v ∧ RegEffect i rd (v.setWidth 32) s := by
  obtain ⟨v, hv⟩ := half_ok ha
  refine ⟨v, hv, regEffect_of_setReg ?_⟩
  rw [h, loadHalf_ok hv]
  rfl

/-- The byte form's offset is the immediate itself (R378, R379). -/
theorem thumbImmAddr_zero (imm5 : BitVec 5) (rb : LowReg) (s : State) :
    thumbImmAddr 0 imm5 rb s = s.reg (low rb) + imm5.setWidth 32 := by
  rw [thumbImmAddr, scaled, BitVec.shiftLeft_zero]

/-- Settles O55: each is one load into Rd, of a word, a halfword or a byte. -/
theorem thumbLoads : Obligations.ThumbLoads := by
  refine fun ro rb rd imm5 imm8 s => ⟨regEffect_of_loadWord rfl, regEffect_of_loadWord rfl, regEffect_of_loadWord rfl,
    regEffect_of_loadWord rfl, regEffect_of_loadHalf rfl, regEffect_of_setReg rfl, ?_⟩
  rw [← thumbImmAddr_zero]
  exact regEffect_of_setReg rfl

/-! ### Stores -/

theorem readsAs_half {a v : Word} {t : State} (h : t.half a = .ok (v.extractLsb' 0 16)) : readsAs 2 a v t :=
  ⟨nofun, fun _ => h, nofun⟩

theorem storeEffect_of_storeHalf {i : Instr} {s : State} {a v : Word} {p w : Bool} {rn : RegNum} {target : Word}
    (hw : s.mem.wf = true) (h : exec i s = finish (storeHalf (siteOf i s) a v s) (writeback p w rn target))
    (ha : s.accessOk a 2) : StoreEffect i a 2 v (wb p w) rn target s := by
  rw [storeHalf_ok ha] at h
  exact storeEffect_of_store rfl h ha.2 fun hm => readsAs_half (half_store_same hw ha hm (v.extractLsb' 0 16))

/-- Settles O56: each is one store, of a word, a halfword or a byte, with no writeback. -/
theorem thumbStores : Obligations.ThumbStores := fun _ _ _ _ _ _ hw =>
  ⟨storeEffect_of_storeWord (p := true) (w := false) hw rfl, storeEffect_of_storeWord (p := true) (w := false) hw rfl,
    storeEffect_of_storeWord (p := true) (w := false) hw rfl, storeEffect_of_storeHalf (p := true) (w := false) hw rfl,
    storeEffect_of_storeByte (p := true) (w := false) hw rfl, storeEffect_of_storeByte (p := true) (w := false) hw rfl⟩

/-! ### Multiple transfers -/

/-- The base moves by four bytes for each listed register (R384). -/
theorem bytesOf_lowRegList (rlist : BitVec 8) :
    bytesOf (lowRegList rlist) = BitVec.ofNat 32 (4 * bitCount (rlist.setWidth 16)) := bytesOf_regList _

/-- PUSH's final SP is the address its transfers start at (R385). -/
theorem pushStart_eq (r : Bool) (rlist : BitVec 8) (s : State) :
    pushStart r rlist s = s.reg 13#4 - BitVec.ofNat 32 (4 * bitCount (pushMask r rlist)) := by
  rw [pushStart, pushList_eq, bytesOf_regList]

/-- Settles O57: each is a store of its register list and then the writeback of its base. -/
theorem thumbStoreMultiple : Obligations.ThumbStoreMultiple := by
  refine fun s hw => ⟨fun r rlist => ?_, fun rb rlist => ?_⟩
  · intro start h
    have hpush := exec_tPush r rlist s
    rw [pushStart_eq] at hpush
    exact storeManyEffect_of_storeMany (p := true) (w := true) hw h hpush
  · intro start h
    rw [← bytesOf_lowRegList]
    exact storeManyEffect_of_storeMany (p := true) (w := true) hw h rfl

/-- POP without PC is LDMIA with SP as its base (R386). -/
theorem exec_tPop_noPc (rlist : BitVec 8) (s : State) :
    exec (.tPop false rlist) s = finish (loadMany (siteOf (.tPop false rlist) s) (lowRegList rlist) (s.reg 13#4) s)
      fun t => t.setReg 13#4 (s.reg 13#4 + bytesOf (lowRegList rlist)) := by
  rw [exec, execTPop, popList, if_neg (by decide), List.append_nil]
  cases loadMany (siteOf (.tPop false rlist) s) (lowRegList rlist) (s.reg 13#4) s <;> rfl

/-- The state a POP with PC leaves once its list is loaded: the exchange with the PC's word, and then the new SP (R386). -/
def afterPopPc (v sp : Word) (t : State) : State := (branchExchange v t).setReg 13#4 sp

theorem pc_afterPopPc (v sp : Word) (t : State) : (afterPopPc v sp t).pc = v &&& 0xFFFFFFFE#32 :=
  (reg_setReg_ne _ sp (by decide)).trans ((branchExchange_reg v t 15#4).trans (if_pos rfl))

theorem sp_afterPopPc (v sp : Word) (t : State) : (afterPopPc v sp t).reg 13#4 = sp := reg_setReg_same _ 13#4 sp

theorem reg_afterPopPc (v sp : Word) (t : State) {r : RegNum} (hsp : r ≠ 13#4) (hpc : r ≠ 15#4) :
    (afterPopPc v sp t).reg r = t.reg r :=
  (reg_setReg_ne _ sp hsp).trans ((branchExchange_reg v t r).trans (if_neg hpc))

theorem getLsbD_afterPopPc (v sp : Word) (t : State) (k : Nat) :
    (afterPopPc v sp t).cpsr.getLsbD k = if k = 5 then v.getLsbD 0 else t.cpsr.getLsbD k :=
  getLsbD_putBit t.cpsr 5 k (v.getLsbD 0) (by decide)

theorem kept_afterPopPc (v sp : Word) (t : State) : Kept t (afterPopPc v sp t) :=
  (kept_branchExchange v t).trans (kept_setReg _ 13#4 sp)

/-- A POP with PC whose words can all be read. -/
theorem exec_tPop_pc {rlist : BitVec 8} {s t : State} {v : Word}
    (ht : loadMany (siteOf (.tPop true rlist) s) (lowRegList rlist) (s.reg 13#4) s = .ok t)
    (hv : t.word (s.reg 13#4 + bytesOf (lowRegList rlist)) = .ok v) :
    exec (.tPop true rlist) s = .next (afterPopPc v (s.reg 13#4 + bytesOf (popList true rlist)) t) := by
  have hpc : loadPc (siteOf (.tPop true rlist) s) (s.reg 13#4 + bytesOf (lowRegList rlist)) t = .ok (branchExchange v t) := by
    rw [State.word] at hv
    rw [loadPc, hv]
  simp [exec, execTPop, ht, hpc, finish, afterPopPc]

/-- POP's list with PC is one word longer. -/
theorem bytesOf_popList_pc (rlist : BitVec 8) :
    bytesOf (popList true rlist) = BitVec.ofNat 32 (4 * (bitCount (rlist.setWidth 16) + 1)) := by
  simp [bytesOf, popList, lowRegList, length_regList]

/-- A Thumb register list names low registers alone. -/
theorem toNat_lt_of_listed_low {rlist : BitVec 8} {r : RegNum} (h : listed (rlist.setWidth 16) r) : r.toNat < 8 := by
  rw [listed, BitVec.getLsbD_setWidth, Bool.and_eq_true] at h
  exact BitVec.lt_of_getLsbD h.2

theorem ne_of_listed_low {rlist : BitVec 8} {r q : RegNum} (h : listed (rlist.setWidth 16) r) (hq : 8 ≤ q.toNat) : r ≠ q := by
  rintro rfl
  exact absurd (toNat_lt_of_listed_low h) (Nat.not_lt.2 hq)

/-- Settles O58: LDMIA and POP without PC are a load of the register list and then the writeback; neither the exchange nor the new
SP of a POP with PC touches a listed register. -/
theorem thumbLoadMultiple : Obligations.ThumbLoadMultiple := by
  refine fun s => ⟨fun rb rlist => ?_, fun rlist => ?_, fun rlist => ?_⟩
  · intro start h
    rw [← bytesOf_lowRegList]
    exact loadManyEffect_of_loadMany (p := true) (w := true) h rfl
  · intro start h
    rw [← bytesOf_lowRegList]
    exact loadManyEffect_of_loadMany (p := true) (w := true) h (exec_tPop_noPc rlist s)
  · intro start n pcSlot h hpc
    obtain ⟨v, hv⟩ := word_ok hpc
    obtain ⟨t, ht, hkept, hmem, hword, hreg, hcpsr, hbytes⟩ := loadMany_loads h (siteOf (.tPop true rlist) s)
    have hvt : t.word (start + bytesOf (lowRegList rlist)) = .ok v := by
      rw [bytesOf_lowRegList, State.word, hmem, hkept.config]
      exact hv
    refine ⟨v, hv, _, exec_tPop_pc ht hvt, fun r hr => ?_, getLsbD_afterPopPc v _ t 5, pc_afterPopPc v _ t, ?_,
      fun r hr hsp hpc => ?_, fun k hk => ?_, hbytes, (hkept.trans (kept_afterPopPc v _ t)).restKept⟩
    · rw [reg_afterPopPc v _ t (ne_of_listed_low hr (by decide)) (ne_of_listed_low hr (by decide))]
      exact hword r hr r.isLt
    · rw [sp_afterPopPc, bytesOf_popList_pc]
    · rw [reg_afterPopPc v _ t hsp hpc]
      exact hreg r fun hlisted => hr hlisted.1
    · rw [getLsbD_afterPopPc, if_neg (by simpa using hk), hcpsr]

end Sys2Proof.Machine
end

section
/-! PROOFS. The Thumb branches and the BL/BLX pair (47_thumb_branch.md), in the shapes of the ARM branches. The pair moves x[15] past
its second halfword before it links; the write of the target leaves nothing of that. -/

namespace Sys2Proof.Machine

/-- B<cond> is the branch where its condition holds, and nothing else (R402). -/
theorem exec_tBcond (c : Cond) (imm8 : BitVec 8) (s : State) :
    exec (.tBcond c imm8) s =
      if condHolds c s = true then .next (s.setPc (s.pc + 2#32 + thumbCondOffset imm8)) else .next s := rfl

/-- Once the target is written, all that is left of `pairLink` is the link (R405). -/
theorem pairLink_setPc (v : Word) (s : State) :
    (pairLink s).setPc v = (withLink (some ((s.pc + 2#32) ||| 1#32)) s).setPc v := by
  refine state_ext (fun r => ?_) rfl rfl rfl rfl rfl rfl
  simp only [pairLink, withLink, reg_setPc, reg_setReg, pc_setPc]
  split
  · rfl
  · rfl

/-- Settles O44: a branch without a link writes x[15] alone; the pair links to the address after its second halfword, and BLX clears
T before it writes x[15]. -/
theorem thumbBranches : Obligations.ThumbBranches := by
  refine fun s => ⟨fun c imm8 hc => ?_, fun c imm8 hc => ?_, fun imm11 => ?_, fun hi x y lo => ?_, fun hi x y lo => ?_⟩
  · exact branchEffect_of_setPc (link := none) ((exec_tBcond c imm8 s).trans (if_pos hc))
  · exact (exec_tBcond c imm8 s).trans (if_neg (by simp [hc]))
  · exact branchEffect_of_setPc (link := none) rfl
  · exact branchEffect_of_setPc (congrArg Host.Outcome.next (pairLink_setPc _ s))
  · exact branchEffect_of_setT_setPc (congrArg (fun t : State => Host.Outcome.next (t.setT false)) (pairLink_setPc _ s))

end Sys2Proof.Machine
end

section
/-! PROOFS. Stops and the run loop (60_exceptions.md R433, R434, R447; 40_execution_cycle.md R175): what a stopped block answers, which
instructions fault, and a run as the steps before its first stop. -/

namespace Sys2Proof.Machine

/-- Settles O17: what executing an instruction can answer; the record of a failed access is no breakpoint. -/
theorem onlyTheListedInstructionsFault : Obligations.OnlyTheListedInstructionsFault := by
  intro i s f h
  have ha := exec_answers i s
  rw [h] at ha
  obtain ⟨hwide, k, u, rfl, -, -⟩ := ha
  refine ⟨hwide, fun ia left he => ?_⟩
  cases k with
  | misaligned => cases he
  | straddle => cases he

/-! ### A stopped block -/

theorem step_of_stop {s : State} {r : Stop} (h : s.stop = some r) : step s = stopAgain r s := by
  simp [step, h]

/-- Recording again what a state has recorded changes nothing. -/
theorem record_again {s : State} {o : Option Stop} (h : s.stop = o) : ({ s with stop := o } : State) = s := by
  subst h
  rfl

/-! ### Runs -/

theorem safeRun_iff_stepsTo {n : Nat} {s : State} : SafeRun n s ↔ ∃ t, StepsTo n s t := by
  induction n generalizing s with
  | zero => simp [SafeRun, StepsTo]
  | succ n ih =>
    simp only [SafeRun, StepsTo, ih]
    exact ⟨fun ⟨u, hu, t, ht⟩ => ⟨t, u, hu, ht⟩, fun ⟨t, u, hu, ht⟩ => ⟨u, hu, t, ht⟩⟩

/-- A run is safe, or it reaches a first step that does not continue. -/
theorem safeRun_or_first_stop (n : Nat) (s : State) :
    SafeRun n s ∨ ∃ k t, k < n ∧ StepsTo k s t ∧ ∀ u, step t ≠ .next u := by
  induction n generalizing s with
  | zero => exact .inl trivial
  | succ n ih =>
    by_cases hnext : ∃ u, step s = .next u
    · obtain ⟨u, hu⟩ := hnext
      rcases ih u with hsafe | ⟨k, t, hk, hsteps, hstop⟩
      · exact .inl ⟨u, hu, hsafe⟩
      · exact .inr ⟨k + 1, t, by omega, ⟨u, hu, hsteps⟩, hstop⟩
    · exact .inr ⟨0, s, by omega, rfl, not_exists.1 hnext⟩

/-- The run loop after steps that continue: so many fewer to make, so many more counted. -/
theorem runLoop_of_stepsTo {k : Nat} {s t : State} (h : StepsTo k s t) (left done : Nat) :
    runLoop (left + k) done s = runLoop left (done + k) t := by
  induction k generalizing s done with
  | zero =>
    obtain rfl : t = s := h
    rfl
  | succ k ih =>
    obtain ⟨u, hu, hut⟩ := h
    calc runLoop (left + k + 1) done s = runLoop (left + k) (done + 1) u := by rw [runLoop, hu]
      _ = runLoop left (done + 1 + k) t := ih hut (done + 1)
      _ = runLoop left (done + (k + 1)) t := by rw [Nat.add_right_comm, Nat.add_assoc]

/-- A run that reaches a state before its budget is spent makes its next Step call there. -/
theorem runLoop_at_step {n k : Nat} {s t : State} (hk : k < n) (h : StepsTo k s t) :
    ∃ left, runLoop n 0 s = runLoop (left + 1) k t := by
  obtain ⟨left, rfl⟩ := Nat.exists_eq_add_of_lt hk
  refine ⟨left, ?_⟩
  rw [show k + left + 1 = left + 1 + k by omega, runLoop_of_stepsTo h, Nat.zero_add]

/-- Settles O9: a stopped block by its record, runs by induction on the number of Step calls. -/
theorem stoppedBlockTakesNoStep : Obligations.StoppedBlockTakesNoStep := by
  refine ⟨fun s site a n h => ?_, fun s site a n h => ?_, fun s site h => step_of_stop h, fun s t h => ?_,
    fun n s => safeRun_iff_stepsTo, safeRun_or_first_stop, fun n s t h => ?_, fun n k s t f hk h hf => ?_,
    fun n k s t r hk h hr => ?_⟩
  · simp [step_of_stop h, stopAgain, stopFault, record_again h]
  · simp [step_of_stop h, stopAgain, stopFault, record_again h]
  · obtain ⟨hs, hkept⟩ := step_next h
    exact ⟨hs, hkept.stop.trans hs⟩
  · simpa [runLoop] using runLoop_of_stepsTo h 0 0
  · obtain ⟨left, hrun⟩ := runLoop_at_step hk h
    rw [hrun, runLoop, hf]
  · obtain ⟨left, hrun⟩ := runLoop_at_step hk h
    rw [hrun, runLoop, hr]

end Sys2Proof.Machine
end

section
/-! PROOFS. The host between steps (60_exceptions.md R440, R446, R461; 70_reset_and_hazards.md R460, R463): the breakpoint set as a
strictly rising list, the canonical form under every operation, and the boot of a binary image, whose space and the stack's share no
address. -/

namespace Sys2Proof.Machine

/-! ### The breakpoint set -/

theorem addrsWf_iff_pairwise {l : List Word} : addrsWf l = true ↔ l.Pairwise fun a b => a.toNat < b.toNat := by
  induction l with
  | nil => simp [addrsWf]
  | cons a rest ih => simp [addrsWf, ih]

theorem mem_insertAddr_iff {a b : Word} {l : List Word} : b ∈ insertAddr a l ↔ b ∈ l ∨ b = a := by
  induction l with
  | nil => simp [insertAddr]
  | cons c rest ih =>
    rw [insertAddr]
    split
    · simp [or_comm]
    · split
      next hac => simp [hac, or_right_comm]
      next => simp [ih, or_assoc]

theorem addrsWf_insertAddr {l : List Word} (h : addrsWf l = true) (a : Word) : addrsWf (insertAddr a l) = true := by
  rw [addrsWf_iff_pairwise] at h ⊢
  induction l with
  | nil => simp [insertAddr]
  | cons c rest ih =>
    obtain ⟨hc, hrest⟩ := List.pairwise_cons.1 h
    rw [insertAddr]
    split
    next hlt =>
      refine .cons (fun b hb => ?_) h
      rcases List.mem_cons.1 hb with rfl | hb
      · exact hlt
      · exact hlt.trans (hc b hb)
    next hge =>
      split
      next => exact h
      next hne =>
        refine .cons (fun b hb => ?_) (ih hrest)
        rcases mem_insertAddr_iff.1 hb with hb | rfl
        · exact hc b hb
        · exact lt_of_le_of_ne (Nat.not_lt.1 hge) fun he => hne (BitVec.eq_of_toNat_eq he.symm)

theorem addrsWf_filter {l : List Word} (h : addrsWf l = true) (p : Word → Bool) : addrsWf (l.filter p) = true :=
  addrsWf_iff_pairwise.2 ((addrsWf_iff_pairwise.1 h).filter p)

theorem hasBreakpoint_addBreakpoint (s : State) (a b : Word) :
    (s.addBreakpoint a).hasBreakpoint b = (s.hasBreakpoint b || b == a) := by
  rw [Bool.eq_iff_iff]
  simp [State.hasBreakpoint, State.addBreakpoint, mem_insertAddr_iff]

theorem hasBreakpoint_removeBreakpoint (s : State) (a b : Word) :
    (s.removeBreakpoint a).hasBreakpoint b = (s.hasBreakpoint b && b != a) := by
  rw [Bool.eq_iff_iff]
  simp [State.hasBreakpoint, State.removeBreakpoint]

/-- Settles O23: SetPC is a write of x[15]; the breakpoint set by membership. -/
theorem setPcAndBreakpointSet : Obligations.SetPcAndBreakpointSet := fun s a =>
  ⟨⟨pc_setPc s a, fun _ hr => reg_setReg_ne s a (by simpa using hr), rfl, rfl, (kept_setPc s a).restKept⟩,
    hasBreakpoint_addBreakpoint s a, hasBreakpoint_removeBreakpoint s a⟩

/-! ### The canonical form -/

theorem loadImage_wf {m : Memory} (h : m.wf = true) (image : Image) : (m.loadImage image).1.wf = true := by
  cases image with
  | binary bytes => exact loadBinary_wf h bytes
  | elf bytes => exact loadElf_wf h bytes

/-- Settles O13: each operation writes memory, the breakpoint set or neither, and keeps the canonical form of what it writes. -/
theorem hostOperationsKeepTheInvariant : Obligations.HostOperationsKeepTheInvariant := by
  refine ⟨⟨reset_mem_wf, rfl⟩, ?_⟩
  rintro s ⟨hmem, hbreak⟩
  refine ⟨⟨hmem, hbreak⟩, ⟨destroyAll_wf s.mem, hbreak⟩, fun a => ⟨?_, ?_, ?_, hmem, hbreak⟩,
    fun a n => ⟨create_wf hmem a n, hbreak⟩, fun a bs => ⟨copyIn_wf hmem a bs, hbreak⟩,
    fun a v => ⟨write8_wf hmem a v, hbreak⟩, fun _ _ _ h => ⟨write16_wf hmem h, hbreak⟩,
    fun _ _ _ h => ⟨write32_wf hmem h, hbreak⟩, fun image => ⟨loadImage_wf hmem image, hbreak⟩⟩
  · exact ⟨destroy_wf hmem a, hbreak⟩
  · exact ⟨hmem, addrsWf_insertAddr hbreak a⟩
  · exact ⟨hmem, addrsWf_filter hbreak _⟩

/-! ### The end of a run -/

theorem runProgram_of_ready {cfg : Config} {image : Image} {bp : Option Word} {s : State} (h : boot cfg image bp = .ready s)
    (maxSteps : Nat) : runProgram cfg image maxSteps bp =
      { left := (runLoop maxSteps 0 s).left.destroyAll
        regs := some (runLoop maxSteps 0 s).left.dumpRegs
        stack := (runLoop maxSteps 0 s).left.dumpStack 8
        exitCode := 0 } := by
  rw [runProgram, h]

theorem dumpRegs_length (t : State) : t.dumpRegs.regs.length = 16 := by simp [State.dumpRegs]

theorem dumpRegs_get (t : State) (k : RegNum) : t.dumpRegs.regs[k.toNat]? = some (t.reg k) := by
  simp [State.dumpRegs, State.reg]

theorem dumpStack_get (t : State) {n k : Nat} (h : k < n) :
    (t.dumpStack n)[k]? = some (t.word (t.reg 13#4 + BitVec.ofNat 32 (4 * k))) := by
  simp [State.dumpStack, State.word, h]

/-! ### Booting a binary image -/

theorem boot_binary (cfg : Config) (bytes : List Byte) (bp : Option Word) : boot cfg (.binary bytes) bp =
    .ready { bootState cfg (State.reset.mem.loadBinary bytes) 0#32 with breakpoints := bp.toList } := by
  cases bp with
  | none => rfl
  | some a => rfl

theorem reg_bootState_zero (cfg : Config) (m : Memory) (r : RegNum) : (bootState cfg m 0#32).reg r = 0#32 := by
  rw [reg_bootState, ite_self]

/-- LoadBinary maps the addresses of the image (R96). -/
theorem mapped_loadBinary_iff (bytes : List Byte) (a : Word) :
    ((State.reset.mem.loadBinary bytes).lookup a).isSome = true ↔ a.toNat < bytes.length := by
  rw [Memory.loadBinary, mapped_writeBytes, mapped_create_iff fun _ _ _ => rfl]
  simp [State.reset, Memory.lookup]

section
variable {bytes : List Byte} (hlen : bytes.length ≤ 2 ^ 32)
include hlen

theorem read8_loadBinary_image {a : Word} (ha : a.toNat < bytes.length) :
    (State.reset.mem.loadBinary bytes).read8 a = bytes[a.toNat] := by
  have hmapped := (mapped_loadBinary_iff bytes a).2 ha
  rw [Memory.loadBinary, mapped_writeBytes] at hmapped
  exact read8_writeBytes_inside (a := 0#32) (create_wf reset_mem_wf _ _) (by simpa using hlen) (Nat.zero_le _) ha hmapped

theorem read8_loadBinary_blank {a : Word} (ha : bytes.length ≤ a.toNat) :
    (State.reset.mem.loadBinary bytes).read8 a = 0xFF#8 := by
  rw [Memory.loadBinary, read8_writeBytes_outside _ (by simpa using hlen) (.inr (by simpa using ha)),
    read8_create fun _ _ _ => rfl]
  rfl

end

section
variable {m : Memory} (hfree : ∀ a : Word, 0xFFFFE000 ≤ a.toNat → m.lookup a = none)
include hfree

/-- The stack space maps every address from its base on (R99). -/
theorem mapped_createStack_iff (a : Word) :
    (m.createStack.lookup a).isSome = true ↔ (m.lookup a).isSome = true ∨ 0xFFFFE000 ≤ a.toNat := by
  rw [Memory.createStack, mapped_create_iff (v := 0xFFFFE000#32) fun b hb _ => hfree b hb]
  exact or_congr_right (and_iff_left a.isLt)

theorem read8_createStack (a : Word) : m.createStack.read8 a = m.read8 a :=
  read8_create (v := 0xFFFFE000#32) (fun b hb _ => hfree b hb) a

end

/-- Settles O22: the end of a run as the two dumps and Destroy are defined; the booted memory as LoadBinary leaves it with the stack
space above. -/
theorem bootStateOfABinaryImage : Obligations.BootStateOfABinaryImage := by
  refine ⟨fun cfg image maxSteps bp s h => ?_, fun cfg bytes bp => ⟨_, boot_binary cfg bytes bp,
    reg_bootState_zero cfg _, rfl, rfl, rfl, rfl, rfl, fun hlen => ?_⟩⟩
  · intro t r
    rw [show r = _ from runProgram_of_ready h maxSteps]
    exact ⟨rfl, ⟨t.dumpRegs, rfl, dumpRegs_length t, dumpRegs_get t, rfl, rfl⟩, rfl, fun k hk => dumpStack_get t hk, rfl,
      fun _ _ => rfl, rfl, rfl, rfl, rfl, rfl⟩
  · have hfree : ∀ a : Word, 0xFFFFE000 ≤ a.toNat → (State.reset.mem.loadBinary bytes).lookup a = none := fun a ha => by
      rw [← Option.not_isSome_iff_eq_none, mapped_loadBinary_iff]
      omega
    have hmapped (a : Word) := (mapped_createStack_iff hfree a).trans (or_congr_left (mapped_loadBinary_iff bytes a))
    refine ⟨fun a ha => ⟨(hmapped a).2 (.inl ha), ?_⟩, fun a ha => ?_, fun a ha => (hmapped a).2 (.inr ha),
      fun a hlo hhi hm => ?_⟩
    · exact (read8_createStack hfree a).trans (read8_loadBinary_image (by omega) ha)
    · exact (read8_createStack hfree a).trans (read8_loadBinary_blank (by omega) ha)
    · have := (hmapped a).1 hm
      omega

end Sys2Proof.Machine
end
